-- ==== Sys2Proof/Word.lean ====
section
/-! DEFINITION. The word types of the core: bytes, the 16-bit values passed between agents (the READ result,
the baud selector) and the 32-bit command and event words (30_encoding.md R70, R71). All values are unsigned (R13). -/

namespace Sys2Proof

/-- A byte, 8 bits unsigned (R13). -/
abbrev Byte := BitVec 8

/-- A 16-bit value: the READ result word (R78) or the baud selector (R83). -/
abbrev Half := BitVec 16

/-- A command or event word (R71, R77). -/
abbrev Word := BitVec 32

end Sys2Proof
end

