-- ==== Sys2Proof/Config.lean ====
section
/-! DEFINITION. What is fixed when the core is built (00_scope.md R11, R12), the agents whose turns a run is made of
(R10, R200), and the two free values of the model: the schedule and the bytes of unwritten storage. -/

namespace Sys2Proof

/-- The two circular buffers, one per direction (R20). -/
inductive BufId
  | rx
  | tx
deriving DecidableEq, Repr

/-- A capacity the core can be built with: a power of two, at least 2 (R12, R100). -/
def validCapacity (n : Nat) : Bool := decide (2 ≤ n) && n == 2 ^ Nat.log2 n

/-- The checks R11 and R12 make before any step: both capacities valid, and `2 ^ IDX_W` no smaller than either. -/
def validConfig (nRx nTx idxW : Nat) : Bool :=
  validCapacity nRx && validCapacity nTx && decide (nRx ≤ 2 ^ idxW) && decide (nTx ≤ 2 ^ idxW)

/-- The parameters of R11, with R12's rejection in the constructor: a configuration that is not well formed cannot be
built, so no state has one and no step checks it (R12: "construction fails or is statically rejected"). The field
`valid` is a closed equation of numbers, so configurations are still written out and compared (log 3). -/
structure Config where
  /-- `N_RX`, slots of the receive buffer. -/
  nRx : Nat
  /-- `N_TX`, slots of the transmit buffer. -/
  nTx : Nat
  /-- `IDX_W`, bits of a stored index. -/
  idxW : Nat
  /-- `PLATFORM_MAP` (R59): where the platform puts each named buffer or register. No rule reads it. -/
  platformMap : List (String × Nat)
  /-- R12's check. -/
  valid : validConfig nRx nTx idxW = true
deriving DecidableEq, Repr

namespace Config

/-- Building a configuration: `none` where R12 refuses it. -/
def make? (nRx nTx idxW : Nat) (platformMap : List (String × Nat)) : Option Config :=
  if h : validConfig nRx nTx idxW = true then some ⟨nRx, nTx, idxW, platformMap, h⟩ else none

/-- The configuration of `State.reset`. DESIGN CHOICE (log 3): the spec leaves the parameters open. The capacities are
those of program P1 of 95_test_vectors.md. -/
def default : Config := { nRx := 8, nTx := 4, idxW := 8, platformMap := [], valid := by decide }

/-- `N_B` (R11). -/
def capacity (c : Config) : BufId → Nat
  | .rx => c.nRx
  | .tx => c.nTx

/-- `M_B = N_B - 1`, the index mask (R11, R100). -/
def mask (c : Config) (B : BufId) : Nat := c.capacity B - 1

/-- `SEL_W`, the width of the baud selector (R11). -/
def selW : Nat := 16

end Config

/-- The steps of the agents other than FG (R10, R77), with LINE's free draws as operands: the byte, then its status. -/
inductive Event
  | rxh
  | txh
  | line (b status : Byte)
  | xmit
deriving DecidableEq, Repr, Inhabited

/-- Whose step a run takes next (R200): FG's next micro-step or command issue, or an event. -/
inductive Turn
  | fg
  | event (e : Event)
deriving DecidableEq, Repr, Inhabited

/-- FREE VALUE: the schedule after the turns that State lists. R200 leaves the choice free, so nothing says what it
is. DESIGN CHOICE (log 1). -/
opaque Config.freeTurn : Nat → Turn

/-- FREE VALUE: what a storage slot that nothing has written reads as. R41: any byte. DESIGN CHOICE (log 4). -/
opaque Config.freeByte : BufId → Nat → Byte

end Sys2Proof
end

