-- ==== Sys2Proof/Syntax.lean ====
section
/-! DEFINITION. The operations of the core: one constructor for each row of spec/opcode_table.json. -/

namespace Sys2Proof

/-- The rows of the opcode table. The first five are command words (30_encoding.md R72), `writes` is the
pseudo-operation (R84, R86), the last four are event words (R77). -/
inductive Instr
  /-- INIT: its operand is the 16-bit baud selector (R83, R190). -/
  | init (sel : Half)
  /-- READ (R162). -/
  | read
  /-- WRITE: its operand is the byte to send (R170). -/
  | write (b : Byte)
  /-- SEI, the host's command that sets `gie` (R180). -/
  | sei
  /-- CLI, the host's command that clears `gie` (R181). -/
  | cli
  /-- WRITES: its operand is a byte string ended by 0x00 (R86, R175). -/
  | writes (text : List Byte)
  /-- RXH, the receive interrupt handler (R123). -/
  | rxh
  /-- TXH, the transmit interrupt handler (R142). -/
  | txh
  /-- LINE: a byte arrives with its line status (R120). -/
  | line (b status : Byte)
  /-- XMIT: the transmitter becomes ready (R146). -/
  | xmit
deriving DecidableEq, Repr

/-- The operation an event's step runs. -/
def Event.instr : Event → Instr
  | .rxh => .rxh
  | .txh => .txh
  | .line b status => .line b status
  | .xmit => .xmit

end Sys2Proof
end

