-- ==== Sys2Proof/WellFormed.lean ====
section
/-! DEFINITION. Which operations are well formed. Every operand of a command or event word is a bit vector of its
field's width, so the types leave one check: the string of WRITES ends in its terminator (30_encoding.md R86). -/

namespace Sys2Proof

/-- R86, R175: a WRITES string is "null/sentinel-terminated", so it holds a 0x00 byte. -/
def terminated (text : List Byte) : Bool := text.contains 0

namespace Instr

/-- The operation is well formed. -/
def wf : Instr → Bool
  | .init _ => true
  | .read => true
  | .write _ => true
  | .sei => true
  | .cli => true
  | .writes text => terminated text
  | .rxh => true
  | .txh => true
  | .line _ _ => true
  | .xmit => true

end Instr

end Sys2Proof
end

