-- ==== Sys2Proof/Decode.lean ====
section
/-! DEFINITION. The command and event words: their fields, the decoder (30_encoding.md R71 to R75, R77), total on
every word and rejecting by name, and after it the encoder, written from the same tables. -/

namespace Sys2Proof

/-- Field `op`, bits 31:28 (R71). -/
def opField (w : Word) : BitVec 4 := w.extractLsb' 28 4

/-- Field `rsv`, bits 27:16 (R71). -/
def rsvField (w : Word) : BitVec 12 := w.extractLsb' 16 12

/-- Field `opnd`, bits 15:0 (R71). -/
def opndField (w : Word) : Half := w.extractLsb' 0 16

/-- `v[15:8]` of an operand (R73, R77). -/
def highByte (v : Half) : Byte := v.extractLsb' 8 8

/-- `v[7:0]` of an operand (R73, R77). -/
def lowByte (v : Half) : Byte := v.extractLsb' 0 8

/-- Why a word spells no command (R75) or no event (R77). -/
inductive Illegal
  /-- Field `rsv` is not 0. -/
  | rsvNonzero
  /-- `op` is 0x0, 0x6, 0x7 or 0xC to 0xF. -/
  | reservedOp
  /-- `op` is 0x8 to 0xB: a trace label, no command. -/
  | eventSpace
  /-- An operand bit that must be 0 is 1. -/
  | operandNonzero
  /-- `op` is not one of the four of R77: no event. -/
  | notAnEvent
deriving DecidableEq, Repr

/-- A command or event without operand: its whole `opnd` must be 0 (R73, R77). -/
def withoutOperand {α : Type} (w : Word) (a : α) : Except Illegal α :=
  if opndField w = 0 then .ok a else .error .operandNonzero

/-- R74: the command a word spells. `rsv` is checked first, then `op`, then the operand. -/
def decodeCommand (w : Word) : Except Illegal Instr :=
  if rsvField w ≠ 0 then .error .rsvNonzero
  else if opField w = 0x1 then .ok (.init (opndField w))
  else if opField w = 0x2 then withoutOperand w .read
  else if opField w = 0x3 then
    if highByte (opndField w) = 0 then .ok (.write (lowByte (opndField w))) else .error .operandNonzero
  else if opField w = 0x4 then withoutOperand w .sei
  else if opField w = 0x5 then withoutOperand w .cli
  else if opField w = 0x8 ∨ opField w = 0x9 ∨ opField w = 0xA ∨ opField w = 0xB then .error .eventSpace
  else .error .reservedOp

/-- R77: the event a word labels. -/
def decodeEvent (w : Word) : Except Illegal Event :=
  if rsvField w ≠ 0 then .error .rsvNonzero
  else if opField w = 0x8 then withoutOperand w .rxh
  else if opField w = 0x9 then withoutOperand w .txh
  else if opField w = 0xA then .ok (.line (lowByte (opndField w)) (highByte (opndField w)))
  else if opField w = 0xB then withoutOperand w .xmit
  else .error .notAnEvent

/-- The operation a word of the opcode table spells: a command (R74), or, in the event space, an event (R77). -/
def decodeWord (w : Word) : Except Illegal Instr :=
  match decodeCommand w with
  | .error .eventSpace => (decodeEvent w).map Event.instr
  | r => r

/-- The word whose bits the opcode table numbers as `w`: bit 0 the least significant, bits above `nbits` 0 (log 17). -/
def tableWord (nbits w : Nat) : Word := BitVec.ofNat 32 (w % 2 ^ nbits)

/-- What the decoder reads from a word of the opcode table; no word is longer than 32 bits (R71). -/
def decodeTableWord (nbits w : Nat) : Option Instr :=
  if w < 2 ^ 32 then
    match decodeWord (tableWord nbits w) with
    | .ok i => some i
    | .error _ => none
  else none

/-- The word with the given fields, `{op, rsv, opnd}` (R13, R71). -/
def packWord (op : BitVec 4) (rsv : BitVec 12) (opnd : Half) : Word := op ++ rsv ++ opnd

/-- The word of a command or event: `rsv` is 0 (R71). -/
def encodeFields (op : BitVec 4) (opnd : Half) : Word := packWord op 0 opnd

/-- The word of WRITE b, `0x30000000 | b` (R74). -/
def encodeWrite (b : Byte) : Word := encodeFields 0x3 (b.zeroExtend 16)

/-- The word that labels an event (R77): LINE has its status in `opnd[15:8]` and its byte in `opnd[7:0]`. -/
def encodeEvent : Event → Word
  | .rxh => encodeFields 0x8 0
  | .txh => encodeFields 0x9 0
  | .line b status => encodeFields 0xA (status ++ b)
  | .xmit => encodeFields 0xB 0

/-- The bytes of a WRITES string that are sent: those before its first 0x00 (R86). -/
def textBytes (text : List Byte) : List Byte := text.takeWhile (· ≠ 0)

/-- The operations that have a word of their own and stand for `i`: WRITES is one WRITE for each byte (R86). -/
def expand : Instr → List Instr
  | .init sel => [.init sel]
  | .read => [.read]
  | .write b => [.write b]
  | .sei => [.sei]
  | .cli => [.cli]
  | .writes text => (textBytes text).map .write
  | .rxh => [.rxh]
  | .txh => [.txh]
  | .line b status => [.line b status]
  | .xmit => [.xmit]

/-- The words of a well-formed operation (R74, R77, R86). -/
def encode : Instr → List Word
  | .init sel => [encodeFields 0x1 sel]
  | .read => [encodeFields 0x2 0]
  | .write b => [encodeWrite b]
  | .sei => [encodeFields 0x4 0]
  | .cli => [encodeFields 0x5 0]
  | .writes text => (textBytes text).map encodeWrite
  | .rxh => [encodeEvent .rxh]
  | .txh => [encodeEvent .txh]
  | .line b status => [encodeEvent (.line b status)]
  | .xmit => [encodeEvent .xmit]

end Sys2Proof
end

