-- ==== Sys2Proof/Machine/State.lean ====
section
/-! DEFINITION. The state of the core as plain data (10_state.md), its fault reasons (60_exceptions.md R215) and its
power-on reset (70_reset_and_hazards.md R230). -/

namespace Sys2Proof.Machine

/-- The storage of a buffer: the slots written since power-on, as (slot, byte) pairs with strictly rising slots. A
slot that is not listed holds no written byte (R41, log 4). -/
abbrev Memory := List Host.Cell

/-- A circular buffer (R20): `head` is the slot last written by its producer, `tail` the slot last consumed. -/
structure Ring where
  head : Nat
  tail : Nat
  storage : Memory
deriving DecidableEq, Repr

/-- FG's micro-step counter `fg.phase` together with the temporaries `fg.byte` and `fg.next`, each in the phases in
which it holds a value (R37, log 6): none of them at `idle`. -/
inductive Phase
  /-- No command in progress. -/
  | idle
  /-- READ: the empty check. -/
  | r1
  /-- READ: consume a byte. -/
  | r2
  /-- READ: sample the accumulator; the byte read and the new tail. -/
  | r3 (byte : Byte) (next : Nat)
  /-- WRITE: the room check; the byte to send. -/
  | w1 (byte : Byte)
  /-- WRITE: store the byte at the computed next head. -/
  | w2 (byte : Byte) (next : Nat)
  /-- WRITE: publish the next head. -/
  | w3 (byte : Byte) (next : Nat)
  /-- WRITE: enable the transmit-ready interrupt. -/
  | w4 (byte : Byte) (next : Nat)
deriving DecidableEq, Repr

/-- The closed set of fault reasons of R215. A step that raises one records it in `State.fault`; every later step
answers it (log 7). All are safe: the model stops where the source forbids the use. -/
inductive Fault
  /-- READ or WRITE issued before INIT (R216). Safe. -/
  | notInitialised
  /-- INIT issued with `gie = 1` (R191, R218). Safe. -/
  | initWithInterruptsEnabled
  /-- FG issued a word that spells no command (R75, R217). Safe. -/
  | illegalCommand
  /-- MemRead or MemWrite outside the storage (R51, R52, R218); no reachable state raises it (R43). Safe. -/
  | indexOutOfRange
deriving DecidableEq, Repr

/-- Why an operation has no meaning. -/
inductive Refusal
  /-- Raised by `exec` for an operation whose meaning is not written yet; no arm of this model does. Safe. -/
  | notModelled (mnemonic : String)
deriving DecidableEq, Repr

/-- The state of the machine. The fields up to `program` are the spec's; `turns` and `tick` are the model's own and
carry the free schedule of R200 (log 1). -/
structure State where
  /-- The configuration the core was built with (R11); no step changes it. -/
  cfg : Config
  /-- The receive buffer (R20). -/
  rx : Ring
  /-- The transmit buffer (R20). -/
  tx : Ring
  /-- The sticky error accumulator (R24). -/
  lastError : Byte
  /-- Receiver enabled (R27). -/
  rxen : Bool
  /-- Transmitter enabled (R27). -/
  txen : Bool
  /-- Receive-complete interrupt enabled (R27). -/
  rxie : Bool
  /-- Transmit-ready interrupt enabled (R27). -/
  txie : Bool
  /-- Baud divisor output (R28). -/
  baudDiv : BitVec 15
  /-- High-speed output (R28). -/
  highSpeed : Bool
  /-- INIT has completed since power-on (R29). -/
  initialised : Bool
  /-- The host's global interrupt enable (R30). -/
  gie : Bool
  /-- The receive holding slot: a byte and its line status (R31). -/
  rxHold : Option (Byte × Byte)
  /-- The hardware transmitter can accept a byte (R32). -/
  txReady : Bool
  /-- The result words of the completed READs, in order (R34). -/
  results : List Half
  /-- The fault record (R35). -/
  fault : Option Fault
  /-- The bytes handed to the transmitter, in order (R36). -/
  lineOut : List Byte
  /-- FG's micro-step counter and temporaries (R37, R38). -/
  phase : Phase
  /-- The command words FG has still to issue (R201). -/
  program : List Word
  /-- The turns to be offered next (R200, log 1). -/
  turns : List Turn
  /-- How many free turns have been taken (log 1). -/
  tick : Nat
deriving DecidableEq, Repr

/-- A buffer after power-on: both indices 0 (R39), no slot written (R41). -/
def Ring.powerOn : Ring := { head := 0, tail := 0, storage := [] }

/-- The power-on reset state of a core built with configuration `c` (R39 to R42, R230). `baudDiv` and `highSpeed`,
which R42 leaves unspecified, are 0: DESIGN CHOICE (log 5). -/
def State.powerOn (c : Config) : State where
  cfg := c
  rx := Ring.powerOn
  tx := Ring.powerOn
  lastError := 0
  rxen := false
  txen := false
  rxie := false
  txie := false
  baudDiv := 0
  highSpeed := false
  initialised := false
  gie := false
  rxHold := none
  txReady := true
  results := []
  fault := none
  lineOut := []
  phase := .idle
  program := []
  turns := []
  tick := 0

/-- The machine right after reset, with the configuration of log 3. -/
def State.reset : State := State.powerOn Config.default

end Sys2Proof.Machine
end

