-- ==== Sys2Proof/Machine/Flags.lean ====
section
/-! DEFINITION. The error flags: their bits (30_encoding.md R80), their extraction from a line status (R82), the READ
result word that reports them (R78, R79), and the numbers of the fault reasons (60_exceptions.md R219). -/

namespace Sys2Proof.Machine

/-- The named error flags (R14, R80). -/
inductive ErrorFlag
  | frameError
  | dataOverrun
  | parityError
  | receiveBufferOverflow
deriving DecidableEq, Repr

/-- The flag's bit in `lastError` (R80). -/
def ErrorFlag.bit : ErrorFlag → Nat
  | .frameError => 4
  | .dataOverrun => 3
  | .parityError => 2
  | .receiveBufferOverflow => 1

/-- The flag's mask in `lastError` (R80). -/
def ErrorFlag.mask : ErrorFlag → Byte
  | .frameError => 0x10
  | .dataOverrun => 0x08
  | .parityError => 0x04
  | .receiveBufferOverflow => 0x02

/-- The error bits of a line status (R82). -/
def statusErrorMask : Byte := 0x1C

/-- `lastErrorCandidate` of a byte with line status `status` (R82). -/
def lastErrorCandidate (status : Byte) : Byte := status &&& statusErrorMask

/-- The candidate of a byte that finds the receive buffer full: overflow is added (R123 step 4, R125). -/
def overflowCandidate (status : Byte) : Byte := lastErrorCandidate status ||| ErrorFlag.receiveBufferOverflow.mask

/-- The bits of `lastError` that are always 0: 7:5 and 0 (R24, R80). -/
def lastErrorZeroMask : Byte := 0xE1

/-- The result word of a READ that returns byte `b` with accumulator `e` (R78). -/
def resultWord (e b : Byte) : Half := (e.zeroExtend 16 <<< 8) ||| b.zeroExtend 16

/-- The `NoData` result (R79). -/
def noData : Half := 0x0100

/-- What a result word tells the caller (R78, R160): `none` for NoData, else the byte and the flags. -/
def resultValue (r : Half) : Option (Byte × Byte) :=
  if r.getLsbD 8 then none else some (r.extractLsb' 0 8, r.extractLsb' 8 8)

/-- The cause codes (R219). -/
def Fault.code : Fault → Nat
  | .notInitialised => 1
  | .initWithInterruptsEnabled => 2
  | .illegalCommand => 3
  | .indexOutOfRange => 4

end Sys2Proof.Machine
end

