-- ==== Sys2Proof/Machine/Operands.lean ====
section
/-! DEFINITION. The operand forms of the operations: the baud selector of INIT (30_encoding.md R83), the values FG's
phase carries (10_state.md R37), and the command a phase belongs to. -/

namespace Sys2Proof.Machine

/-- `highSpeed = sel[15]` (R83). -/
def selHighSpeed (sel : Half) : Bool := sel.getLsbD 15

/-- `baudDiv = sel[14:0]` (R83). -/
def selBaudDiv (sel : Half) : BitVec 15 := sel.extractLsb' 0 15

/-- `fg.byte`, in the phases in which it holds a value (R37). -/
def Phase.byte? : Phase → Option Byte
  | .idle => none
  | .r1 => none
  | .r2 => none
  | .r3 b _ => some b
  | .w1 b => some b
  | .w2 b _ => some b
  | .w3 b _ => some b
  | .w4 b _ => some b

/-- `fg.next`, in the phases in which it holds a value (R37, log 6). -/
def Phase.next? : Phase → Option Nat
  | .idle => none
  | .r1 => none
  | .r2 => none
  | .r3 _ n => some n
  | .w1 _ => none
  | .w2 _ n => some n
  | .w3 _ n => some n
  | .w4 _ n => some n

/-- The command in progress (R37, R38): READ in R1 to R3, WRITE of `fg.byte` in W1 to W4, none at Idle. -/
def Phase.command? : Phase → Option Instr
  | .idle => none
  | .r1 => some .read
  | .r2 => some .read
  | .r3 _ _ => some .read
  | .w1 b => some (.write b)
  | .w2 b _ => some (.write b)
  | .w3 b _ => some (.write b)
  | .w4 b _ => some (.write b)

end Sys2Proof.Machine
end

