-- ==== Sys2Proof/Machine/Ops.lean ====
section
/-! DEFINITION. The named operations over storage, buffers and registers (20_memory.md R51, R52; 40_circular_buffer.md
R100 to R107), raising a fault (60_exceptions.md R215), and entering and leaving an interrupt handler (R203, R206, R207). -/

namespace Sys2Proof.Machine

/-! ### Storage as a sorted list of written slots -/

/-- The byte written to slot `a`, if any. -/
def Memory.get? : Memory → Nat → Option Byte
  | [], _ => none
  | (k, v) :: m, a => if a = k then some v else Memory.get? m a

/-- Write byte `v` to slot `a`, keeping the slots strictly rising. -/
def Memory.set : Memory → Nat → Byte → Memory
  | [], a, v => [(a, v)]
  | (k, w) :: m, a, v =>
    if a < k then (a, v) :: (k, w) :: m
    else if a = k then (a, v) :: m
    else (k, w) :: Memory.set m a v

/-- Slots strictly rising, from `lo` on and below `n`. -/
def Memory.rising (n : Nat) : Nat → Memory → Bool
  | _, [] => true
  | lo, (k, _) :: m => decide (lo ≤ k) && decide (k < n) && Memory.rising n (k + 1) m

/-- The canonical form of the storage of an `n`-slot buffer. No entry can equal what an unlisted slot reads as, since
an unlisted slot holds no written byte (log 4). -/
def Memory.wf (n : Nat) (m : Memory) : Bool := Memory.rising n 0 m

/-! ### Registers -/

/-- Buffer `B` (R20). -/
def State.ring (s : State) : BufId → Ring
  | .rx => s.rx
  | .tx => s.tx

/-- Replace buffer `B`. -/
def State.setRing (s : State) (B : BufId) (r : Ring) : State :=
  match B with
  | .rx => { s with rx := r }
  | .tx => { s with tx := r }

/-- Publish the head of buffer `B` (R16). -/
def State.setHead (s : State) (B : BufId) (i : Nat) : State := s.setRing B { s.ring B with head := i }

/-- Publish the tail of buffer `B` (R16). -/
def State.setTail (s : State) (B : BufId) (i : Nat) : State := s.setRing B { s.ring B with tail := i }

/-- `fg.phase <- p` (R13). -/
def State.setPhase (s : State) (p : Phase) : State := { s with phase := p }

/-- A READ returns `r`: the word joins the results and FG goes back to Idle (R34, R162). -/
def State.returnResult (s : State) (r : Half) : State := { s with results := s.results ++ [r], phase := .idle }

/-- `lastError <- lastError | cand`, the only write to the accumulator (R25, R126). -/
def State.accumulate (s : State) (cand : Byte) : State := { s with lastError := s.lastError ||| cand }

/-- `emit Line(b)` and `txReady <- 0`: hand a byte to the transmitter (R143). -/
def State.handOver (s : State) (b : Byte) : State := { s with lineOut := s.lineOut ++ [b], txReady := false }

/-- `txie <- v` (R142, R172). -/
def State.setTxie (s : State) (v : Bool) : State := { s with txie := v }

/-- `txReady <- 1` (R146). -/
def State.transmitterReady (s : State) : State := { s with txReady := true }

/-- `gie <- v` (R180, R181). -/
def State.setGie (s : State) (v : Bool) : State := { s with gie := v }

/-- `rxHold <- h` (R120, R123). -/
def State.setHold (s : State) (h : Option (Byte × Byte)) : State := { s with rxHold := h }

/-- The command words still to be issued (R201). -/
def State.setProgram (s : State) (ws : List Word) : State := { s with program := ws }

/-- INIT's baud programming: both outputs, decoded from the selector (R194). -/
def State.programBaud (s : State) (sel : Half) : State :=
  { s with highSpeed := selHighSpeed sel, baudDiv := selBaudDiv sel }

/-- INIT's control bits: receiver, transmitter and receive interrupt on, transmit interrupt off (R193), and INIT has
completed (R29). -/
def State.enableCore (s : State) : State :=
  { s with rxen := true, txen := true, rxie := true, txie := false, initialised := true }

/-! ### Faults -/

/-- `raise Fault(r)`: the record is set and nothing else changes (R215). -/
def State.raise (s : State) (r : Fault) : State := { s with fault := some r }

/-- The outcome of a step body that may raise: on a fault the state is the one before the body, with the record (R215). -/
def State.finish (s : State) : Except Fault State → Host.Outcome State Fault Refusal
  | .ok t => .next t
  | .error r => .next (s.raise r)

/-! ### Circular buffer -/

/-- `next_B(i) = (i + 1) & M_B` (R101). -/
def State.nextIdx (s : State) (B : BufId) (i : Nat) : Nat := (i + 1) &&& s.cfg.mask B

/-- The slot after the head: where the producer writes (R105, R107). -/
def State.nextHead (s : State) (B : BufId) : Nat := s.nextIdx B (s.ring B).head

/-- The slot after the tail: what the consumer reads next (R107). -/
def State.nextTail (s : State) (B : BufId) : Nat := s.nextIdx B (s.ring B).tail

/-- IS_EMPTY (R103). -/
def State.isEmpty (s : State) (B : BufId) : Bool := (s.ring B).head == (s.ring B).tail

/-- IS_FULL (R105). -/
def State.isFull (s : State) (B : BufId) : Bool := s.nextHead B == (s.ring B).tail

/-- `Count(B) = (head - tail) & M` (R104); the difference is taken modulo `N` (log 16). -/
def State.count (s : State) (B : BufId) : Nat :=
  ((s.ring B).head + (s.cfg.capacity B - (s.ring B).tail % s.cfg.capacity B)) &&& s.cfg.mask B

/-- BUF_INIT: `tail <- head` (R102). -/
def State.bufInit (s : State) (B : BufId) : State := s.setTail B (s.ring B).head

/-- The byte slot `i` of `B` holds: the byte last written there, and any byte before that (R41, log 4). -/
def State.slot (s : State) (B : BufId) (i : Nat) : Byte :=
  (Memory.get? (s.ring B).storage i).getD (Config.freeByte B i)

/-- MemRead (R51). -/
def State.memRead (s : State) (B : BufId) (i : Nat) : Except Fault Byte :=
  if s.cfg.capacity B ≤ i then .error .indexOutOfRange else .ok (s.slot B i)

/-- MemWrite (R52). -/
def State.memWrite (s : State) (B : BufId) (i : Nat) (v : Byte) : Except Fault State :=
  if s.cfg.capacity B ≤ i then .error .indexOutOfRange
  else .ok (s.setRing B { s.ring B with storage := Memory.set (s.ring B).storage i v })

/-- Push (R107): data first, then publish. -/
def State.push (s : State) (B : BufId) (v : Byte) : Except Fault State :=
  match s.memWrite B (s.nextHead B) v with
  | .ok t => .ok (t.setHead B (s.nextHead B))
  | .error r => .error r

/-- Pop (R107): publish the new tail, then read the byte there. -/
def State.pop (s : State) (B : BufId) : Except Fault (Byte × State) :=
  let t := s.setTail B (s.nextTail B)
  match t.memRead B (s.nextTail B) with
  | .ok b => .ok (b, t)
  | .error r => .error r

/-! ### Interrupts and environment steps -/

/-- Receive-complete: pending, enabled and not masked (R123, R203). -/
def State.rxhEnabled (s : State) : Bool := s.gie && s.rxie && s.rxHold.isSome

/-- Transmit-ready: pending, enabled and not masked (R141, R203). -/
def State.txhEnabled (s : State) : Bool := s.gie && s.txen && s.txie && s.txReady

/-- A byte can be delivered (R120). -/
def State.lineEnabled (s : State) : Bool := s.rxen && s.rxHold.isNone

/-- The transmitter can signal that it is ready (R146). -/
def State.xmitEnabled (s : State) : Bool := !s.txReady

/-- FG has a step: a micro-step of the command in progress, or a command to issue (R201). -/
def State.fgEnabled (s : State) : Bool := s.phase != .idle || !s.program.isEmpty

/-- A step with an enable condition, interrupt entry and return among them: entered only where it is enabled, its
body runs whole, and FG then goes on at the phase it had (R203, R205 to R207). Nothing is saved or restored, since the
body touches no foreground state. Where it is not enabled nothing happens (log 2). -/
def State.whenEnabled (s : State) (enabled : Bool) (body : Host.Outcome State Fault Refusal) :
    Host.Outcome State Fault Refusal :=
  if enabled then body else .next s

/-- A command is issued only when `fg.phase = Idle` (R201). While another command is in progress it waits: nothing
happens (log 11). -/
def State.whenIdle (s : State) (o : Host.Outcome State Fault Refusal) : Host.Outcome State Fault Refusal :=
  match s.phase with
  | .idle => o
  | _ => .next s

/-- READ and WRITE need INIT first (R216): at issue FG enters the command's first phase, or the step faults. -/
def State.enter (s : State) (p : Phase) : Host.Outcome State Fault Refusal :=
  if s.initialised then .next (s.setPhase p) else .next (s.raise .notInitialised)

end Sys2Proof.Machine
end

