-- ==== Sys2Proof/Machine/Foreground.lean ====
section
/-! DEFINITION. The foreground commands READ, WRITE, WRITES, SEI and CLI (43_foreground_api.md). Each meaning is ONE
atomic step of its command: for READ and WRITE the micro-step that the phase names. In a phase of another command the
command waits (R201, log 11). -/

namespace Sys2Proof.Machine

/-- READ's phase R1 (R162): an empty buffer returns NoData, with no flags (R79, R161). -/
def readCheck (s : State) : State :=
  if s.isEmpty .rx then s.returnResult noData else s.setPhase .r2

/-- READ's phase R2 (R162): consume a byte; the phase carries it and the new tail (R37). -/
def readConsume (s : State) : Except Fault State :=
  match s.pop .rx with
  | .ok (b, t) => .ok (t.setPhase (.r3 b (s.nextTail .rx)))
  | .error r => .error r

/-- READ's phase R3 (R162): the accumulator is sampled, not cleared (R164), and the result returned. -/
def readReturn (b : Byte) (s : State) : State := s.returnResult (resultWord s.lastError b)

/-- READ (R162). -/
def execRead (s : State) : Host.Outcome State Fault Refusal :=
  match s.phase with
  | .idle => s.enter .r1
  | .r1 => .next (readCheck s)
  | .r2 => s.finish (readConsume s)
  | .r3 b _ => .next (readReturn b s)
  | .w1 _ => .next s
  | .w2 _ _ => .next s
  | .w3 _ _ => .next s
  | .w4 _ _ => .next s

/-- WRITE's phase W1 (R170): on a full buffer it spins (R173), else the next head is computed for W2. -/
def writeCheck (b : Byte) (s : State) : State :=
  if s.isFull .tx then s.setPhase (.w1 b) else s.setPhase (.w2 b (s.nextHead .tx))

/-- WRITE's phase W2 (R170): the data first. -/
def writeStore (b : Byte) (next : Nat) (s : State) : Except Fault State :=
  match s.memWrite .tx next b with
  | .ok t => .ok (t.setPhase (.w3 b next))
  | .error r => .error r

/-- WRITE's phase W3 (R170): then publish. -/
def writePublish (b : Byte) (next : Nat) (s : State) : State := (s.setHead .tx next).setPhase (.w4 b next)

/-- WRITE's phase W4 (R170, R172): enable the transmit-ready interrupt, whatever it was, and return. -/
def writeReturn (s : State) : State := (s.setTxie true).setPhase .idle

/-- WRITE (R170). The operand is read at issue; afterwards the byte is the one the phase carries (R37). -/
def execWrite (b : Byte) (s : State) : Host.Outcome State Fault Refusal :=
  match s.phase with
  | .idle => s.enter (.w1 b)
  | .w1 b' => .next (writeCheck b' s)
  | .w2 b' next => s.finish (writeStore b' next s)
  | .w3 b' next => .next (writePublish b' next s)
  | .w4 _ _ => .next (writeReturn s)
  | .r1 => .next s
  | .r2 => .next s
  | .r3 _ _ => .next s

/-- WRITES (R86, R175): it stands for its WRITE commands, which become the next words FG issues, in order and each to
completion (log 9). -/
def execWrites (text : List Byte) (s : State) : Host.Outcome State Fault Refusal :=
  s.whenIdle (.next (s.setProgram ((textBytes text).map encodeWrite ++ s.program)))

/-- SEI (R180). -/
def execSei (s : State) : Host.Outcome State Fault Refusal := s.whenIdle (.next (s.setGie true))

/-- CLI (R181). -/
def execCli (s : State) : Host.Outcome State Fault Refusal := s.whenIdle (.next (s.setGie false))

end Sys2Proof.Machine
end

