-- ==== Sys2Proof/Machine/Initialisation.lean ====
section
/-! DEFINITION. INIT (44_initialisation.md R190 to R197). -/

namespace Sys2Proof.Machine

/-- What INIT does with `gie = 0`: both buffers emptied (R192), the baud outputs programmed (R194), the control bits
set (R193). `lastError`, `gie`, `rxHold`, `txReady`, `lineOut` and `results` stay (R195). -/
def initBody (sel : Half) (s : State) : State :=
  (((s.bufInit .rx).bufInit .tx).programBaud sel).enableCore

/-- INIT: one micro-step at Idle; with interrupts globally enabled it faults (R190, R191). -/
def execInit (sel : Half) (s : State) : Host.Outcome State Fault Refusal :=
  s.whenIdle (if s.gie then .next (s.raise .initWithInterruptsEnabled) else .next (initBody sel s))

end Sys2Proof.Machine
end

