-- ==== Sys2Proof/Machine/Receive.lean ====
section
/-! DEFINITION. The receive path: LINE and RXH (41_receive_path.md). -/

namespace Sys2Proof.Machine

/-- LINE(b, status): a byte with its line status enters the holding slot (R120, R121). -/
def execLine (b status : Byte) (s : State) : Host.Outcome State Fault Refusal :=
  s.whenEnabled s.lineEnabled (.next (s.setHold (some (b, status))))

/-- What RXH does with the byte and status it has read, the holding slot being empty again (R123 steps 2 to 6): a full
buffer drops the byte and adds the overflow bit, else the byte is pushed; the candidate is accumulated either way. -/
def receiveByte (b status : Byte) (s : State) : Except Fault State :=
  if s.isFull .rx then .ok (s.accumulate (overflowCandidate status))
  else
    match s.push .rx b with
    | .ok t => .ok (t.accumulate (lastErrorCandidate status))
    | .error r => .error r

/-- RXH, the receive-complete interrupt handler, one atomic step (R123). -/
def execRxh (s : State) : Host.Outcome State Fault Refusal :=
  match s.rxHold with
  | some (b, status) => s.whenEnabled s.rxhEnabled (s.finish (receiveByte b status (s.setHold none)))
  | none => .next s

end Sys2Proof.Machine
end

