-- ==== Sys2Proof/Machine/Transmit.lean ====
section
/-! DEFINITION. The transmit path: TXH and XMIT (42_transmit_path.md). -/

namespace Sys2Proof.Machine

/-- What TXH does (R142): on an empty buffer it disables its own interrupt (R144), else it hands the next byte to the
transmitter (R143). -/
def transmitByte (s : State) : Except Fault State :=
  if s.isEmpty .tx then .ok (s.setTxie false)
  else
    match s.pop .tx with
    | .ok (b, t) => .ok (t.handOver b)
    | .error r => .error r

/-- TXH, the transmit-ready interrupt handler, one atomic step (R141, R142). -/
def execTxh (s : State) : Host.Outcome State Fault Refusal :=
  s.whenEnabled s.txhEnabled (s.finish (transmitByte s))

/-- XMIT: the transmitter can accept the next byte (R146). -/
def execXmit (s : State) : Host.Outcome State Fault Refusal :=
  s.whenEnabled s.xmitEnabled (.next s.transmitterReady)

end Sys2Proof.Machine
end

