-- ==== Sys2Proof/Machine/Dispatch.lean ====
section
/-! DEFINITION. One atomic step of each operation: one arm per row of spec/opcode_table.json. -/

namespace Sys2Proof.Machine

def exec (i : Instr) (s : State) : Host.Outcome State Fault Refusal :=
  match i with
  | .init sel => Sys2Proof.Machine.execInit sel s
  | .read => Sys2Proof.Machine.execRead s
  | .write b => Sys2Proof.Machine.execWrite b s
  | .sei => Sys2Proof.Machine.execSei s
  | .cli => Sys2Proof.Machine.execCli s
  | .writes text => Sys2Proof.Machine.execWrites text s
  | .rxh => Sys2Proof.Machine.execRxh s
  | .txh => Sys2Proof.Machine.execTxh s
  | .line b status => Sys2Proof.Machine.execLine b status s
  | .xmit => Sys2Proof.Machine.execXmit s

end Sys2Proof.Machine
end

