-- ==== Sys2Proof/Machine/Fetch.lean ====
section
/-! DEFINITION. What the next step runs: whose turn it is (60_exceptions.md R200), and for FG the micro-step of the
command in progress or the next command word of its program, decoded (R201). -/

namespace Sys2Proof.Machine

/-- The turn offered next: the first that State lists, else the free value (R200, log 1). -/
def State.nextTurn (s : State) : Turn :=
  match s.turns with
  | t :: _ => t
  | [] => Config.freeTurn s.tick

/-- The state with the offered turn taken out of the schedule (log 1). -/
def State.takeTurn (s : State) : State :=
  match s.turns with
  | _ :: ts => { s with turns := ts }
  | [] => { s with tick := s.tick + 1 }

/-- What a turn comes to. -/
inductive Fetched
  /-- An operation takes one atomic step in the given state. -/
  | run (i : Instr) (s : State)
  /-- FG issues a word that spells no command. -/
  | illegal (e : Illegal)
  /-- FG has no step left: the turn passes unused (R201, log 2). -/
  | pass (s : State)
deriving DecidableEq, Repr

/-- The command word FG issues next (R201): decoded, and taken off the program. -/
def State.fetchCommand (s : State) : Fetched :=
  match s.program with
  | [] => .pass s
  | w :: ws =>
    match decodeCommand w with
    | .ok i => .run i (s.setProgram ws)
    | .error e => .illegal e

/-- FG's next step: the command in progress goes on, else the next command is issued (R38, R201). -/
def State.fetchForeground (s : State) : Fetched :=
  match s.phase.command? with
  | some i => .run i s
  | none => s.fetchCommand

/-- What the next step runs (R200). -/
def State.fetch (s : State) : Fetched :=
  match s.nextTurn with
  | .event e => .run e.instr s.takeTurn
  | .fg => s.takeTurn.fetchForeground

/-- A step that raises changes the fault record and nothing else: the state before it is kept, its program and
schedule included (R215, R219, log 7). -/
def State.settle (s : State) (o : Host.Outcome State Fault Refusal) : Host.Outcome State Fault Refusal :=
  match o with
  | .next t =>
    match t.fault with
    | some r => .next (s.raise r)
    | none => .next t
  | .fault r => .fault r
  | .refused r => .refused r

/-- FG is about to issue word `w` (R201): no command in progress, `w` first in the program, FG's turn next (log 8). -/
def State.placeCommand (s : State) (w : Word) : State :=
  { s with phase := .idle, program := w :: s.program, turns := .fg :: s.turns }

/-- The event `e` is offered next (R200). -/
def State.placeEvent (s : State) (e : Event) : State := { s with turns := .event e :: s.turns }

/-- Word `w` of the opcode table is what the next step runs: an event word by its turn (R77), any other word by FG's
issuing it (log 8). -/
def State.placeWord (s : State) (w : Word) : State :=
  match decodeEvent w with
  | .ok e => s.placeEvent e
  | .error _ => s.placeCommand w

/-- Load a foreground program and a schedule: how a program comes to run (R201, log 8). -/
def State.load (s : State) (program : List Word) (turns : List Turn) : State :=
  { s with program := program, turns := turns }

end Sys2Proof.Machine
end

