-- ==== Sys2Proof/Machine/Step.lean ====
section
/-! DEFINITION. One step of the machine (60_exceptions.md R200): one agent takes one atomic step. -/

namespace Sys2Proof.Machine

/-- A recorded fault disables every step of every agent (R215), so the machine answers it and stops. Else the agent
whose turn it is runs one atomic step. -/
def step (s : State) : Host.Outcome State Fault Refusal :=
  match s.fault with
  | some r => .fault r
  | none =>
    match s.fetch with
    | .run i t => s.settle (exec i t)
    | .illegal _ => .next (s.raise .illegalCommand)
    | .pass t => .next t

/-- The word `w` of the opcode table, `nbits` bits of it given, is what the next step runs (log 8). -/
def State.withFetchWord (s : State) (nbits w : Nat) : State := s.placeWord (tableWord nbits w)

end Sys2Proof.Machine
end

