-- ==== Sys2Proof/Machine/Assembler.lean ====
section
/-! DEFINITION. The assembler syntax of the foreground commands (30_encoding.md R76, R86): one line of text to the
operation it spells and to its command words. What R76 leaves open of the text form is in log 10. -/

namespace Sys2Proof.Machine

/-- The value of a digit in base `base` (10 or 16). -/
def digitValue (base : Nat) (c : Char) : Option Nat :=
  let v :=
    if 48 ≤ c.toNat ∧ c.toNat ≤ 57 then c.toNat - 48
    else if 65 ≤ c.toNat ∧ c.toNat ≤ 70 then c.toNat - 55
    else if 97 ≤ c.toNat ∧ c.toNat ≤ 102 then c.toNat - 87
    else base
  if v < base then some v else none

/-- The digits `ds` after a number of value `acc`. -/
def parseDigits (base : Nat) : Nat → List Char → Option Nat
  | acc, [] => some acc
  | acc, c :: ds =>
    match digitValue base c with
    | some v => parseDigits base (acc * base + v) ds
    | none => none

/-- A number, decimal or hexadecimal with prefix `0x` (R76). -/
def parseNumber : List Char → Option Nat
  | [] => none
  | ['0', 'x'] => none
  | '0' :: 'x' :: ds => parseDigits 16 0 ds
  | ds => parseDigits 10 0 ds

/-- A number that fits `bits` bits. -/
def parseValue (bits : Nat) (cs : List Char) : Option (BitVec bits) :=
  match parseNumber cs with
  | some n => if n < 2 ^ bits then some (BitVec.ofNat bits n) else none
  | none => none

/-- The 8-bit code of a 7-bit ASCII character (R76). -/
def asciiByte (c : Char) : Option Byte :=
  if c.toNat < 128 then some (BitVec.ofNat 8 c.toNat) else none

/-- WRITE's operand: a character literal or a number (R76). -/
def parseByte : List Char → Option Byte
  | ['\'', c, '\''] => asciiByte c
  | cs => parseValue 8 cs

/-- The characters of a quoted text after its opening quote, up to the closing quote that ends the line. -/
def parseQuoted : List Char → Option (List Byte)
  | [] => none
  | '"' :: rest => if rest = [] then some [] else none
  | c :: rest =>
    match asciiByte c, parseQuoted rest with
    | some b, some bs => some (b :: bs)
    | _, _ => none

/-- WRITES' operand, with the terminator of R86 after it. -/
def parseText : List Char → Option (List Byte)
  | '"' :: rest => (parseQuoted rest).map (· ++ [0])
  | _ => none

/-- An operation without operand: nothing follows its mnemonic. -/
def noOperand (i : Instr) (rest : List Char) : Option Instr := if rest = [] then some i else none

/-- The foreground operation a line spells (R76): the mnemonic, then its operand if it has one. -/
def assemble (line : List Char) : Option Instr :=
  let start := line.dropWhile (· = ' ')
  let mnemonic := start.takeWhile (· ≠ ' ')
  let rest := (start.dropWhile (· ≠ ' ')).dropWhile (· = ' ')
  if mnemonic = ['I', 'N', 'I', 'T'] then (parseValue 16 rest).map .init
  else if mnemonic = ['R', 'E', 'A', 'D'] then noOperand .read rest
  else if mnemonic = ['W', 'R', 'I', 'T', 'E'] then (parseByte rest).map .write
  else if mnemonic = ['S', 'E', 'I'] then noOperand .sei rest
  else if mnemonic = ['C', 'L', 'I'] then noOperand .cli rest
  else if mnemonic = ['W', 'R', 'I', 'T', 'E', 'S'] then (parseText rest).map .writes
  else none

/-- The command words of a line (R74, R86). -/
def assembleWords (line : List Char) : Option (List Word) := (assemble line).map encode

end Sys2Proof.Machine
end

