-- ==== Sys2Proof/Safety.lean ====
section
/-! DEFINITION. The terms claims about the core use: what a buffer holds, the invariant of reachable states
(10_state.md R22, R24, R43, R44), which agents are enabled (60_exceptions.md R203), runs, their fairness (R209) and
their end (R226). -/

namespace Sys2Proof.Machine

/-! ### What a buffer holds -/

/-- The bytes stored and not yet consumed, oldest first: slots `tail + 1` to `head`, going round (R22). -/
def State.contents (s : State) (B : BufId) : List Byte :=
  (List.range (s.count B)).map fun k => s.slot B (s.nextIdx B ((s.ring B).tail + k))

/-- An operation on a buffer (R107). -/
inductive QueueOp
  | push (v : Byte)
  | pop
deriving DecidableEq, Repr

/-- The operations run on buffer `B` of the machine: the bytes popped, in order, and the state left. -/
def runRing (B : BufId) : List QueueOp → State → Except Fault (List Byte × State)
  | [], s => .ok ([], s)
  | .push v :: ops, s =>
    match s.push B v with
    | .ok t => runRing B ops t
    | .error r => .error r
  | .pop :: ops, s =>
    match s.pop B with
    | .ok (b, t) =>
      match runRing B ops t with
      | .ok (bs, u) => .ok (b :: bs, u)
      | .error r => .error r
    | .error r => .error r

/-- The same operations on a plain queue of at most `room` bytes: `none` where an operation overfills it or pops it
empty (R107's preconditions). -/
def runQueue (room : Nat) : List QueueOp → List Byte → Option (List Byte × List Byte)
  | [], q => some ([], q)
  | .push v :: ops, q => if q.length < room then runQueue room ops (q ++ [v]) else none
  | .pop :: _, [] => none
  | .pop :: ops, b :: q =>
    match runQueue room ops q with
    | some (bs, q') => some (b :: bs, q')
    | none => none

/-! ### The invariant -/

/-- Both indices in range (R21, R43), storage in canonical form and inside the buffer (R50). -/
def State.ringOk (s : State) (B : BufId) : Bool :=
  decide ((s.ring B).head < s.cfg.capacity B) && decide ((s.ring B).tail < s.cfg.capacity B)
    && Memory.wf (s.cfg.capacity B) (s.ring B).storage

/-- Every slot that holds a live byte has been written (R22, R41). -/
def State.liveWritten (s : State) (B : BufId) : Bool :=
  (List.range (s.count B)).all fun k =>
    (Memory.get? (s.ring B).storage (s.nextIdx B ((s.ring B).tail + k))).isSome

/-- Bits 7:5 and 0 of the accumulator are 0 (R24, R80). -/
def State.lastErrorOk (s : State) : Bool := s.lastError &&& lastErrorZeroMask == 0

/-- What the phase says of the rest: a command in progress was issued after INIT (R216); READ past R1 has a byte to
consume, and past R2 carries the byte at its new tail (R163); WRITE past W1 carries the free slot after the head
(R173), past W2 the slot holds the byte (R62), past W3 it is the head. -/
def State.phaseOk (s : State) : Bool :=
  match s.phase with
  | .idle => true
  | .r1 => s.initialised
  | .r2 => s.initialised && !s.isEmpty .rx
  | .r3 b n => s.initialised && n == s.rx.tail && Memory.get? s.rx.storage n == some b
  | .w1 _ => s.initialised
  | .w2 _ n => s.initialised && n == s.nextHead .tx && !s.isFull .tx
  | .w3 b n => s.initialised && n == s.nextHead .tx && !s.isFull .tx && Memory.get? s.tx.storage n == some b
  | .w4 _ n => s.initialised && n == s.tx.head

/-- WRITE stands between publishing a byte and enabling the transmit interrupt (R170). -/
def Phase.publishing : Phase → Bool
  | .w4 _ _ => true
  | _ => false

/-- While the transmit buffer holds a byte, the transmit interrupt is enabled, or WRITE is about to enable it (R44). -/
def State.txieOk (s : State) : Bool := s.isEmpty .tx || s.txie || s.phase.publishing

/-- The enables INIT sets are set exactly when INIT has run, and nothing enables the transmit interrupt before
(R27, R29, R193). -/
def State.enablesOk (s : State) : Bool :=
  s.rxen == s.initialised && s.txen == s.initialised && s.rxie == s.initialised && (!s.txie || s.initialised)

/-- A byte is held only with the receiver enabled (R120). -/
def State.holdOk (s : State) : Bool := s.rxHold.isNone || s.rxen

/-- The transmitter is busy only with a byte it was handed (R32, R143). -/
def State.sentOk (s : State) : Bool := s.txReady || !s.lineOut.isEmpty

/-- The fault no reachable state raises (R218). -/
def State.faultOk (s : State) : Bool := s.fault != some .indexOutOfRange

/-- The invariant of the reachable states. -/
abbrev State.Inv (s : State) : Prop :=
  s.ringOk .rx = true ∧ s.ringOk .tx = true ∧ s.liveWritten .rx = true ∧ s.liveWritten .tx = true
    ∧ s.lastErrorOk = true ∧ s.phaseOk = true ∧ s.txieOk = true ∧ s.enablesOk = true ∧ s.holdOk = true
    ∧ s.sentOk = true ∧ s.faultOk = true

/-! ### Agents and runs -/

/-- The agents that take steps (R10); the HOST's commands are issued by FG (R72, R201). -/
inductive Agent
  | fg
  | rxh
  | txh
  | line
  | xmit
deriving DecidableEq, Repr

/-- The agent whose turn it is. -/
def Turn.agent : Turn → Agent
  | .fg => .fg
  | .event .rxh => .rxh
  | .event .txh => .txh
  | .event (.line _ _) => .line
  | .event .xmit => .xmit

/-- The agent has a step to take (R200, R203); a recorded fault disables all (R215). -/
def State.enabled (s : State) (a : Agent) : Bool :=
  s.fault.isNone &&
    match a with
    | .fg => s.fgEnabled
    | .rxh => s.rxhEnabled
    | .txh => s.txhEnabled
    | .line => s.lineEnabled
    | .xmit => s.xmitEnabled

/-- The state is reached from power-on with some program and some schedule (R200). -/
def State.Reachable (c : Config) (t : State) : Prop :=
  ∃ program turns n, Host.Core.run core n ((State.powerOn c).load program turns) = .next t

/-- An infinite run (R200). -/
def IsRun (σ : Nat → State) : Prop := ∀ n, step (σ n) = .next (σ (n + 1))

/-- Weak fairness (R209): every agent but LINE that stays enabled is eventually taken. -/
def WeaklyFair (σ : Nat → State) : Prop :=
  ∀ a, a ≠ Agent.line → ∀ n, (∀ m, n ≤ m → (σ m).enabled a = true) → ∃ m, n ≤ m ∧ Turn.agent (σ m).nextTurn = a

/-- A run has ended (R226): every command issued and returned, no fault, and no agent but LINE enabled. -/
def State.ended (s : State) : Bool :=
  s.fault.isNone && !s.fgEnabled && !s.rxhEnabled && !s.txhEnabled && !s.xmitEnabled

/-- The outcome with the given change made to the next state, if there is one. -/
def mapNext (f : State → State) : Host.Outcome State Fault Refusal → Host.Outcome State Fault Refusal
  | .next t => .next (f t)
  | .fault r => .fault r
  | .refused r => .refused r

/-- `n` turns of FG. -/
def fgTurns (n : Nat) : List Turn := List.replicate n .fg

/-- Bytes delivered one by one, each handled at once: LINE then RXH for every (byte, status) pair (R129). -/
def deliveries (ds : List (Byte × Byte)) : List Turn :=
  ds.flatMap fun d => [.event (.line d.1 d.2), .event .rxh]

end Sys2Proof.Machine
end

