-- ==== Sys2Proof/Certificates/Slice0/Obligations.lean ====
section
/-! DEFINITION. The statements about the core, each from the spec's rules. `Host.Core.run Sys2Proof.core n s` is `n`
steps of the machine from `s`; "log n" is notes/assumptions/n.md. -/

open Sys2Proof Sys2Proof.Machine

/-! ### Reset and the invariant -/

/-- 10_state.md R39, R40: the indices and the accumulator after power-on, for every configuration. -/
def Obligations.PowerOnIndicesAndAccumulator : Prop :=
  ∀ c : Config, (State.powerOn c).rx.head = 0 ∧ (State.powerOn c).rx.tail = 0
    ∧ (State.powerOn c).tx.head = 0 ∧ (State.powerOn c).tx.tail = 0
    ∧ (State.powerOn c).isEmpty .rx = true ∧ (State.powerOn c).isEmpty .tx = true
    ∧ (State.powerOn c).lastError = 0

/-- 10_state.md R42: the control bits, the hardware-side state, the observations and FG after power-on, for every
configuration. -/
def Obligations.PowerOnControlState : Prop :=
  ∀ c : Config, (State.powerOn c).rxen = false ∧ (State.powerOn c).txen = false ∧ (State.powerOn c).rxie = false
    ∧ (State.powerOn c).txie = false ∧ (State.powerOn c).initialised = false ∧ (State.powerOn c).gie = false
    ∧ (State.powerOn c).rxHold = none ∧ (State.powerOn c).txReady = true ∧ (State.powerOn c).lineOut = []
    ∧ (State.powerOn c).results = [] ∧ (State.powerOn c).fault = none ∧ (State.powerOn c).phase = .idle

/-- The invariant holds after power-on, whatever the configuration, the program and the schedule (10_state.md section 9). -/
def Obligations.PowerOnMeetsInvariant : Prop :=
  State.reset.Inv ∧ ∀ (c : Config) (program : List Word) (turns : List Turn),
    ((State.powerOn c).load program turns).Inv

/-- Every step keeps the invariant (10_state.md section 9; R22, R24, R43, R44). -/
def Obligations.StepKeepsInvariant : Prop :=
  ∀ s t : State, s.Inv → step s = .next t → t.Inv

/-- 10_state.md section 9: in every reachable state the indices are in range, at most N - 1 bytes are stored, and a
WRITE that spins on a full buffer has the transmit interrupt enabled. -/
def Obligations.ReachableStatesAreInRange : Prop :=
  ∀ (c : Config) (t : State), State.Reachable c t →
    (∀ B, (t.ring B).head < c.capacity B ∧ (t.ring B).tail < c.capacity B ∧ t.count B ≤ c.capacity B - 1)
    ∧ (∀ b, t.phase = .w1 b → t.isFull .tx = true → t.txie = true)

/-! ### Encodings -/

/-- Decode and encode agree on every operation, with every operand (30_encoding.md sections 2, 3 and 8): the words of
an operation decode to what it stands for, and a word that decodes is the word of its operation. -/
def Obligations.DecodeEncodeAgree : Prop :=
  (∀ i : Instr, i.wf = true → (encode i).map decodeWord = (expand i).map .ok)
  ∧ (∀ (w : Word) (i : Instr), decodeWord w = .ok i → encode i = [w])

/-- 30_encoding.md R74: the decoder, in terms of shifts and masks of the word, and its inverse. -/
def Obligations.CommandDecoderFollowsTable : Prop :=
  (∀ w : Word, (decodeCommand w).toOption =
    if (w >>> 16) &&& 0xFFF ≠ 0 then none
    else if w >>> 28 = 1 then some (.init (w.setWidth 16))
    else if w >>> 28 = 2 then (if w &&& 0xFFFF = 0 then some .read else none)
    else if w >>> 28 = 3 then (if (w >>> 8) &&& 0xFF = 0 then some (.write (w.setWidth 8)) else none)
    else if w >>> 28 = 4 then (if w &&& 0xFFFF = 0 then some .sei else none)
    else if w >>> 28 = 5 then (if w &&& 0xFFFF = 0 then some .cli else none)
    else none)
  ∧ (∀ sel : Half, encode (.init sel) = [0x10000000 ||| sel.setWidth 32])
  ∧ encode .read = [0x20000000]
  ∧ (∀ b : Byte, encode (.write b) = [0x30000000 ||| b.setWidth 32])
  ∧ encode .sei = [0x40000000] ∧ encode .cli = [0x50000000]
  ∧ (∀ sel : Half, decodeCommand (0x10000000 ||| sel.setWidth 32) = .ok (.init sel))
  ∧ decodeCommand 0x20000000 = .ok .read
  ∧ (∀ b : Byte, decodeCommand (0x30000000 ||| b.setWidth 32) = .ok (.write b))
  ∧ decodeCommand 0x40000000 = .ok .sei ∧ decodeCommand 0x50000000 = .ok .cli

/-- Words written out from R72, R73 and R77 decode to what they stand for (95_test_vectors.md section 2.2). -/
def Obligations.SampleWordsDecode : Prop :=
  decodeWord 0x10008019 = .ok (.init 0x8019) ∧ decodeWord 0x20000000 = .ok .read
  ∧ decodeWord 0x300000FF = .ok (.write 0xFF) ∧ decodeWord 0x40000000 = .ok .sei
  ∧ decodeWord 0x50000000 = .ok .cli ∧ decodeWord 0x80000000 = .ok .rxh ∧ decodeWord 0x90000000 = .ok .txh
  ∧ decodeWord 0xA000E330 = .ok (.line 0x30 0xE3) ∧ decodeWord 0xB0000000 = .ok .xmit
  ∧ encode (.writes [0x41, 0x42, 0]) = [0x30000041, 0x30000042]

/-- 30_encoding.md R75, 60_exceptions.md R217: which words spell no command, and that issuing one raises
IllegalCommand and changes nothing else. -/
def Obligations.IllegalWordsFault : Prop :=
  (∀ w : Word, (decodeCommand w).toOption = none ↔
    ((w >>> 28 = 0 ∨ 6 ≤ (w >>> 28).toNat) ∨ (w >>> 16) &&& 0xFFF ≠ 0
      ∨ ((w >>> 28 = 2 ∨ w >>> 28 = 4 ∨ w >>> 28 = 5) ∧ w &&& 0xFFFF ≠ 0)
      ∨ (w >>> 28 = 3 ∧ (w >>> 8) &&& 0xFF ≠ 0)))
  ∧ (∀ (s : State) (w : Word) (ws : List Word), s.fault = none → s.nextTurn = .fg → s.phase = .idle →
      s.program = w :: ws → (decodeCommand w).toOption = none →
      step s = .next { s with fault := some .illegalCommand })

/-- 30_encoding.md R78, R79: the result word's fields, with an accumulator whose always-zero bits are 0; READ returns
that word with a byte, and NoData, which reports no flag, on an empty buffer. -/
def Obligations.ResultWordLayout : Prop :=
  (∀ e b : Byte, e &&& 0xE1 = 0 →
    resultWord e b = (e.setWidth 16 <<< 8) ||| b.setWidth 16
    ∧ (resultWord e b) >>> 13 = 0
    ∧ (resultWord e b).getLsbD 12 = e.getLsbD 4 ∧ (resultWord e b).getLsbD 11 = e.getLsbD 3
    ∧ (resultWord e b).getLsbD 10 = e.getLsbD 2 ∧ (resultWord e b).getLsbD 9 = e.getLsbD 1
    ∧ (resultWord e b).getLsbD 8 = false ∧ (resultWord e b).setWidth 8 = b
    ∧ resultValue (resultWord e b) = some (b, e))
  ∧ noData = 0x0100 ∧ noData.getLsbD 8 = true ∧ resultValue noData = none
  ∧ (∀ (s : State) (b : Byte) (n : Nat), s.phase = .r3 b n → ∃ t, exec .read s = .next t
      ∧ t.results = s.results ++ [resultWord s.lastError b])
  ∧ (∀ s : State, s.phase = .r1 → s.isEmpty .rx = true → ∃ t, exec .read s = .next t
      ∧ t.results = s.results ++ [noData])

/-- 30_encoding.md R82: the error bits of a line status are its bits 4, 3 and 2, and no other bit gets through: RXH
does the same with the other bits cleared. -/
def Obligations.LineStatusExtraction : Prop :=
  ∀ status : Byte, lastErrorCandidate status = status &&& 0x1C
    ∧ (∀ j, (lastErrorCandidate status).getLsbD j = (status.getLsbD j && (j == 2 || j == 3 || j == 4)))
    ∧ (∀ (s : State) (b : Byte), s.gie = true → s.rxie = true → ∃ t,
        exec .rxh { s with rxHold := some (b, status) } = .next t
        ∧ exec .rxh { s with rxHold := some (b, status &&& 0x1C) } = .next t)

/-- 30_encoding.md R83: the baud selector is its top bit and a 15-bit divisor, and INIT decodes it so. -/
def Obligations.BaudSelectorSplits : Prop :=
  ∀ sel : Half, selHighSpeed sel = sel.getLsbD 15 ∧ (selBaudDiv sel).toNat = sel.toNat % 2 ^ 15
    ∧ sel.toNat = (if selHighSpeed sel then 2 ^ 15 else 0) + (selBaudDiv sel).toNat
    ∧ (∀ s : State, s.phase = .idle → s.gie = false → ∃ t, exec (.init sel) s = .next t
        ∧ t.highSpeed = selHighSpeed sel ∧ t.baudDiv = selBaudDiv sel)

/-- 30_encoding.md sections 2 and 8 (R76, R86): a character literal is its code, and a quoted text without NUL is one
WRITE word for each character, in order. The spaces of the text form are the model's choice (log 10). -/
def Obligations.AssemblerSpellsText : Prop :=
  (∀ c : Char, c.toNat < 128 →
    assembleWords ['W', 'R', 'I', 'T', 'E', ' ', '\'', c, '\''] = some [0x30000000 ||| BitVec.ofNat 32 c.toNat])
  ∧ (∀ cs : List Char, (∀ c ∈ cs, 0 < c.toNat ∧ c.toNat < 128 ∧ c ≠ '"') →
    assembleWords (['W', 'R', 'I', 'T', 'E', 'S', ' ', '"'] ++ cs ++ ['"'])
      = some (cs.map fun c => 0x30000000 ||| BitVec.ofNat 32 c.toNat))

/-! ### One step of the machine -/

/-- 60_exceptions.md section 1: a step is one atomic step of the agent whose turn it is. An event's turn runs the
event, FG's turn runs the command in progress, or the command its next word decodes to, or nothing; a step that
records a fault changes nothing else (section 5). The schedule is the model's own (log 1). -/
def Obligations.StepRunsTheDecodedInstruction : Prop :=
  ∀ s : State, s.fault = none →
    (∀ t ts, s.turns = t :: ts → s.nextTurn = t ∧ s.takeTurn = { s with turns := ts })
    ∧ (s.turns = [] → s.nextTurn = Config.freeTurn s.tick ∧ s.takeTurn = { s with tick := s.tick + 1 })
    ∧ (∀ (i : Instr) (u v : State),
        ((∃ e : Event, s.nextTurn = .event e ∧ i = e.instr ∧ u = s.takeTurn)
          ∨ (s.nextTurn = .fg ∧ s.phase.command? = some i ∧ u = s.takeTurn)
          ∨ (∃ w ws, s.nextTurn = .fg ∧ s.phase = .idle ∧ s.program = w :: ws ∧ decodeCommand w = .ok i
              ∧ u = { s.takeTurn with program := ws })) →
        exec i u = .next v →
        (v.fault = none → step s = .next v) ∧ (∀ r, v.fault = some r → step s = .next { s with fault := some r }))
    ∧ (s.nextTurn = .fg → s.phase = .idle → s.program = [] → step s = .next s.takeTurn)

/-- Placing a table word makes the next step run it (30_encoding.md sections 2 and 3). How a word is placed is the
model's choice (log 8). -/
def Obligations.PlacedWordRunsNext : Prop :=
  ∀ (s v : State) (nbits w : Nat), s.fault = none →
    (∀ e, decodeEvent (tableWord nbits w) = .ok e → exec e.instr s = .next v → v.fault = none →
      step (s.withFetchWord nbits w) = .next v)
    ∧ (∀ i, decodeCommand (tableWord nbits w) = .ok i → exec i { s with phase := .idle } = .next v → v.fault = none →
      step (s.withFetchWord nbits w) = .next v)

/-- A turn of a handler, LINE or XMIT that is not enabled leaves the core as it is. That such a turn passes instead of
never being offered is the model's choice (log 2; 60_exceptions.md section 2, 95_test_vectors.md sections 2.3 to 2.5). -/
def Obligations.TurnsNotEnabledPass : Prop :=
  ∀ s : State,
    (¬(s.gie = true ∧ s.rxie = true ∧ s.rxHold ≠ none) → exec .rxh s = .next s)
    ∧ (¬(s.gie = true ∧ s.txen = true ∧ s.txie = true ∧ s.txReady = true) → exec .txh s = .next s)
    ∧ (∀ b status, ¬(s.rxen = true ∧ s.rxHold = none) → exec (.line b status) s = .next s)
    ∧ (s.txReady = true → exec .xmit s = .next s)

/-! ### Configuration and circular buffer -/

/-- 00_scope.md R12: a capacity that is not a power of two, or is 1, is refused at construction. Beside it, what is
well formed (70_reset_and_hazards.md section 2, item 1) is built as given. -/
def Obligations.IllFormedConfigurationsAreRefused : Prop :=
  ∀ (nRx nTx idxW : Nat) (m : List (String × Nat)),
    (((¬∃ k, nRx = 2 ^ k) ∨ (¬∃ k, nTx = 2 ^ k) ∨ nRx = 1 ∨ nTx = 1) → Config.make? nRx nTx idxW m = none)
    ∧ (∀ j k, nRx = 2 ^ (j + 1) → nTx = 2 ^ (k + 1) → nRx ≤ 2 ^ idxW → nTx ≤ 2 ^ idxW →
        ∃ c, Config.make? nRx nTx idxW m = some c ∧ c.nRx = nRx ∧ c.nTx = nTx ∧ c.idxW = idxW ∧ c.platformMap = m)

/-- 40_circular_buffer.md R100: every capacity is a power of two and at least 2, the mask has its low bits set, and
indices are masked, which is the remainder. -/
def Obligations.CapacityAndMask : Prop :=
  ∀ (c : Config) (B : BufId), ∃ k, c.capacity B = 2 ^ k ∧ 2 ≤ c.capacity B ∧ c.mask B = c.capacity B - 1
    ∧ (∀ j, (c.mask B).testBit j = decide (j < k)) ∧ (∀ i, i &&& c.mask B = i % c.capacity B)

/-- Ring increment (40_circular_buffer.md, the rule the spec derives from R100): in range, the remainder, the wrap, and
the same at width IDX_W before masking. -/
def Obligations.RingIncrementWraps : Prop :=
  ∀ (s : State) (B : BufId) (i : Nat), i < s.cfg.capacity B →
    s.nextIdx B i = (i + 1) &&& (s.cfg.capacity B - 1)
    ∧ s.nextIdx B i < s.cfg.capacity B ∧ s.nextIdx B i = (i + 1) % s.cfg.capacity B
    ∧ s.nextIdx B i = ((i + 1) % 2 ^ s.cfg.idxW) &&& (s.cfg.capacity B - 1)
    ∧ s.nextIdx B (s.cfg.capacity B - 1) = 0

/-- Empty, full and occupancy (40_circular_buffer.md, the rules the spec derives): empty exactly at count 0, full
exactly at count N - 1, and no more than that is ever counted. -/
def Obligations.EmptyAndFullByCount : Prop :=
  ∀ (s : State) (B : BufId), (s.ring B).head < s.cfg.capacity B → (s.ring B).tail < s.cfg.capacity B →
    (s.isEmpty B = true ↔ s.count B = 0) ∧ (s.isFull B = true ↔ s.count B = s.cfg.capacity B - 1)
    ∧ s.count B ≤ s.cfg.capacity B - 1
    ∧ (s.count B : Int) % s.cfg.capacity B = ((s.ring B).head - (s.ring B).tail : Int) % s.cfg.capacity B

/-- 40_circular_buffer.md R102: BufInit moves the tail to the head, touches nothing else, and leaves no byte. -/
def Obligations.BufInitForcesEmpty : Prop :=
  ∀ s : State, s.bufInit .rx = { s with rx := { s.rx with tail := s.rx.head } }
    ∧ s.bufInit .tx = { s with tx := { s.tx with tail := s.tx.head } }
    ∧ (∀ B, (s.bufInit B).isEmpty B = true ∧ ((s.ring B).head < s.cfg.capacity B → (s.bufInit B).contents B = []))

/-- 20_memory.md R51, R52: MemRead and MemWrite. -/
def Obligations.StorageReadsAndWrites : Prop :=
  ∀ (s : State) (B : BufId) (i : Nat) (v : Byte),
    (s.cfg.capacity B ≤ i → s.memRead B i = .error .indexOutOfRange ∧ s.memWrite B i v = .error .indexOutOfRange)
    ∧ (i < s.cfg.capacity B → s.memRead B i = .ok (s.slot B i)
      ∧ ∃ t, s.memWrite B i v = .ok t ∧ t.memRead B i = .ok v
        ∧ (∀ C a, ¬(C = B ∧ a = i) → t.slot C a = s.slot C a)
        ∧ t = s.setRing B { s.ring B with storage := (t.ring B).storage }
        ∧ (s.ringOk B = true → t.ringOk B = true))

/-- First in, first out, with wraparound (40_circular_buffer.md, source examples E1 and E2): any sequence of pushes and
pops that keeps at most N - 1 bytes outstanding gives the bytes a plain queue gives, and never leaves the buffer. -/
def Obligations.RingRefinesQueue : Prop :=
  ∀ (B : BufId) (ops : List QueueOp) (s : State) (out left : List Byte), s.ringOk B = true →
    runQueue (s.cfg.capacity B - 1) ops (s.contents B) = some (out, left) →
    ∃ t, runRing B ops s = .ok (out, t) ∧ t.contents B = left ∧ t.ringOk B = true

/-! ### Receive path -/

/-- 41_receive_path.md R120: LINE, its word, and when a byte is delivered. -/
def Obligations.LineDelivers : Prop :=
  ∀ (s : State) (b status : Byte),
    (s.rxen = true → s.rxHold = none → exec (.line b status) s = .next { s with rxHold := some (b, status) })
    ∧ (s.rxen = false ∨ s.rxHold ≠ none → ∀ t, exec (.line b status) s = .next t → t.rxHold = s.rxHold)
    ∧ decodeEvent (0xA0000000 ||| (status.setWidth 32 <<< 8) ||| b.setWidth 32) = .ok (.line b status)

/-- 41_receive_path.md R123: RXH, its word, when it runs, and the state it leaves with and without room. -/
def Obligations.ReceiveHandlerStoresOrDrops : Prop :=
  ∀ (s : State) (b status : Byte),
    (s.gie = true → s.rxie = true → s.rxHold = some (b, status) →
      ((s.rx.head + 1) &&& (s.cfg.nRx - 1) = s.rx.tail →
        exec .rxh s = .next { s with rxHold := none, lastError := s.lastError ||| ((status &&& 0x1C) ||| 0x02) })
      ∧ ((s.rx.head + 1) &&& (s.cfg.nRx - 1) ≠ s.rx.tail →
        exec .rxh s = .next { s with
          rxHold := none
          rx := { head := (s.rx.head + 1) &&& (s.cfg.nRx - 1), tail := s.rx.tail,
                  storage := Memory.set s.rx.storage ((s.rx.head + 1) &&& (s.cfg.nRx - 1)) b }
          lastError := s.lastError ||| (status &&& 0x1C) }))
    ∧ (s.gie = false ∨ s.rxie = false ∨ s.rxHold = none → ∀ t, exec .rxh s = .next t →
        t.rx = s.rx ∧ t.rxHold = s.rxHold ∧ t.lastError = s.lastError)
    ∧ decodeEvent 0x80000000 = .ok .rxh

/-- The overflow law (41_receive_path.md, the rule the spec derives; source examples E3 and E6): of bytes delivered and
handled one by one into an empty buffer, exactly the first N - 1 are kept, in order; every byte's error bits are
accumulated, and the overflow bit with every byte dropped. -/
def Obligations.OverflowKeepsTheFirstBytes : Prop :=
  ∀ (s : State) (ds : List (Byte × Byte)) (ts : List Turn), s.fault = none → s.ringOk .rx = true →
    s.isEmpty .rx = true → s.rxen = true → s.rxie = true → s.gie = true → s.rxHold = none →
    s.turns = deliveries ds ++ ts →
    ∃ t, Host.Core.run Sys2Proof.core (2 * ds.length) s = .next t
      ∧ t.contents .rx = (ds.map Prod.fst).take (s.cfg.nRx - 1)
      ∧ t.lastError = ((ds.drop (s.cfg.nRx - 1)).map fun d => (d.2 &&& 0x1C) ||| 0x02).foldl (· ||| ·)
          (((ds.take (s.cfg.nRx - 1)).map fun d => d.2 &&& 0x1C).foldl (· ||| ·) s.lastError)
      ∧ t = { s with rx := { t.rx with tail := s.rx.tail }, lastError := t.lastError, turns := ts }

/-- Receive stream order (20_memory.md section 4): a step leaves the bytes waiting in the receive buffer, or RXH appends
the held byte, or READ's phase R2 takes the first, or INIT empties the buffer. -/
def Obligations.ReceiveStreamIsFifo : Prop :=
  ∀ s t : State, s.Inv → step s = .next t →
    t.contents .rx = s.contents .rx
    ∨ (∃ b status, s.nextTurn = .event .rxh ∧ s.rxHold = some (b, status) ∧ s.isFull .rx = false
        ∧ t.contents .rx = s.contents .rx ++ [b] ∧ t.rxHold = none)
    ∨ (∃ b n, s.nextTurn = .fg ∧ s.phase = .r2 ∧ s.contents .rx = b :: t.contents .rx ∧ t.phase = .r3 b n)
    ∨ (∃ w ws sel, s.nextTurn = .fg ∧ s.phase = .idle ∧ s.program = w :: ws ∧ decodeCommand w = .ok (.init sel)
        ∧ s.gie = false ∧ t.contents .rx = [])

/-- 10_state.md R25: the accumulator is written only by RXH and only by OR; no step clears a bit of it. -/
def Obligations.AccumulatorOnlyGrows : Prop :=
  ∀ s t : State, step s = .next t →
    s.lastError &&& ~~~t.lastError = 0
    ∧ (t.lastError ≠ s.lastError → s.nextTurn = .event .rxh ∧ s.rxhEnabled = true)

/-! ### Transmit path -/

/-- 42_transmit_path.md R141, R142: TXH, its word, when it runs, and the state it leaves on an empty buffer and on one
that holds a byte. -/
def Obligations.TransmitHandlerSendsOrDisables : Prop :=
  ∀ s : State,
    (s.gie = true → s.txen = true → s.txie = true → s.txReady = true →
      (s.tx.head = s.tx.tail → exec .txh s = .next { s with txie := false })
      ∧ (s.tx.head ≠ s.tx.tail →
        exec .txh s = .next { s with
          tx := { s.tx with tail := (s.tx.tail + 1) &&& (s.cfg.nTx - 1) }
          lineOut := s.lineOut ++ [s.slot .tx ((s.tx.tail + 1) &&& (s.cfg.nTx - 1))]
          txReady := false }))
    ∧ (s.gie = false ∨ s.txen = false ∨ s.txie = false ∨ s.txReady = false → ∀ t, exec .txh s = .next t →
        t.tx = s.tx ∧ t.txie = s.txie ∧ t.lineOut = s.lineOut ∧ t.txReady = s.txReady)
    ∧ decodeEvent 0x90000000 = .ok .txh

/-- 42_transmit_path.md R146: XMIT, its word, when it runs, and what it changes. -/
def Obligations.TransmitterBecomesReady : Prop :=
  (∀ s : State, s.txReady = false → exec .xmit s = .next { s with txReady := true })
  ∧ (∀ s t : State, s.txReady = true → exec .xmit s = .next t → t.txReady = true ∧ t.fault = s.fault)
  ∧ decodeEvent 0xB0000000 = .ok .xmit

/-- Transmit stream order (20_memory.md section 4, 42_transmit_path.md): bytes sent and bytes waiting together change
only when WRITE publishes a byte at their end or INIT discards those waiting; nothing sent is taken back. -/
def Obligations.TransmitStreamIsFifo : Prop :=
  ∀ s t : State, s.Inv → step s = .next t →
    s.lineOut <+: t.lineOut
    ∧ (t.lineOut ++ t.contents .tx = s.lineOut ++ s.contents .tx
      ∨ (∃ b n, s.nextTurn = .fg ∧ s.phase = .w3 b n ∧ t.lineOut = s.lineOut
          ∧ t.contents .tx = s.contents .tx ++ [b])
      ∨ (∃ w ws sel, s.nextTurn = .fg ∧ s.phase = .idle ∧ s.program = w :: ws ∧ decodeCommand w = .ok (.init sel)
          ∧ s.gie = false ∧ t.lineOut = s.lineOut ∧ t.contents .tx = []))

/-! ### READ -/

/-- 43_foreground_api.md R162: READ's word and its micro-steps, one by one. -/
def Obligations.ReadMicroSteps : Prop :=
  decodeCommand 0x20000000 = .ok .read
  ∧ (∀ w : Word, w >>> 28 = 2 → w ≠ 0x20000000 → (decodeCommand w).toOption = none)
  ∧ ∀ s : State,
    (s.phase = .idle → s.initialised = false → exec .read s = .next { s with fault := some .notInitialised })
    ∧ (s.phase = .idle → s.initialised = true → exec .read s = .next { s with phase := .r1 })
    ∧ (s.phase = .r1 → s.rx.head = s.rx.tail →
        exec .read s = .next { s with results := s.results ++ [0x0100], phase := .idle })
    ∧ (s.phase = .r1 → s.rx.head ≠ s.rx.tail → exec .read s = .next { s with phase := .r2 })
    ∧ (s.phase = .r2 → exec .read s = .next { s with
        rx := { s.rx with tail := (s.rx.tail + 1) &&& (s.cfg.nRx - 1) }
        phase := .r3 (s.slot .rx ((s.rx.tail + 1) &&& (s.cfg.nRx - 1))) ((s.rx.tail + 1) &&& (s.cfg.nRx - 1)) })
    ∧ (∀ b n, s.phase = .r3 b n → exec .read s = .next { s with
        results := s.results ++ [(s.lastError.setWidth 16 <<< 8) ||| b.setWidth 16], phase := .idle })

/-- A READ that finds a byte and is not preempted (43_foreground_api.md section 1): four FG turns give the oldest byte
with the accumulator, move the tail, and change nothing else. -/
def Obligations.ReadReturnsTheOldestByte : Prop :=
  ∀ (s : State) (ws : List Word) (ts : List Turn), s.fault = none → s.phase = .idle → s.initialised = true →
    s.rx.head ≠ s.rx.tail → s.program = 0x20000000 :: ws → s.turns = fgTurns 4 ++ ts →
    Host.Core.run Sys2Proof.core 4 s = .next { s with
      rx := { s.rx with tail := (s.rx.tail + 1) &&& (s.cfg.nRx - 1) }
      results := s.results ++ [(s.lastError.setWidth 16 <<< 8)
        ||| (s.slot .rx ((s.rx.tail + 1) &&& (s.cfg.nRx - 1))).setWidth 16]
      program := ws
      turns := ts }

/-- 43_foreground_api.md R161: a READ of an empty buffer returns NoData and writes nothing but its result. -/
def Obligations.ReadOfEmptyReturnsNoData : Prop :=
  ∀ (s : State) (ws : List Word) (ts : List Turn), s.fault = none → s.phase = .idle → s.initialised = true →
    s.rx.head = s.rx.tail → s.program = 0x20000000 :: ws → s.turns = fgTurns 2 ++ ts →
    Host.Core.run Sys2Proof.core 2 s = .next { s with results := s.results ++ [0x0100], program := ws, turns := ts }

/-- Polling (43_foreground_api.md section 1): any number of READs of an empty buffer with interrupts off returns NoData
each time, whatever turns of other agents come in between, and changes nothing of the receive buffer or the flags. -/
def Obligations.PollingAnEmptyBuffer : Prop :=
  ∀ (n : Nat) (s : State) (ws : List Word), s.fault = none → s.phase = .idle → s.initialised = true →
    s.rx.head = s.rx.tail → s.gie = false → s.program = List.replicate n 0x20000000 ++ ws →
    s.turns.count .fg = 2 * n →
    ∃ t, Host.Core.run Sys2Proof.core s.turns.length s = .next t
      ∧ t.results = s.results ++ List.replicate n 0x0100 ∧ t.rx = s.rx ∧ t.program = ws ∧ t.phase = .idle
      ∧ t.lastError = s.lastError ∧ t.fault = none

/-! ### WRITE and WRITES -/

/-- 43_foreground_api.md R170: WRITE's word and its micro-steps, one by one. The spin of W1 changes nothing (R13, and
95_test_vectors.md section 2.7). -/
def Obligations.WriteMicroSteps : Prop :=
  (∀ w : Word, w >>> 28 = 3 → (w >>> 8) &&& 0xFFFFF ≠ 0 → (decodeCommand w).toOption = none)
  ∧ ∀ (s : State) (b : Byte),
    decodeCommand (0x30000000 ||| b.setWidth 32) = .ok (.write b)
    ∧ (s.phase = .idle → s.initialised = false → exec (.write b) s = .next { s with fault := some .notInitialised })
    ∧ (s.phase = .idle → s.initialised = true → exec (.write b) s = .next { s with phase := .w1 b })
    ∧ (s.phase = .w1 b → (s.tx.head + 1) &&& (s.cfg.nTx - 1) = s.tx.tail → exec (.write b) s = .next s)
    ∧ (s.phase = .w1 b → (s.tx.head + 1) &&& (s.cfg.nTx - 1) ≠ s.tx.tail →
        exec (.write b) s = .next { s with phase := .w2 b ((s.tx.head + 1) &&& (s.cfg.nTx - 1)) })
    ∧ (∀ n, s.phase = .w2 b n → n < s.cfg.nTx → exec (.write b) s = .next { s with
        tx := { s.tx with storage := Memory.set s.tx.storage n b }, phase := .w3 b n })
    ∧ (∀ n, s.phase = .w2 b n → s.cfg.nTx ≤ n → exec (.write b) s = .next { s with fault := some .indexOutOfRange })
    ∧ (∀ n, s.phase = .w3 b n → exec (.write b) s = .next { s with
        tx := { s.tx with head := n }, phase := .w4 b n })
    ∧ (∀ n, s.phase = .w4 b n → exec (.write b) s = .next { s with txie := true, phase := .idle })

/-- A WRITE that finds room and is not preempted (43_foreground_api.md section 2): five FG turns store the byte at the
new head, publish it, enable the transmit interrupt, and change nothing else. -/
def Obligations.WriteStoresPublishesEnables : Prop :=
  ∀ (s : State) (b : Byte) (ws : List Word) (ts : List Turn), s.fault = none → s.phase = .idle →
    s.initialised = true → (s.tx.head + 1) &&& (s.cfg.nTx - 1) ≠ s.tx.tail →
    s.program = (0x30000000 ||| b.setWidth 32) :: ws → s.turns = fgTurns 5 ++ ts →
    Host.Core.run Sys2Proof.core 5 s = .next { s with
      tx := { head := (s.tx.head + 1) &&& (s.cfg.nTx - 1), tail := s.tx.tail,
              storage := Memory.set s.tx.storage ((s.tx.head + 1) &&& (s.cfg.nTx - 1)) b }
      txie := true
      program := ws
      turns := ts }

/-- WRITES at Idle puts its WRITE words before the rest of the program (30_encoding.md section 8). That it does so as
one step of its own is the model's choice (log 9). -/
def Obligations.WritesExpandsToWrites : Prop :=
  ∀ (s : State) (text : List Byte), s.phase = .idle →
    exec (.writes text) s = .next { s with
      program := ((text.takeWhile (· ≠ 0)).map fun b => (0x30000000 ||| b.setWidth 32 : Word)) ++ s.program }

/-- WRITES run to its end with room for the whole text (43_foreground_api.md section 3): after it the buffer holds the
text's bytes up to its first 0x00 after those it held, the transmit interrupt is enabled unless the text was empty, and
nothing else has changed. That WRITES itself is one step is the model's choice (log 9). -/
def Obligations.WritesQueuesTheText : Prop :=
  ∀ (s : State) (text : List Byte) (ts : List Turn), s.fault = none → s.phase = .idle → s.initialised = true →
    s.ringOk .tx = true → s.count .tx + (text.takeWhile (· ≠ 0)).length ≤ s.cfg.nTx - 1 →
    s.turns = fgTurns (5 * (text.takeWhile (· ≠ 0)).length) ++ ts →
    ∃ u t, exec (.writes text) s = .next u
      ∧ Host.Core.run Sys2Proof.core (5 * (text.takeWhile (· ≠ 0)).length) u = .next t
      ∧ t.contents .tx = s.contents .tx ++ text.takeWhile (· ≠ 0)
      ∧ t = { s with tx := { t.tx with tail := s.tx.tail }, turns := ts,
                     txie := s.txie || !(text.takeWhile (· ≠ 0)).isEmpty }

/-- The documented limitation (43_foreground_api.md section 2, program P4b): a WRITE on a full buffer with interrupts
off spins for every number of steps and every schedule, and nothing FG or TXH owns changes. -/
def Obligations.FullWriteWithInterruptsOffHangs : Prop :=
  ∀ (n : Nat) (s : State) (b : Byte), s.fault = none → s.phase = .w1 b → s.isFull .tx = true → s.gie = false →
    ∃ t, Host.Core.run Sys2Proof.core n s = .next t ∧ t.phase = .w1 b ∧ t.tx = s.tx ∧ t.txie = s.txie
      ∧ t.lineOut = s.lineOut ∧ t.gie = false ∧ t.rx = s.rx ∧ t.results = s.results ∧ t.program = s.program
      ∧ t.fault = none

/-- Backpressure ends (43_foreground_api.md section 2): a WRITE on a full buffer with interrupts on has gone on to store
its byte before a schedule is used up that offers an XMIT, later a TXH and later an FG turn, whatever else it offers. -/
def Obligations.FullWriteGoesOnOnceDrained : Prop :=
  ∀ (s : State) (b : Byte), s.Inv → s.fault = none → s.phase = .w1 b → s.gie = true →
    [Turn.event .xmit, Turn.event .txh, Turn.fg].Sublist s.turns →
    ∃ n t next, n ≤ s.turns.length ∧ Host.Core.run Sys2Proof.core n s = .next t ∧ t.phase = .w2 b next

/-- Weak fairness is enough (60_exceptions.md, the fairness rule): in every infinite run from a WRITE that waits with
interrupts on, the WRITE goes on to store its byte, unless the run is not weakly fair. -/
def Obligations.FairRunsLetFullWriteGoOn : Prop :=
  ∀ (σ : Nat → State) (b : Byte), IsRun σ → (σ 0).Inv → (σ 0).phase = .w1 b → (σ 0).gie = true →
    (∃ n next, (σ n).phase = .w2 b next) ∨ ¬WeaklyFair σ

/-- The only blocking point (43_foreground_api.md section 2): the command in progress moves to another phase at each of
its steps, except WRITE waiting at W1 on a full buffer, or records a fault. -/
def Obligations.OnlyFullWriteBlocks : Prop :=
  ∀ (s : State) (i : Instr), s.fault = none → s.phase.command? = some i →
    (¬∃ b, s.phase = .w1 b ∧ s.isFull .tx = true) →
    ∃ t, exec i s = .next t ∧ (t.phase ≠ s.phase ∨ t.fault ≠ none)

/-! ### SEI, CLI, INIT -/

/-- 43_foreground_api.md R180, R181: SEI and CLI, their words; they need no INIT, change `gie` alone and raise nothing;
with `gie` as wanted they change nothing. -/
def Obligations.SeiAndCliSetGie : Prop :=
  decodeCommand 0x40000000 = .ok .sei ∧ decodeCommand 0x50000000 = .ok .cli
  ∧ (∀ w : Word, w >>> 28 = 4 ∨ w >>> 28 = 5 → w &&& 0x0FFFFFFF ≠ 0 → (decodeCommand w).toOption = none)
  ∧ ∀ s : State, s.phase = .idle →
    exec .sei s = .next { s with gie := true } ∧ exec .cli s = .next { s with gie := false }
    ∧ (s.gie = true → exec .sei s = .next s) ∧ (s.gie = false → exec .cli s = .next s)

/-- 10_state.md section 4: `gie` changes only by SEI and CLI issued by FG at Idle. -/
def Obligations.GieChangesOnlyBySeiAndCli : Prop :=
  ∀ s t : State, step s = .next t → t.gie ≠ s.gie →
    s.nextTurn = .fg ∧ s.phase = .idle ∧ ∃ ws, s.program = (if t.gie then 0x40000000 else 0x50000000) :: ws

/-- 44_initialisation.md R190: INIT, its word, for every selector, with interrupts off and on. -/
def Obligations.InitEmptiesAndEnables : Prop :=
  (∀ w : Word, w >>> 28 = 1 → (w >>> 16) &&& 0xFFF ≠ 0 → (decodeCommand w).toOption = none)
  ∧ ∀ (s : State) (sel : Half), decodeCommand (0x10000000 ||| sel.setWidth 32) = .ok (.init sel)
    ∧ (s.phase = .idle → s.gie = true →
        exec (.init sel) s = .next { s with fault := some .initWithInterruptsEnabled })
    ∧ (s.phase = .idle → s.gie = false → exec (.init sel) s = .next { s with
        rx := { s.rx with tail := s.rx.head }
        tx := { s.tx with tail := s.tx.head }
        highSpeed := sel.getLsbD 15
        baudDiv := sel.setWidth 15
        rxen := true, txen := true, rxie := true, txie := false, initialised := true })

/-- 44_initialisation.md R195: what INIT leaves alone. -/
def Obligations.InitLeavesAlone : Prop :=
  ∀ (s t : State) (sel : Half), exec (.init sel) s = .next t →
    t.lastError = s.lastError ∧ t.gie = s.gie ∧ t.rxHold = s.rxHold ∧ t.txReady = s.txReady
    ∧ t.lineOut = s.lineOut ∧ t.results = s.results

/-- INIT twice (44_initialisation.md; source example E8): two INITs in succession leave both buffers empty whatever
they held, and the second changes nothing but the baud outputs. -/
def Obligations.InitTwiceIsIdempotent : Prop :=
  ∀ (s : State) (sel₁ sel₂ : Half) (ws : List Word) (ts : List Turn), s.fault = none → s.phase = .idle →
    s.gie = false → s.ringOk .rx = true → s.ringOk .tx = true →
    s.program = (0x10000000 ||| sel₁.setWidth 32) :: (0x10000000 ||| sel₂.setWidth 32) :: ws →
    s.turns = fgTurns 2 ++ ts →
    ∃ t u, Host.Core.run Sys2Proof.core 1 s = .next t ∧ Host.Core.run Sys2Proof.core 2 s = .next u
      ∧ t.contents .rx = [] ∧ t.contents .tx = [] ∧ u.contents .rx = [] ∧ u.contents .tx = []
      ∧ u = { t with highSpeed := sel₂.getLsbD 15, baudDiv := sel₂.setWidth 15, program := ws, turns := ts }

/-- 10_state.md R28: INIT writes the baud outputs from its selector, and no step of the core depends on them. -/
def Obligations.BaudOutputsAreNeverRead : Prop :=
  (∀ (s : State) (sel : Half), s.phase = .idle → s.gie = false → ∃ t, exec (.init sel) s = .next t
    ∧ t.highSpeed = sel.getLsbD 15 ∧ t.baudDiv = sel.setWidth 15)
  ∧ (∀ (s : State) (d : BitVec 15) (h : Bool),
    mapNext (fun u => { u with baudDiv := d, highSpeed := h }) (step { s with baudDiv := d, highSpeed := h })
      = mapNext (fun u => { u with baudDiv := d, highSpeed := h }) (step s))

/-! ### Faults -/

/-- 60_exceptions.md R216: READ or WRITE issued before INIT. -/
def Obligations.ReadOrWriteBeforeInitFaults : Prop :=
  ∀ (s : State) (w : Word) (ws : List Word), s.fault = none → s.nextTurn = .fg → s.phase = .idle →
    s.program = w :: ws → (w = 0x20000000 ∨ ∃ b : Byte, w = 0x30000000 ||| b.setWidth 32) → s.initialised = false →
    step s = .next { s with fault := some .notInitialised }

/-- INIT issued with interrupts globally enabled (44_initialisation.md, the precondition): the fault is recorded and
nothing else changes. -/
def Obligations.InitWithInterruptsEnabledFaults : Prop :=
  ∀ (s : State) (sel : Half) (ws : List Word), s.fault = none → s.nextTurn = .fg → s.phase = .idle →
    s.program = (0x10000000 ||| sel.setWidth 32) :: ws → s.gie = true →
    step s = .next { s with fault := some .initWithInterruptsEnabled }

/-- 60_exceptions.md section 5: there are four reasons; a step that raises changes the record and nothing else, and after it
no step is taken, so the record is never cleared. That the recording step answers a next state, and the steps after it
the fault, is the model's reading (log 7). -/
def Obligations.FaultsAreRecordedAndFinal : Prop :=
  (∀ r : Fault, r ∈ [.notInitialised, .initWithInterruptsEnabled, .illegalCommand, .indexOutOfRange])
  ∧ (∀ (s t : State) (r : Fault), step s = .next t → t.fault = some r → t = { s with fault := some r })
  ∧ (∀ (s : State) (r : Fault) (n : Nat), s.fault = some r → Host.Core.run Sys2Proof.core (n + 1) s = .fault r)

/-- No reachable state has the fault IndexOutOfRange, and no run stops with it (60_exceptions.md section 5). -/
def Obligations.IndexOutOfRangeIsUnreachable : Prop :=
  ∀ c : Config,
    (∀ t, State.Reachable c t → t.fault ≠ some .indexOutOfRange)
    ∧ (∀ program turns n,
        Host.Core.run Sys2Proof.core n ((State.powerOn c).load program turns) ≠ .fault .indexOutOfRange)

/-! ### Whole-machine rules: ownership, independence, frames -/

/-- The concurrency discipline (10_state.md section 1): each buffer field changes only in a step of the side that owns
it; `tx.tail` also in INIT, which runs with interrupts off. -/
def Obligations.OnlyOwnersWriteTheBuffers : Prop :=
  ∀ s t : State, step s = .next t →
    (t.rx.head ≠ s.rx.head ∨ t.rx.storage ≠ s.rx.storage → s.nextTurn = .event .rxh ∧ s.rxhEnabled = true)
    ∧ (t.tx.head ≠ s.tx.head → s.nextTurn = .fg ∧ ∃ b n, s.phase = .w3 b n)
    ∧ (t.tx.storage ≠ s.tx.storage → s.nextTurn = .fg ∧ ∃ b n, s.phase = .w2 b n)
    ∧ (t.rx.tail ≠ s.rx.tail → s.nextTurn = .fg ∧ (s.phase = .r2 ∨
        (s.phase = .idle ∧ s.gie = false ∧ ∃ sel ws, s.program = encodeFields 0x1 sel :: ws)))
    ∧ (t.tx.tail ≠ s.tx.tail → (s.nextTurn = .event .txh ∧ s.txhEnabled = true) ∨
        (s.nextTurn = .fg ∧ s.phase = .idle ∧ s.gie = false ∧ ∃ sel ws, s.program = encodeFields 0x1 sel :: ws))

/-- Handler entry and return (60_exceptions.md section 3): a step of RXH or TXH leaves FG's phase and temporaries, its
program and `gie` as they were, so FG goes on at the phase it had. -/
def Obligations.HandlersLeaveTheForeground : Prop :=
  ∀ s t : State, (s.nextTurn = .event .rxh ∨ s.nextTurn = .event .txh) → step s = .next t →
    t.phase = s.phase ∧ t.phase.command? = s.phase.command? ∧ t.program = s.program ∧ t.gie = s.gie
    ∧ t.results = s.results ∧ t.initialised = s.initialised ∧ t.fault = none

/-- The two handlers in either order leave the same state (60_exceptions.md section 2, the rule the spec derives). -/
def Obligations.HandlersCommute : Prop :=
  ∀ s : State, ∃ a b c, exec .rxh s = .next a ∧ exec .txh a = .next b ∧ exec .txh s = .next c ∧ exec .rxh c = .next b

/-- The two paths are independent (00_scope.md section 1): what the transmit handler and transmitter do depends on
nothing of the receive side, and what the receive line and handler do on nothing of the transmit side. -/
def Obligations.PathsAreIndependent : Prop :=
  (∀ (s : State) (i : Instr) (r : Ring) (e : Byte) (h : Option (Byte × Byte)) (en ie : Bool), i = .txh ∨ i = .xmit →
    exec i { s with rx := r, lastError := e, rxHold := h, rxen := en, rxie := ie }
      = mapNext (fun u => { u with rx := r, lastError := e, rxHold := h, rxen := en, rxie := ie }) (exec i s))
  ∧ (∀ (s : State) (i : Instr) (r : Ring) (en ie rd : Bool) (out : List Byte),
      (i = .rxh ∨ ∃ b status, i = .line b status) →
    exec i { s with tx := r, txen := en, txie := ie, txReady := rd, lineOut := out }
      = mapNext (fun u => { u with tx := r, txen := en, txie := ie, txReady := rd, lineOut := out }) (exec i s))

/-- Frames of the registers (20_memory.md section 2, 10_state.md section 1): what a step of each operation may change,
everything else staying as it was. INIT writes the tails, the baud outputs and the control bits; READ the receive tail,
its result and the phase; WRITE the transmit head and storage, `txie` and the phase; a command may record a fault. -/
def Obligations.RegisterFrames : Prop :=
  ∀ (i : Instr) (s t : State), exec i s = .next t →
    match i with
    | .init _ => t = { s with
        rx := { s.rx with tail := t.rx.tail }, tx := { s.tx with tail := t.tx.tail }, rxen := t.rxen, txen := t.txen,
        rxie := t.rxie, txie := t.txie, baudDiv := t.baudDiv, highSpeed := t.highSpeed, initialised := t.initialised,
        fault := t.fault }
    | .read => t = { s with
        rx := { s.rx with tail := t.rx.tail }, results := t.results, phase := t.phase, fault := t.fault }
    | .write _ => t = { s with
        tx := { t.tx with tail := s.tx.tail }, txie := t.txie, phase := t.phase, fault := t.fault }
    | .sei => t = { s with gie := t.gie }
    | .cli => t = { s with gie := t.gie }
    | .writes _ => t = { s with program := t.program }
    | .rxh => t = { s with rx := { t.rx with tail := s.rx.tail }, lastError := t.lastError, rxHold := t.rxHold }
    | .txh => t = { s with
        tx := { s.tx with tail := t.tx.tail }, txie := t.txie, txReady := t.txReady, lineOut := t.lineOut }
    | .line _ _ => t = { s with rxHold := t.rxHold }
    | .xmit => t = { s with txReady := t.txReady }

/-- Frames of the storage (20_memory.md section 1): RXH stores one byte, at the slot after the receive head, when it
runs and the buffer has room; WRITE stores one byte, at the index its phase W2 carries; every other slot, and every
slot for every other operation and form, reads as before. -/
def Obligations.StorageFrames : Prop :=
  ∀ (i : Instr) (s t : State), exec i s = .next t → ∀ (B : BufId) (a : Nat),
    t.slot B a =
      match i, s.rxHold, s.phase with
      | .rxh, some (b, _), _ =>
        if s.rxhEnabled = true ∧ s.isFull .rx = false ∧ B = .rx ∧ a = s.nextHead .rx then b else s.slot B a
      | .write _, _, .w2 b n => if n < s.cfg.nTx ∧ B = .tx ∧ a = n then b else s.slot B a
      | _, _, _ => s.slot B a

/-- A run that has ended stands still (60_exceptions.md section 7): only LINE can still change the core. -/
def Obligations.EndedRunsStandStill : Prop :=
  ∀ s t : State, s.ended = true → (∀ b status, s.nextTurn ≠ .event (.line b status)) → step s = .next t →
    t = s.takeTurn
end

