-- ==== Sys2Proof/Laws/Decode.lean ====
section
/-! SUPPORT. The fields of a packed word, and what the decoders read from the encoder's words. -/

namespace Sys2Proof

@[simp] theorem opField_pack (op : BitVec 4) (rsv : BitVec 12) (opnd : Half) : opField (packWord op rsv opnd) = op := by
  ext j hj
  simp only [opField, packWord, BitVec.getElem_extractLsb', BitVec.getLsbD_append]
  rw [if_neg (by omega), if_neg (by omega), ← BitVec.getLsbD_eq_getElem]
  congr 1; omega

@[simp] theorem rsvField_pack (op : BitVec 4) (rsv : BitVec 12) (opnd : Half) :
    rsvField (packWord op rsv opnd) = rsv := by
  ext j hj
  simp only [rsvField, packWord, BitVec.getElem_extractLsb', BitVec.getLsbD_append]
  rw [if_neg (by omega), if_pos (by omega), ← BitVec.getLsbD_eq_getElem]
  congr 1; omega

@[simp] theorem opndField_pack (op : BitVec 4) (rsv : BitVec 12) (opnd : Half) :
    opndField (packWord op rsv opnd) = opnd := by
  ext j hj
  simp only [opndField, packWord, BitVec.getElem_extractLsb', BitVec.getLsbD_append]
  rw [if_pos (by omega), ← BitVec.getLsbD_eq_getElem]
  congr 1; omega

/-- A word is its three fields. -/
theorem pack_fields (w : Word) : packWord (opField w) (rsvField w) (opndField w) = w := by
  ext j hj
  simp only [opField, rsvField, opndField, packWord, ← BitVec.getLsbD_eq_getElem, BitVec.getLsbD_append,
    BitVec.getLsbD_extractLsb']
  split
  · simp [*]
  · split
    · have h : j - 16 < 12 := by omega
      simp only [h, decide_true, Bool.true_and]; congr 1; omega
    · have h : j - 16 - 12 < 4 := by omega
      simp only [h, decide_true, Bool.true_and]; congr 1; omega

@[simp] theorem highByte_append (a b : Byte) : highByte (a ++ b) = a := by
  ext j hj
  simp only [highByte, BitVec.getElem_extractLsb', BitVec.getLsbD_append]
  rw [if_neg (by omega), ← BitVec.getLsbD_eq_getElem]
  congr 1; omega

@[simp] theorem lowByte_append (a b : Byte) : lowByte (a ++ b) = b := by
  ext j hj
  simp only [lowByte, BitVec.getElem_extractLsb', BitVec.getLsbD_append]
  rw [if_pos (by omega), ← BitVec.getLsbD_eq_getElem]
  congr 1; omega

/-- An operand is its two bytes. -/
theorem append_bytes (v : Half) : highByte v ++ lowByte v = v := by
  ext j hj
  simp only [highByte, lowByte, ← BitVec.getLsbD_eq_getElem, BitVec.getLsbD_append, BitVec.getLsbD_extractLsb']
  split
  · simp [*]
  · have h : j - 8 < 8 := by omega
    simp only [h, decide_true, Bool.true_and]; congr 1; omega

/-- A byte widened with zeros is the byte below a zero byte. -/
theorem zeroExtend_byte (b : Byte) : b.zeroExtend 16 = (0 : Byte) ++ b := by
  ext j hj
  simp only [← BitVec.getLsbD_eq_getElem, BitVec.getLsbD_append, BitVec.truncate_eq_setWidth,
    BitVec.getLsbD_setWidth, hj, decide_true, Bool.true_and]
  split
  · rfl
  · next h => rw [BitVec.getLsbD_of_ge _ _ (by omega)]; simp

/-! What each encoded word decodes to -/

theorem decode_init (sel : Half) : decodeCommand (encodeFields 0x1 sel) = .ok (.init sel) := by
  simp [decodeCommand, encodeFields]

theorem decode_read : decodeCommand (encodeFields 0x2 0) = .ok .read := by decide

theorem decode_write (b : Byte) : decodeCommand (encodeWrite b) = .ok (.write b) := by
  simp [decodeCommand, encodeWrite, encodeFields, zeroExtend_byte, -BitVec.truncate_eq_setWidth]

theorem decode_sei : decodeCommand (encodeFields 0x4 0) = .ok .sei := by decide

theorem decode_cli : decodeCommand (encodeFields 0x5 0) = .ok .cli := by decide

/-- An event word spells no command (R77), and its event is read back. -/
theorem decode_event (e : Event) : decodeEvent (encodeEvent e) = .ok e ∧ decodeCommand (encodeEvent e) = .error .eventSpace := by
  cases e <;> simp [decodeEvent, decodeCommand, encodeEvent, encodeFields, withoutOperand]

theorem decodeWord_of_command (w : Word) (i : Instr) (h : decodeCommand w = .ok i) : decodeWord w = .ok i := by
  simp [decodeWord, h]

theorem decodeWord_event (e : Event) : decodeWord (encodeEvent e) = .ok e.instr := by
  simp [decodeWord, (decode_event e).1, (decode_event e).2, Except.map]

/-! Which words decode, and to what -/

theorem withoutOperand_ok {α : Type} (w : Word) (a b : α) (h : withoutOperand w a = .ok b) : opndField w = 0 ∧ a = b := by
  unfold withoutOperand at h
  split at h
  · next h0 => cases h; exact ⟨h0, rfl⟩
  · cases h

/-- A word with `rsv` 0 is its `op` and operand. -/
theorem eq_encodeFields (w : Word) (op : BitVec 4) (h : rsvField w = 0) (ho : opField w = op) :
    w = encodeFields op (opndField w) := by
  rw [encodeFields, ← ho, ← h, pack_fields]

/-- The legal commands (R74), by the word's fields. -/
theorem decodeCommand_ok (w : Word) (i : Instr) (h : decodeCommand w = .ok i) :
    (∃ sel, w = encodeFields 0x1 sel ∧ i = .init sel) ∨ (w = encodeFields 0x2 0 ∧ i = .read)
    ∨ (∃ b, w = encodeWrite b ∧ i = .write b) ∨ (w = encodeFields 0x4 0 ∧ i = .sei)
    ∨ (w = encodeFields 0x5 0 ∧ i = .cli) := by
  unfold decodeCommand at h
  split at h
  · cases h
  · next hr =>
    have hr : rsvField w = 0 := by simpa using hr
    split at h
    · next ho => cases h; exact .inl ⟨_, eq_encodeFields w _ hr ho, rfl⟩
    · split at h
      · next ho =>
        obtain ⟨h0, rfl⟩ := withoutOperand_ok _ _ _ h
        exact .inr (.inl ⟨by rw [← h0]; exact eq_encodeFields w _ hr ho, rfl⟩)
      · split at h
        · next ho =>
          split at h
          · next hz =>
            cases h
            refine .inr (.inr (.inl ⟨_, ?_, rfl⟩))
            rw [encodeWrite, zeroExtend_byte, ← hz, append_bytes]
            exact eq_encodeFields w _ hr ho
          · cases h
        · split at h
          · next ho =>
            obtain ⟨h0, rfl⟩ := withoutOperand_ok _ _ _ h
            exact .inr (.inr (.inr (.inl ⟨by rw [← h0]; exact eq_encodeFields w _ hr ho, rfl⟩)))
          · split at h
            · next ho =>
              obtain ⟨h0, rfl⟩ := withoutOperand_ok _ _ _ h
              exact .inr (.inr (.inr (.inr ⟨by rw [← h0]; exact eq_encodeFields w _ hr ho, rfl⟩)))
            · split at h <;> cases h

/-- The event words (R77): a word that decodes to an event is that event's word. -/
theorem decodeEvent_ok (w : Word) (e : Event) (h : decodeEvent w = .ok e) : w = encodeEvent e := by
  unfold decodeEvent at h
  split at h
  · cases h
  · next hr =>
    have hr : rsvField w = 0 := by simpa using hr
    split at h
    · next ho =>
      obtain ⟨h0, rfl⟩ := withoutOperand_ok _ _ _ h
      rw [encodeEvent, ← h0]; exact eq_encodeFields w _ hr ho
    · split at h
      · next ho =>
        obtain ⟨h0, rfl⟩ := withoutOperand_ok _ _ _ h
        rw [encodeEvent, ← h0]; exact eq_encodeFields w _ hr ho
      · split at h
        · next ho => cases h; rw [encodeEvent, append_bytes]; exact eq_encodeFields w _ hr ho
        · split at h
          · next ho =>
            obtain ⟨h0, rfl⟩ := withoutOperand_ok _ _ _ h
            rw [encodeEvent, ← h0]; exact eq_encodeFields w _ hr ho
          · cases h

end Sys2Proof
end

