-- ==== Sys2Proof/Laws/Memory.lean ====
section
/-! SUPPORT. Storage: a read gives the byte last written to the slot, a write leaves every other slot alone, and
writing keeps the canonical form. -/

namespace Sys2Proof.Machine.Memory

@[simp] theorem get?_set_same (m : Memory) (a : Nat) (v : Byte) : get? (set m a v) a = some v := by
  induction m with
  | nil => simp [set, get?]
  | cons e m ih =>
    obtain ⟨k, w⟩ := e
    simp only [set]
    split
    · simp [get?]
    · split
      · simp [get?]
      · simp [get?, *]

theorem get?_set_other (m : Memory) (a b : Nat) (v : Byte) (h : b ≠ a) : get? (set m a v) b = get? m b := by
  induction m with
  | nil => simp [set, get?, h]
  | cons e m ih =>
    obtain ⟨k, w⟩ := e
    simp only [set]
    split
    · simp [get?, h]
    · split
      · next _ hk => subst hk; simp [get?, h]
      · simp [get?, ih]

theorem get?_set (m : Memory) (a b : Nat) (v : Byte) :
    get? (set m a v) b = if b = a then some v else get? m b := by
  split
  · next h => subst h; simp
  · next h => exact get?_set_other m a b v h

/-- A write at a slot in range keeps the slots rising from any bound it respects. -/
theorem rising_set (n : Nat) (m : Memory) (lo a : Nat) (v : Byte) (hlo : lo ≤ a) (ha : a < n)
    (h : rising n lo m = true) : rising n lo (set m a v) = true := by
  induction m generalizing lo with
  | nil => simp [set, rising, hlo, ha]
  | cons e m ih =>
    obtain ⟨k, w⟩ := e
    simp only [rising, Bool.and_eq_true, decide_eq_true_eq] at h
    obtain ⟨⟨h1, h2⟩, h3⟩ := h
    simp only [set]
    split
    · next hk => simp only [rising, Bool.and_eq_true, decide_eq_true_eq]; exact ⟨⟨hlo, ha⟩, ⟨by omega, h2⟩, h3⟩
    · split
      · next _ hk => subst hk; simp [rising, h1, h2, h3]
      · next hk1 hk2 =>
        simp only [rising, Bool.and_eq_true, decide_eq_true_eq]
        exact ⟨⟨h1, h2⟩, ih (k + 1) (by omega) h3⟩

/-- Writing a slot in range keeps the canonical form. -/
theorem wf_set (n : Nat) (m : Memory) (a : Nat) (v : Byte) (ha : a < n) (h : wf n m = true) :
    wf n (set m a v) = true :=
  rising_set n m 0 a v (Nat.zero_le a) ha h

theorem wf_nil (n : Nat) : wf n [] = true := rfl

/-- A slot below the bound a canonical storage rises from is not listed. -/
theorem get?_below (n : Nat) (m : Memory) (lo a : Nat) (h : rising n lo m = true) (ha : a < lo) :
    get? m a = none := by
  induction m generalizing lo with
  | nil => rfl
  | cons e m ih =>
    obtain ⟨k, w⟩ := e
    simp only [rising, Bool.and_eq_true, decide_eq_true_eq] at h
    obtain ⟨⟨h1, _⟩, h3⟩ := h
    rw [get?, if_neg (by omega), ih (k + 1) h3 (by omega)]

/-- The canonical form is canonical: two storages of that form that hold the same bytes are the same list. -/
theorem ext_of_rising (n : Nat) (m m' : Memory) (lo : Nat) (h : rising n lo m = true) (h' : rising n lo m' = true)
    (hg : ∀ a, get? m a = get? m' a) : m = m' := by
  induction m generalizing m' lo with
  | nil =>
    cases m' with
    | nil => rfl
    | cons e' m' =>
      have := hg e'.1
      simp [get?] at this
  | cons e m ih =>
    cases m' with
    | nil => have := hg e.1; simp [get?] at this
    | cons e' m' =>
      obtain ⟨k, w⟩ := e
      obtain ⟨k', w'⟩ := e'
      simp only [rising, Bool.and_eq_true, decide_eq_true_eq] at h h'
      have hk : k = k' := by
        rcases Nat.lt_trichotomy k k' with hlt | heq | hgt
        · have hk := hg k
          rw [get?, if_pos rfl, get?, if_neg (by omega), get?_below n m' (k' + 1) k h'.2 (by omega)] at hk
          exact absurd hk (by simp)
        · exact heq
        · have hk := hg k'
          rw [get?, if_neg (by omega), get?_below n m (k + 1) k' h.2 (by omega), get?, if_pos rfl] at hk
          exact absurd hk (by simp)
      subst hk
      have hw := hg k
      rw [get?, if_pos rfl, get?, if_pos rfl, Option.some.injEq] at hw
      subst hw
      congr 1
      refine ih m' (k + 1) h.2 h'.2 fun a => ?_
      by_cases ha : a = k
      · subst ha
        rw [get?_below n m (a + 1) a h.2 (by omega), get?_below n m' (a + 1) a h'.2 (by omega)]
      · have := hg a
        rwa [get?, if_neg ha, get?, if_neg ha] at this

end Sys2Proof.Machine.Memory
end

