-- ==== Sys2Proof/Laws/State.lean ====
section
/-! SUPPORT. What every update of State leaves in every field, each true by rfl. -/

namespace Sys2Proof.Machine.State

section updates

variable (s : State)

/-! `setPhase` -/

@[simp] theorem setPhase_cfg (p : Phase) : (s.setPhase p).cfg = s.cfg := rfl
@[simp] theorem setPhase_rx (p : Phase) : (s.setPhase p).rx = s.rx := rfl
@[simp] theorem setPhase_tx (p : Phase) : (s.setPhase p).tx = s.tx := rfl
@[simp] theorem setPhase_lastError (p : Phase) : (s.setPhase p).lastError = s.lastError := rfl
@[simp] theorem setPhase_rxen (p : Phase) : (s.setPhase p).rxen = s.rxen := rfl
@[simp] theorem setPhase_txen (p : Phase) : (s.setPhase p).txen = s.txen := rfl
@[simp] theorem setPhase_rxie (p : Phase) : (s.setPhase p).rxie = s.rxie := rfl
@[simp] theorem setPhase_txie (p : Phase) : (s.setPhase p).txie = s.txie := rfl
@[simp] theorem setPhase_baudDiv (p : Phase) : (s.setPhase p).baudDiv = s.baudDiv := rfl
@[simp] theorem setPhase_highSpeed (p : Phase) : (s.setPhase p).highSpeed = s.highSpeed := rfl
@[simp] theorem setPhase_initialised (p : Phase) : (s.setPhase p).initialised = s.initialised := rfl
@[simp] theorem setPhase_gie (p : Phase) : (s.setPhase p).gie = s.gie := rfl
@[simp] theorem setPhase_rxHold (p : Phase) : (s.setPhase p).rxHold = s.rxHold := rfl
@[simp] theorem setPhase_txReady (p : Phase) : (s.setPhase p).txReady = s.txReady := rfl
@[simp] theorem setPhase_results (p : Phase) : (s.setPhase p).results = s.results := rfl
@[simp] theorem setPhase_fault (p : Phase) : (s.setPhase p).fault = s.fault := rfl
@[simp] theorem setPhase_lineOut (p : Phase) : (s.setPhase p).lineOut = s.lineOut := rfl
@[simp] theorem setPhase_phase (p : Phase) : (s.setPhase p).phase = p := rfl
@[simp] theorem setPhase_program (p : Phase) : (s.setPhase p).program = s.program := rfl
@[simp] theorem setPhase_turns (p : Phase) : (s.setPhase p).turns = s.turns := rfl
@[simp] theorem setPhase_tick (p : Phase) : (s.setPhase p).tick = s.tick := rfl

/-! `returnResult` -/

@[simp] theorem returnResult_cfg (r : Half) : (s.returnResult r).cfg = s.cfg := rfl
@[simp] theorem returnResult_rx (r : Half) : (s.returnResult r).rx = s.rx := rfl
@[simp] theorem returnResult_tx (r : Half) : (s.returnResult r).tx = s.tx := rfl
@[simp] theorem returnResult_lastError (r : Half) : (s.returnResult r).lastError = s.lastError := rfl
@[simp] theorem returnResult_rxen (r : Half) : (s.returnResult r).rxen = s.rxen := rfl
@[simp] theorem returnResult_txen (r : Half) : (s.returnResult r).txen = s.txen := rfl
@[simp] theorem returnResult_rxie (r : Half) : (s.returnResult r).rxie = s.rxie := rfl
@[simp] theorem returnResult_txie (r : Half) : (s.returnResult r).txie = s.txie := rfl
@[simp] theorem returnResult_baudDiv (r : Half) : (s.returnResult r).baudDiv = s.baudDiv := rfl
@[simp] theorem returnResult_highSpeed (r : Half) : (s.returnResult r).highSpeed = s.highSpeed := rfl
@[simp] theorem returnResult_initialised (r : Half) : (s.returnResult r).initialised = s.initialised := rfl
@[simp] theorem returnResult_gie (r : Half) : (s.returnResult r).gie = s.gie := rfl
@[simp] theorem returnResult_rxHold (r : Half) : (s.returnResult r).rxHold = s.rxHold := rfl
@[simp] theorem returnResult_txReady (r : Half) : (s.returnResult r).txReady = s.txReady := rfl
@[simp] theorem returnResult_results (r : Half) : (s.returnResult r).results = s.results ++ [r] := rfl
@[simp] theorem returnResult_fault (r : Half) : (s.returnResult r).fault = s.fault := rfl
@[simp] theorem returnResult_lineOut (r : Half) : (s.returnResult r).lineOut = s.lineOut := rfl
@[simp] theorem returnResult_phase (r : Half) : (s.returnResult r).phase = .idle := rfl
@[simp] theorem returnResult_program (r : Half) : (s.returnResult r).program = s.program := rfl
@[simp] theorem returnResult_turns (r : Half) : (s.returnResult r).turns = s.turns := rfl
@[simp] theorem returnResult_tick (r : Half) : (s.returnResult r).tick = s.tick := rfl

/-! `accumulate` -/

@[simp] theorem accumulate_cfg (e : Byte) : (s.accumulate e).cfg = s.cfg := rfl
@[simp] theorem accumulate_rx (e : Byte) : (s.accumulate e).rx = s.rx := rfl
@[simp] theorem accumulate_tx (e : Byte) : (s.accumulate e).tx = s.tx := rfl
@[simp] theorem accumulate_lastError (e : Byte) : (s.accumulate e).lastError = s.lastError ||| e := rfl
@[simp] theorem accumulate_rxen (e : Byte) : (s.accumulate e).rxen = s.rxen := rfl
@[simp] theorem accumulate_txen (e : Byte) : (s.accumulate e).txen = s.txen := rfl
@[simp] theorem accumulate_rxie (e : Byte) : (s.accumulate e).rxie = s.rxie := rfl
@[simp] theorem accumulate_txie (e : Byte) : (s.accumulate e).txie = s.txie := rfl
@[simp] theorem accumulate_baudDiv (e : Byte) : (s.accumulate e).baudDiv = s.baudDiv := rfl
@[simp] theorem accumulate_highSpeed (e : Byte) : (s.accumulate e).highSpeed = s.highSpeed := rfl
@[simp] theorem accumulate_initialised (e : Byte) : (s.accumulate e).initialised = s.initialised := rfl
@[simp] theorem accumulate_gie (e : Byte) : (s.accumulate e).gie = s.gie := rfl
@[simp] theorem accumulate_rxHold (e : Byte) : (s.accumulate e).rxHold = s.rxHold := rfl
@[simp] theorem accumulate_txReady (e : Byte) : (s.accumulate e).txReady = s.txReady := rfl
@[simp] theorem accumulate_results (e : Byte) : (s.accumulate e).results = s.results := rfl
@[simp] theorem accumulate_fault (e : Byte) : (s.accumulate e).fault = s.fault := rfl
@[simp] theorem accumulate_lineOut (e : Byte) : (s.accumulate e).lineOut = s.lineOut := rfl
@[simp] theorem accumulate_phase (e : Byte) : (s.accumulate e).phase = s.phase := rfl
@[simp] theorem accumulate_program (e : Byte) : (s.accumulate e).program = s.program := rfl
@[simp] theorem accumulate_turns (e : Byte) : (s.accumulate e).turns = s.turns := rfl
@[simp] theorem accumulate_tick (e : Byte) : (s.accumulate e).tick = s.tick := rfl

/-! `handOver` -/

@[simp] theorem handOver_cfg (b : Byte) : (s.handOver b).cfg = s.cfg := rfl
@[simp] theorem handOver_rx (b : Byte) : (s.handOver b).rx = s.rx := rfl
@[simp] theorem handOver_tx (b : Byte) : (s.handOver b).tx = s.tx := rfl
@[simp] theorem handOver_lastError (b : Byte) : (s.handOver b).lastError = s.lastError := rfl
@[simp] theorem handOver_rxen (b : Byte) : (s.handOver b).rxen = s.rxen := rfl
@[simp] theorem handOver_txen (b : Byte) : (s.handOver b).txen = s.txen := rfl
@[simp] theorem handOver_rxie (b : Byte) : (s.handOver b).rxie = s.rxie := rfl
@[simp] theorem handOver_txie (b : Byte) : (s.handOver b).txie = s.txie := rfl
@[simp] theorem handOver_baudDiv (b : Byte) : (s.handOver b).baudDiv = s.baudDiv := rfl
@[simp] theorem handOver_highSpeed (b : Byte) : (s.handOver b).highSpeed = s.highSpeed := rfl
@[simp] theorem handOver_initialised (b : Byte) : (s.handOver b).initialised = s.initialised := rfl
@[simp] theorem handOver_gie (b : Byte) : (s.handOver b).gie = s.gie := rfl
@[simp] theorem handOver_rxHold (b : Byte) : (s.handOver b).rxHold = s.rxHold := rfl
@[simp] theorem handOver_txReady (b : Byte) : (s.handOver b).txReady = false := rfl
@[simp] theorem handOver_results (b : Byte) : (s.handOver b).results = s.results := rfl
@[simp] theorem handOver_fault (b : Byte) : (s.handOver b).fault = s.fault := rfl
@[simp] theorem handOver_lineOut (b : Byte) : (s.handOver b).lineOut = s.lineOut ++ [b] := rfl
@[simp] theorem handOver_phase (b : Byte) : (s.handOver b).phase = s.phase := rfl
@[simp] theorem handOver_program (b : Byte) : (s.handOver b).program = s.program := rfl
@[simp] theorem handOver_turns (b : Byte) : (s.handOver b).turns = s.turns := rfl
@[simp] theorem handOver_tick (b : Byte) : (s.handOver b).tick = s.tick := rfl

/-! `setTxie` -/

@[simp] theorem setTxie_cfg (v : Bool) : (s.setTxie v).cfg = s.cfg := rfl
@[simp] theorem setTxie_rx (v : Bool) : (s.setTxie v).rx = s.rx := rfl
@[simp] theorem setTxie_tx (v : Bool) : (s.setTxie v).tx = s.tx := rfl
@[simp] theorem setTxie_lastError (v : Bool) : (s.setTxie v).lastError = s.lastError := rfl
@[simp] theorem setTxie_rxen (v : Bool) : (s.setTxie v).rxen = s.rxen := rfl
@[simp] theorem setTxie_txen (v : Bool) : (s.setTxie v).txen = s.txen := rfl
@[simp] theorem setTxie_rxie (v : Bool) : (s.setTxie v).rxie = s.rxie := rfl
@[simp] theorem setTxie_txie (v : Bool) : (s.setTxie v).txie = v := rfl
@[simp] theorem setTxie_baudDiv (v : Bool) : (s.setTxie v).baudDiv = s.baudDiv := rfl
@[simp] theorem setTxie_highSpeed (v : Bool) : (s.setTxie v).highSpeed = s.highSpeed := rfl
@[simp] theorem setTxie_initialised (v : Bool) : (s.setTxie v).initialised = s.initialised := rfl
@[simp] theorem setTxie_gie (v : Bool) : (s.setTxie v).gie = s.gie := rfl
@[simp] theorem setTxie_rxHold (v : Bool) : (s.setTxie v).rxHold = s.rxHold := rfl
@[simp] theorem setTxie_txReady (v : Bool) : (s.setTxie v).txReady = s.txReady := rfl
@[simp] theorem setTxie_results (v : Bool) : (s.setTxie v).results = s.results := rfl
@[simp] theorem setTxie_fault (v : Bool) : (s.setTxie v).fault = s.fault := rfl
@[simp] theorem setTxie_lineOut (v : Bool) : (s.setTxie v).lineOut = s.lineOut := rfl
@[simp] theorem setTxie_phase (v : Bool) : (s.setTxie v).phase = s.phase := rfl
@[simp] theorem setTxie_program (v : Bool) : (s.setTxie v).program = s.program := rfl
@[simp] theorem setTxie_turns (v : Bool) : (s.setTxie v).turns = s.turns := rfl
@[simp] theorem setTxie_tick (v : Bool) : (s.setTxie v).tick = s.tick := rfl

/-! `transmitterReady` -/

@[simp] theorem transmitterReady_cfg : s.transmitterReady.cfg = s.cfg := rfl
@[simp] theorem transmitterReady_rx : s.transmitterReady.rx = s.rx := rfl
@[simp] theorem transmitterReady_tx : s.transmitterReady.tx = s.tx := rfl
@[simp] theorem transmitterReady_lastError : s.transmitterReady.lastError = s.lastError := rfl
@[simp] theorem transmitterReady_rxen : s.transmitterReady.rxen = s.rxen := rfl
@[simp] theorem transmitterReady_txen : s.transmitterReady.txen = s.txen := rfl
@[simp] theorem transmitterReady_rxie : s.transmitterReady.rxie = s.rxie := rfl
@[simp] theorem transmitterReady_txie : s.transmitterReady.txie = s.txie := rfl
@[simp] theorem transmitterReady_baudDiv : s.transmitterReady.baudDiv = s.baudDiv := rfl
@[simp] theorem transmitterReady_highSpeed : s.transmitterReady.highSpeed = s.highSpeed := rfl
@[simp] theorem transmitterReady_initialised : s.transmitterReady.initialised = s.initialised := rfl
@[simp] theorem transmitterReady_gie : s.transmitterReady.gie = s.gie := rfl
@[simp] theorem transmitterReady_rxHold : s.transmitterReady.rxHold = s.rxHold := rfl
@[simp] theorem transmitterReady_txReady : s.transmitterReady.txReady = true := rfl
@[simp] theorem transmitterReady_results : s.transmitterReady.results = s.results := rfl
@[simp] theorem transmitterReady_fault : s.transmitterReady.fault = s.fault := rfl
@[simp] theorem transmitterReady_lineOut : s.transmitterReady.lineOut = s.lineOut := rfl
@[simp] theorem transmitterReady_phase : s.transmitterReady.phase = s.phase := rfl
@[simp] theorem transmitterReady_program : s.transmitterReady.program = s.program := rfl
@[simp] theorem transmitterReady_turns : s.transmitterReady.turns = s.turns := rfl
@[simp] theorem transmitterReady_tick : s.transmitterReady.tick = s.tick := rfl

/-! `setGie` -/

@[simp] theorem setGie_cfg (v : Bool) : (s.setGie v).cfg = s.cfg := rfl
@[simp] theorem setGie_rx (v : Bool) : (s.setGie v).rx = s.rx := rfl
@[simp] theorem setGie_tx (v : Bool) : (s.setGie v).tx = s.tx := rfl
@[simp] theorem setGie_lastError (v : Bool) : (s.setGie v).lastError = s.lastError := rfl
@[simp] theorem setGie_rxen (v : Bool) : (s.setGie v).rxen = s.rxen := rfl
@[simp] theorem setGie_txen (v : Bool) : (s.setGie v).txen = s.txen := rfl
@[simp] theorem setGie_rxie (v : Bool) : (s.setGie v).rxie = s.rxie := rfl
@[simp] theorem setGie_txie (v : Bool) : (s.setGie v).txie = s.txie := rfl
@[simp] theorem setGie_baudDiv (v : Bool) : (s.setGie v).baudDiv = s.baudDiv := rfl
@[simp] theorem setGie_highSpeed (v : Bool) : (s.setGie v).highSpeed = s.highSpeed := rfl
@[simp] theorem setGie_initialised (v : Bool) : (s.setGie v).initialised = s.initialised := rfl
@[simp] theorem setGie_gie (v : Bool) : (s.setGie v).gie = v := rfl
@[simp] theorem setGie_rxHold (v : Bool) : (s.setGie v).rxHold = s.rxHold := rfl
@[simp] theorem setGie_txReady (v : Bool) : (s.setGie v).txReady = s.txReady := rfl
@[simp] theorem setGie_results (v : Bool) : (s.setGie v).results = s.results := rfl
@[simp] theorem setGie_fault (v : Bool) : (s.setGie v).fault = s.fault := rfl
@[simp] theorem setGie_lineOut (v : Bool) : (s.setGie v).lineOut = s.lineOut := rfl
@[simp] theorem setGie_phase (v : Bool) : (s.setGie v).phase = s.phase := rfl
@[simp] theorem setGie_program (v : Bool) : (s.setGie v).program = s.program := rfl
@[simp] theorem setGie_turns (v : Bool) : (s.setGie v).turns = s.turns := rfl
@[simp] theorem setGie_tick (v : Bool) : (s.setGie v).tick = s.tick := rfl

/-! `setHold` -/

@[simp] theorem setHold_cfg (h : Option (Byte × Byte)) : (s.setHold h).cfg = s.cfg := rfl
@[simp] theorem setHold_rx (h : Option (Byte × Byte)) : (s.setHold h).rx = s.rx := rfl
@[simp] theorem setHold_tx (h : Option (Byte × Byte)) : (s.setHold h).tx = s.tx := rfl
@[simp] theorem setHold_lastError (h : Option (Byte × Byte)) : (s.setHold h).lastError = s.lastError := rfl
@[simp] theorem setHold_rxen (h : Option (Byte × Byte)) : (s.setHold h).rxen = s.rxen := rfl
@[simp] theorem setHold_txen (h : Option (Byte × Byte)) : (s.setHold h).txen = s.txen := rfl
@[simp] theorem setHold_rxie (h : Option (Byte × Byte)) : (s.setHold h).rxie = s.rxie := rfl
@[simp] theorem setHold_txie (h : Option (Byte × Byte)) : (s.setHold h).txie = s.txie := rfl
@[simp] theorem setHold_baudDiv (h : Option (Byte × Byte)) : (s.setHold h).baudDiv = s.baudDiv := rfl
@[simp] theorem setHold_highSpeed (h : Option (Byte × Byte)) : (s.setHold h).highSpeed = s.highSpeed := rfl
@[simp] theorem setHold_initialised (h : Option (Byte × Byte)) : (s.setHold h).initialised = s.initialised := rfl
@[simp] theorem setHold_gie (h : Option (Byte × Byte)) : (s.setHold h).gie = s.gie := rfl
@[simp] theorem setHold_rxHold (h : Option (Byte × Byte)) : (s.setHold h).rxHold = h := rfl
@[simp] theorem setHold_txReady (h : Option (Byte × Byte)) : (s.setHold h).txReady = s.txReady := rfl
@[simp] theorem setHold_results (h : Option (Byte × Byte)) : (s.setHold h).results = s.results := rfl
@[simp] theorem setHold_fault (h : Option (Byte × Byte)) : (s.setHold h).fault = s.fault := rfl
@[simp] theorem setHold_lineOut (h : Option (Byte × Byte)) : (s.setHold h).lineOut = s.lineOut := rfl
@[simp] theorem setHold_phase (h : Option (Byte × Byte)) : (s.setHold h).phase = s.phase := rfl
@[simp] theorem setHold_program (h : Option (Byte × Byte)) : (s.setHold h).program = s.program := rfl
@[simp] theorem setHold_turns (h : Option (Byte × Byte)) : (s.setHold h).turns = s.turns := rfl
@[simp] theorem setHold_tick (h : Option (Byte × Byte)) : (s.setHold h).tick = s.tick := rfl

/-! `setProgram` -/

@[simp] theorem setProgram_cfg (ws : List Word) : (s.setProgram ws).cfg = s.cfg := rfl
@[simp] theorem setProgram_rx (ws : List Word) : (s.setProgram ws).rx = s.rx := rfl
@[simp] theorem setProgram_tx (ws : List Word) : (s.setProgram ws).tx = s.tx := rfl
@[simp] theorem setProgram_lastError (ws : List Word) : (s.setProgram ws).lastError = s.lastError := rfl
@[simp] theorem setProgram_rxen (ws : List Word) : (s.setProgram ws).rxen = s.rxen := rfl
@[simp] theorem setProgram_txen (ws : List Word) : (s.setProgram ws).txen = s.txen := rfl
@[simp] theorem setProgram_rxie (ws : List Word) : (s.setProgram ws).rxie = s.rxie := rfl
@[simp] theorem setProgram_txie (ws : List Word) : (s.setProgram ws).txie = s.txie := rfl
@[simp] theorem setProgram_baudDiv (ws : List Word) : (s.setProgram ws).baudDiv = s.baudDiv := rfl
@[simp] theorem setProgram_highSpeed (ws : List Word) : (s.setProgram ws).highSpeed = s.highSpeed := rfl
@[simp] theorem setProgram_initialised (ws : List Word) : (s.setProgram ws).initialised = s.initialised := rfl
@[simp] theorem setProgram_gie (ws : List Word) : (s.setProgram ws).gie = s.gie := rfl
@[simp] theorem setProgram_rxHold (ws : List Word) : (s.setProgram ws).rxHold = s.rxHold := rfl
@[simp] theorem setProgram_txReady (ws : List Word) : (s.setProgram ws).txReady = s.txReady := rfl
@[simp] theorem setProgram_results (ws : List Word) : (s.setProgram ws).results = s.results := rfl
@[simp] theorem setProgram_fault (ws : List Word) : (s.setProgram ws).fault = s.fault := rfl
@[simp] theorem setProgram_lineOut (ws : List Word) : (s.setProgram ws).lineOut = s.lineOut := rfl
@[simp] theorem setProgram_phase (ws : List Word) : (s.setProgram ws).phase = s.phase := rfl
@[simp] theorem setProgram_program (ws : List Word) : (s.setProgram ws).program = ws := rfl
@[simp] theorem setProgram_turns (ws : List Word) : (s.setProgram ws).turns = s.turns := rfl
@[simp] theorem setProgram_tick (ws : List Word) : (s.setProgram ws).tick = s.tick := rfl

/-! `programBaud` -/

@[simp] theorem programBaud_cfg (sel : Half) : (s.programBaud sel).cfg = s.cfg := rfl
@[simp] theorem programBaud_rx (sel : Half) : (s.programBaud sel).rx = s.rx := rfl
@[simp] theorem programBaud_tx (sel : Half) : (s.programBaud sel).tx = s.tx := rfl
@[simp] theorem programBaud_lastError (sel : Half) : (s.programBaud sel).lastError = s.lastError := rfl
@[simp] theorem programBaud_rxen (sel : Half) : (s.programBaud sel).rxen = s.rxen := rfl
@[simp] theorem programBaud_txen (sel : Half) : (s.programBaud sel).txen = s.txen := rfl
@[simp] theorem programBaud_rxie (sel : Half) : (s.programBaud sel).rxie = s.rxie := rfl
@[simp] theorem programBaud_txie (sel : Half) : (s.programBaud sel).txie = s.txie := rfl
@[simp] theorem programBaud_baudDiv (sel : Half) : (s.programBaud sel).baudDiv = selBaudDiv sel := rfl
@[simp] theorem programBaud_highSpeed (sel : Half) : (s.programBaud sel).highSpeed = selHighSpeed sel := rfl
@[simp] theorem programBaud_initialised (sel : Half) : (s.programBaud sel).initialised = s.initialised := rfl
@[simp] theorem programBaud_gie (sel : Half) : (s.programBaud sel).gie = s.gie := rfl
@[simp] theorem programBaud_rxHold (sel : Half) : (s.programBaud sel).rxHold = s.rxHold := rfl
@[simp] theorem programBaud_txReady (sel : Half) : (s.programBaud sel).txReady = s.txReady := rfl
@[simp] theorem programBaud_results (sel : Half) : (s.programBaud sel).results = s.results := rfl
@[simp] theorem programBaud_fault (sel : Half) : (s.programBaud sel).fault = s.fault := rfl
@[simp] theorem programBaud_lineOut (sel : Half) : (s.programBaud sel).lineOut = s.lineOut := rfl
@[simp] theorem programBaud_phase (sel : Half) : (s.programBaud sel).phase = s.phase := rfl
@[simp] theorem programBaud_program (sel : Half) : (s.programBaud sel).program = s.program := rfl
@[simp] theorem programBaud_turns (sel : Half) : (s.programBaud sel).turns = s.turns := rfl
@[simp] theorem programBaud_tick (sel : Half) : (s.programBaud sel).tick = s.tick := rfl

/-! `enableCore` -/

@[simp] theorem enableCore_cfg : s.enableCore.cfg = s.cfg := rfl
@[simp] theorem enableCore_rx : s.enableCore.rx = s.rx := rfl
@[simp] theorem enableCore_tx : s.enableCore.tx = s.tx := rfl
@[simp] theorem enableCore_lastError : s.enableCore.lastError = s.lastError := rfl
@[simp] theorem enableCore_rxen : s.enableCore.rxen = true := rfl
@[simp] theorem enableCore_txen : s.enableCore.txen = true := rfl
@[simp] theorem enableCore_rxie : s.enableCore.rxie = true := rfl
@[simp] theorem enableCore_txie : s.enableCore.txie = false := rfl
@[simp] theorem enableCore_baudDiv : s.enableCore.baudDiv = s.baudDiv := rfl
@[simp] theorem enableCore_highSpeed : s.enableCore.highSpeed = s.highSpeed := rfl
@[simp] theorem enableCore_initialised : s.enableCore.initialised = true := rfl
@[simp] theorem enableCore_gie : s.enableCore.gie = s.gie := rfl
@[simp] theorem enableCore_rxHold : s.enableCore.rxHold = s.rxHold := rfl
@[simp] theorem enableCore_txReady : s.enableCore.txReady = s.txReady := rfl
@[simp] theorem enableCore_results : s.enableCore.results = s.results := rfl
@[simp] theorem enableCore_fault : s.enableCore.fault = s.fault := rfl
@[simp] theorem enableCore_lineOut : s.enableCore.lineOut = s.lineOut := rfl
@[simp] theorem enableCore_phase : s.enableCore.phase = s.phase := rfl
@[simp] theorem enableCore_program : s.enableCore.program = s.program := rfl
@[simp] theorem enableCore_turns : s.enableCore.turns = s.turns := rfl
@[simp] theorem enableCore_tick : s.enableCore.tick = s.tick := rfl

/-! `raise` -/

@[simp] theorem raise_cfg (r : Fault) : (s.raise r).cfg = s.cfg := rfl
@[simp] theorem raise_rx (r : Fault) : (s.raise r).rx = s.rx := rfl
@[simp] theorem raise_tx (r : Fault) : (s.raise r).tx = s.tx := rfl
@[simp] theorem raise_lastError (r : Fault) : (s.raise r).lastError = s.lastError := rfl
@[simp] theorem raise_rxen (r : Fault) : (s.raise r).rxen = s.rxen := rfl
@[simp] theorem raise_txen (r : Fault) : (s.raise r).txen = s.txen := rfl
@[simp] theorem raise_rxie (r : Fault) : (s.raise r).rxie = s.rxie := rfl
@[simp] theorem raise_txie (r : Fault) : (s.raise r).txie = s.txie := rfl
@[simp] theorem raise_baudDiv (r : Fault) : (s.raise r).baudDiv = s.baudDiv := rfl
@[simp] theorem raise_highSpeed (r : Fault) : (s.raise r).highSpeed = s.highSpeed := rfl
@[simp] theorem raise_initialised (r : Fault) : (s.raise r).initialised = s.initialised := rfl
@[simp] theorem raise_gie (r : Fault) : (s.raise r).gie = s.gie := rfl
@[simp] theorem raise_rxHold (r : Fault) : (s.raise r).rxHold = s.rxHold := rfl
@[simp] theorem raise_txReady (r : Fault) : (s.raise r).txReady = s.txReady := rfl
@[simp] theorem raise_results (r : Fault) : (s.raise r).results = s.results := rfl
@[simp] theorem raise_fault (r : Fault) : (s.raise r).fault = some r := rfl
@[simp] theorem raise_lineOut (r : Fault) : (s.raise r).lineOut = s.lineOut := rfl
@[simp] theorem raise_phase (r : Fault) : (s.raise r).phase = s.phase := rfl
@[simp] theorem raise_program (r : Fault) : (s.raise r).program = s.program := rfl
@[simp] theorem raise_turns (r : Fault) : (s.raise r).turns = s.turns := rfl
@[simp] theorem raise_tick (r : Fault) : (s.raise r).tick = s.tick := rfl

/-! `placeEvent` -/

@[simp] theorem placeEvent_cfg (e : Event) : (s.placeEvent e).cfg = s.cfg := rfl
@[simp] theorem placeEvent_rx (e : Event) : (s.placeEvent e).rx = s.rx := rfl
@[simp] theorem placeEvent_tx (e : Event) : (s.placeEvent e).tx = s.tx := rfl
@[simp] theorem placeEvent_lastError (e : Event) : (s.placeEvent e).lastError = s.lastError := rfl
@[simp] theorem placeEvent_rxen (e : Event) : (s.placeEvent e).rxen = s.rxen := rfl
@[simp] theorem placeEvent_txen (e : Event) : (s.placeEvent e).txen = s.txen := rfl
@[simp] theorem placeEvent_rxie (e : Event) : (s.placeEvent e).rxie = s.rxie := rfl
@[simp] theorem placeEvent_txie (e : Event) : (s.placeEvent e).txie = s.txie := rfl
@[simp] theorem placeEvent_baudDiv (e : Event) : (s.placeEvent e).baudDiv = s.baudDiv := rfl
@[simp] theorem placeEvent_highSpeed (e : Event) : (s.placeEvent e).highSpeed = s.highSpeed := rfl
@[simp] theorem placeEvent_initialised (e : Event) : (s.placeEvent e).initialised = s.initialised := rfl
@[simp] theorem placeEvent_gie (e : Event) : (s.placeEvent e).gie = s.gie := rfl
@[simp] theorem placeEvent_rxHold (e : Event) : (s.placeEvent e).rxHold = s.rxHold := rfl
@[simp] theorem placeEvent_txReady (e : Event) : (s.placeEvent e).txReady = s.txReady := rfl
@[simp] theorem placeEvent_results (e : Event) : (s.placeEvent e).results = s.results := rfl
@[simp] theorem placeEvent_fault (e : Event) : (s.placeEvent e).fault = s.fault := rfl
@[simp] theorem placeEvent_lineOut (e : Event) : (s.placeEvent e).lineOut = s.lineOut := rfl
@[simp] theorem placeEvent_phase (e : Event) : (s.placeEvent e).phase = s.phase := rfl
@[simp] theorem placeEvent_program (e : Event) : (s.placeEvent e).program = s.program := rfl
@[simp] theorem placeEvent_turns (e : Event) : (s.placeEvent e).turns = .event e :: s.turns := rfl
@[simp] theorem placeEvent_tick (e : Event) : (s.placeEvent e).tick = s.tick := rfl

/-! `placeCommand` -/

@[simp] theorem placeCommand_cfg (w : Word) : (s.placeCommand w).cfg = s.cfg := rfl
@[simp] theorem placeCommand_rx (w : Word) : (s.placeCommand w).rx = s.rx := rfl
@[simp] theorem placeCommand_tx (w : Word) : (s.placeCommand w).tx = s.tx := rfl
@[simp] theorem placeCommand_lastError (w : Word) : (s.placeCommand w).lastError = s.lastError := rfl
@[simp] theorem placeCommand_rxen (w : Word) : (s.placeCommand w).rxen = s.rxen := rfl
@[simp] theorem placeCommand_txen (w : Word) : (s.placeCommand w).txen = s.txen := rfl
@[simp] theorem placeCommand_rxie (w : Word) : (s.placeCommand w).rxie = s.rxie := rfl
@[simp] theorem placeCommand_txie (w : Word) : (s.placeCommand w).txie = s.txie := rfl
@[simp] theorem placeCommand_baudDiv (w : Word) : (s.placeCommand w).baudDiv = s.baudDiv := rfl
@[simp] theorem placeCommand_highSpeed (w : Word) : (s.placeCommand w).highSpeed = s.highSpeed := rfl
@[simp] theorem placeCommand_initialised (w : Word) : (s.placeCommand w).initialised = s.initialised := rfl
@[simp] theorem placeCommand_gie (w : Word) : (s.placeCommand w).gie = s.gie := rfl
@[simp] theorem placeCommand_rxHold (w : Word) : (s.placeCommand w).rxHold = s.rxHold := rfl
@[simp] theorem placeCommand_txReady (w : Word) : (s.placeCommand w).txReady = s.txReady := rfl
@[simp] theorem placeCommand_results (w : Word) : (s.placeCommand w).results = s.results := rfl
@[simp] theorem placeCommand_fault (w : Word) : (s.placeCommand w).fault = s.fault := rfl
@[simp] theorem placeCommand_lineOut (w : Word) : (s.placeCommand w).lineOut = s.lineOut := rfl
@[simp] theorem placeCommand_phase (w : Word) : (s.placeCommand w).phase = .idle := rfl
@[simp] theorem placeCommand_program (w : Word) : (s.placeCommand w).program = w :: s.program := rfl
@[simp] theorem placeCommand_turns (w : Word) : (s.placeCommand w).turns = .fg :: s.turns := rfl
@[simp] theorem placeCommand_tick (w : Word) : (s.placeCommand w).tick = s.tick := rfl

/-! `load` -/

@[simp] theorem load_cfg (ws : List Word) (ts : List Turn) : (s.load ws ts).cfg = s.cfg := rfl
@[simp] theorem load_rx (ws : List Word) (ts : List Turn) : (s.load ws ts).rx = s.rx := rfl
@[simp] theorem load_tx (ws : List Word) (ts : List Turn) : (s.load ws ts).tx = s.tx := rfl
@[simp] theorem load_lastError (ws : List Word) (ts : List Turn) : (s.load ws ts).lastError = s.lastError := rfl
@[simp] theorem load_rxen (ws : List Word) (ts : List Turn) : (s.load ws ts).rxen = s.rxen := rfl
@[simp] theorem load_txen (ws : List Word) (ts : List Turn) : (s.load ws ts).txen = s.txen := rfl
@[simp] theorem load_rxie (ws : List Word) (ts : List Turn) : (s.load ws ts).rxie = s.rxie := rfl
@[simp] theorem load_txie (ws : List Word) (ts : List Turn) : (s.load ws ts).txie = s.txie := rfl
@[simp] theorem load_baudDiv (ws : List Word) (ts : List Turn) : (s.load ws ts).baudDiv = s.baudDiv := rfl
@[simp] theorem load_highSpeed (ws : List Word) (ts : List Turn) : (s.load ws ts).highSpeed = s.highSpeed := rfl
@[simp] theorem load_initialised (ws : List Word) (ts : List Turn) : (s.load ws ts).initialised = s.initialised := rfl
@[simp] theorem load_gie (ws : List Word) (ts : List Turn) : (s.load ws ts).gie = s.gie := rfl
@[simp] theorem load_rxHold (ws : List Word) (ts : List Turn) : (s.load ws ts).rxHold = s.rxHold := rfl
@[simp] theorem load_txReady (ws : List Word) (ts : List Turn) : (s.load ws ts).txReady = s.txReady := rfl
@[simp] theorem load_results (ws : List Word) (ts : List Turn) : (s.load ws ts).results = s.results := rfl
@[simp] theorem load_fault (ws : List Word) (ts : List Turn) : (s.load ws ts).fault = s.fault := rfl
@[simp] theorem load_lineOut (ws : List Word) (ts : List Turn) : (s.load ws ts).lineOut = s.lineOut := rfl
@[simp] theorem load_phase (ws : List Word) (ts : List Turn) : (s.load ws ts).phase = s.phase := rfl
@[simp] theorem load_program (ws : List Word) (ts : List Turn) : (s.load ws ts).program = ws := rfl
@[simp] theorem load_turns (ws : List Word) (ts : List Turn) : (s.load ws ts).turns = ts := rfl
@[simp] theorem load_tick (ws : List Word) (ts : List Turn) : (s.load ws ts).tick = s.tick := rfl

/-! `setRing`, `setHead`, `setTail` -/

@[simp] theorem setRing_cfg (B : BufId) (r : Ring) : (s.setRing B r).cfg = s.cfg := by cases B <;> rfl
@[simp] theorem setHead_cfg (B : BufId) (i : Nat) : (s.setHead B i).cfg = s.cfg := by cases B <;> rfl
@[simp] theorem setTail_cfg (B : BufId) (i : Nat) : (s.setTail B i).cfg = s.cfg := by cases B <;> rfl
@[simp] theorem setRing_lastError (B : BufId) (r : Ring) : (s.setRing B r).lastError = s.lastError := by cases B <;> rfl
@[simp] theorem setHead_lastError (B : BufId) (i : Nat) : (s.setHead B i).lastError = s.lastError := by cases B <;> rfl
@[simp] theorem setTail_lastError (B : BufId) (i : Nat) : (s.setTail B i).lastError = s.lastError := by cases B <;> rfl
@[simp] theorem setRing_rxen (B : BufId) (r : Ring) : (s.setRing B r).rxen = s.rxen := by cases B <;> rfl
@[simp] theorem setHead_rxen (B : BufId) (i : Nat) : (s.setHead B i).rxen = s.rxen := by cases B <;> rfl
@[simp] theorem setTail_rxen (B : BufId) (i : Nat) : (s.setTail B i).rxen = s.rxen := by cases B <;> rfl
@[simp] theorem setRing_txen (B : BufId) (r : Ring) : (s.setRing B r).txen = s.txen := by cases B <;> rfl
@[simp] theorem setHead_txen (B : BufId) (i : Nat) : (s.setHead B i).txen = s.txen := by cases B <;> rfl
@[simp] theorem setTail_txen (B : BufId) (i : Nat) : (s.setTail B i).txen = s.txen := by cases B <;> rfl
@[simp] theorem setRing_rxie (B : BufId) (r : Ring) : (s.setRing B r).rxie = s.rxie := by cases B <;> rfl
@[simp] theorem setHead_rxie (B : BufId) (i : Nat) : (s.setHead B i).rxie = s.rxie := by cases B <;> rfl
@[simp] theorem setTail_rxie (B : BufId) (i : Nat) : (s.setTail B i).rxie = s.rxie := by cases B <;> rfl
@[simp] theorem setRing_txie (B : BufId) (r : Ring) : (s.setRing B r).txie = s.txie := by cases B <;> rfl
@[simp] theorem setHead_txie (B : BufId) (i : Nat) : (s.setHead B i).txie = s.txie := by cases B <;> rfl
@[simp] theorem setTail_txie (B : BufId) (i : Nat) : (s.setTail B i).txie = s.txie := by cases B <;> rfl
@[simp] theorem setRing_baudDiv (B : BufId) (r : Ring) : (s.setRing B r).baudDiv = s.baudDiv := by cases B <;> rfl
@[simp] theorem setHead_baudDiv (B : BufId) (i : Nat) : (s.setHead B i).baudDiv = s.baudDiv := by cases B <;> rfl
@[simp] theorem setTail_baudDiv (B : BufId) (i : Nat) : (s.setTail B i).baudDiv = s.baudDiv := by cases B <;> rfl
@[simp] theorem setRing_highSpeed (B : BufId) (r : Ring) : (s.setRing B r).highSpeed = s.highSpeed := by cases B <;> rfl
@[simp] theorem setHead_highSpeed (B : BufId) (i : Nat) : (s.setHead B i).highSpeed = s.highSpeed := by cases B <;> rfl
@[simp] theorem setTail_highSpeed (B : BufId) (i : Nat) : (s.setTail B i).highSpeed = s.highSpeed := by cases B <;> rfl
@[simp] theorem setRing_initialised (B : BufId) (r : Ring) : (s.setRing B r).initialised = s.initialised := by cases B <;> rfl
@[simp] theorem setHead_initialised (B : BufId) (i : Nat) : (s.setHead B i).initialised = s.initialised := by cases B <;> rfl
@[simp] theorem setTail_initialised (B : BufId) (i : Nat) : (s.setTail B i).initialised = s.initialised := by cases B <;> rfl
@[simp] theorem setRing_gie (B : BufId) (r : Ring) : (s.setRing B r).gie = s.gie := by cases B <;> rfl
@[simp] theorem setHead_gie (B : BufId) (i : Nat) : (s.setHead B i).gie = s.gie := by cases B <;> rfl
@[simp] theorem setTail_gie (B : BufId) (i : Nat) : (s.setTail B i).gie = s.gie := by cases B <;> rfl
@[simp] theorem setRing_rxHold (B : BufId) (r : Ring) : (s.setRing B r).rxHold = s.rxHold := by cases B <;> rfl
@[simp] theorem setHead_rxHold (B : BufId) (i : Nat) : (s.setHead B i).rxHold = s.rxHold := by cases B <;> rfl
@[simp] theorem setTail_rxHold (B : BufId) (i : Nat) : (s.setTail B i).rxHold = s.rxHold := by cases B <;> rfl
@[simp] theorem setRing_txReady (B : BufId) (r : Ring) : (s.setRing B r).txReady = s.txReady := by cases B <;> rfl
@[simp] theorem setHead_txReady (B : BufId) (i : Nat) : (s.setHead B i).txReady = s.txReady := by cases B <;> rfl
@[simp] theorem setTail_txReady (B : BufId) (i : Nat) : (s.setTail B i).txReady = s.txReady := by cases B <;> rfl
@[simp] theorem setRing_results (B : BufId) (r : Ring) : (s.setRing B r).results = s.results := by cases B <;> rfl
@[simp] theorem setHead_results (B : BufId) (i : Nat) : (s.setHead B i).results = s.results := by cases B <;> rfl
@[simp] theorem setTail_results (B : BufId) (i : Nat) : (s.setTail B i).results = s.results := by cases B <;> rfl
@[simp] theorem setRing_fault (B : BufId) (r : Ring) : (s.setRing B r).fault = s.fault := by cases B <;> rfl
@[simp] theorem setHead_fault (B : BufId) (i : Nat) : (s.setHead B i).fault = s.fault := by cases B <;> rfl
@[simp] theorem setTail_fault (B : BufId) (i : Nat) : (s.setTail B i).fault = s.fault := by cases B <;> rfl
@[simp] theorem setRing_lineOut (B : BufId) (r : Ring) : (s.setRing B r).lineOut = s.lineOut := by cases B <;> rfl
@[simp] theorem setHead_lineOut (B : BufId) (i : Nat) : (s.setHead B i).lineOut = s.lineOut := by cases B <;> rfl
@[simp] theorem setTail_lineOut (B : BufId) (i : Nat) : (s.setTail B i).lineOut = s.lineOut := by cases B <;> rfl
@[simp] theorem setRing_phase (B : BufId) (r : Ring) : (s.setRing B r).phase = s.phase := by cases B <;> rfl
@[simp] theorem setHead_phase (B : BufId) (i : Nat) : (s.setHead B i).phase = s.phase := by cases B <;> rfl
@[simp] theorem setTail_phase (B : BufId) (i : Nat) : (s.setTail B i).phase = s.phase := by cases B <;> rfl
@[simp] theorem setRing_program (B : BufId) (r : Ring) : (s.setRing B r).program = s.program := by cases B <;> rfl
@[simp] theorem setHead_program (B : BufId) (i : Nat) : (s.setHead B i).program = s.program := by cases B <;> rfl
@[simp] theorem setTail_program (B : BufId) (i : Nat) : (s.setTail B i).program = s.program := by cases B <;> rfl
@[simp] theorem setRing_turns (B : BufId) (r : Ring) : (s.setRing B r).turns = s.turns := by cases B <;> rfl
@[simp] theorem setHead_turns (B : BufId) (i : Nat) : (s.setHead B i).turns = s.turns := by cases B <;> rfl
@[simp] theorem setTail_turns (B : BufId) (i : Nat) : (s.setTail B i).turns = s.turns := by cases B <;> rfl
@[simp] theorem setRing_tick (B : BufId) (r : Ring) : (s.setRing B r).tick = s.tick := by cases B <;> rfl
@[simp] theorem setHead_tick (B : BufId) (i : Nat) : (s.setHead B i).tick = s.tick := by cases B <;> rfl
@[simp] theorem setTail_tick (B : BufId) (i : Nat) : (s.setTail B i).tick = s.tick := by cases B <;> rfl

@[simp] theorem setRing_rx_rx (r : Ring) : (s.setRing .rx r).rx = r := rfl
@[simp] theorem setRing_rx_tx (r : Ring) : (s.setRing .rx r).tx = s.tx := rfl
@[simp] theorem setRing_tx_rx (r : Ring) : (s.setRing .tx r).rx = s.rx := rfl
@[simp] theorem setRing_tx_tx (r : Ring) : (s.setRing .tx r).tx = r := rfl
@[simp] theorem setHead_rx_rx (i : Nat) : (s.setHead .rx i).rx = { s.rx with head := i } := rfl
@[simp] theorem setHead_rx_tx (i : Nat) : (s.setHead .rx i).tx = s.tx := rfl
@[simp] theorem setHead_tx_rx (i : Nat) : (s.setHead .tx i).rx = s.rx := rfl
@[simp] theorem setHead_tx_tx (i : Nat) : (s.setHead .tx i).tx = { s.tx with head := i } := rfl
@[simp] theorem setTail_rx_rx (i : Nat) : (s.setTail .rx i).rx = { s.rx with tail := i } := rfl
@[simp] theorem setTail_rx_tx (i : Nat) : (s.setTail .rx i).tx = s.tx := rfl
@[simp] theorem setTail_tx_rx (i : Nat) : (s.setTail .tx i).rx = s.rx := rfl
@[simp] theorem setTail_tx_tx (i : Nat) : (s.setTail .tx i).tx = { s.tx with tail := i } := rfl

/-! `takeTurn` touches the schedule only -/

@[simp] theorem takeTurn_cfg : s.takeTurn.cfg = s.cfg := by unfold takeTurn; split <;> rfl
@[simp] theorem takeTurn_rx : s.takeTurn.rx = s.rx := by unfold takeTurn; split <;> rfl
@[simp] theorem takeTurn_tx : s.takeTurn.tx = s.tx := by unfold takeTurn; split <;> rfl
@[simp] theorem takeTurn_lastError : s.takeTurn.lastError = s.lastError := by unfold takeTurn; split <;> rfl
@[simp] theorem takeTurn_rxen : s.takeTurn.rxen = s.rxen := by unfold takeTurn; split <;> rfl
@[simp] theorem takeTurn_txen : s.takeTurn.txen = s.txen := by unfold takeTurn; split <;> rfl
@[simp] theorem takeTurn_rxie : s.takeTurn.rxie = s.rxie := by unfold takeTurn; split <;> rfl
@[simp] theorem takeTurn_txie : s.takeTurn.txie = s.txie := by unfold takeTurn; split <;> rfl
@[simp] theorem takeTurn_baudDiv : s.takeTurn.baudDiv = s.baudDiv := by unfold takeTurn; split <;> rfl
@[simp] theorem takeTurn_highSpeed : s.takeTurn.highSpeed = s.highSpeed := by unfold takeTurn; split <;> rfl
@[simp] theorem takeTurn_initialised : s.takeTurn.initialised = s.initialised := by unfold takeTurn; split <;> rfl
@[simp] theorem takeTurn_gie : s.takeTurn.gie = s.gie := by unfold takeTurn; split <;> rfl
@[simp] theorem takeTurn_rxHold : s.takeTurn.rxHold = s.rxHold := by unfold takeTurn; split <;> rfl
@[simp] theorem takeTurn_txReady : s.takeTurn.txReady = s.txReady := by unfold takeTurn; split <;> rfl
@[simp] theorem takeTurn_results : s.takeTurn.results = s.results := by unfold takeTurn; split <;> rfl
@[simp] theorem takeTurn_fault : s.takeTurn.fault = s.fault := by unfold takeTurn; split <;> rfl
@[simp] theorem takeTurn_lineOut : s.takeTurn.lineOut = s.lineOut := by unfold takeTurn; split <;> rfl
@[simp] theorem takeTurn_phase : s.takeTurn.phase = s.phase := by unfold takeTurn; split <;> rfl
@[simp] theorem takeTurn_program : s.takeTurn.program = s.program := by unfold takeTurn; split <;> rfl

theorem takeTurn_listed (t : Turn) (ts : List Turn) (h : s.turns = t :: ts) : s.takeTurn = { s with turns := ts } := by
  unfold takeTurn; rw [h]

theorem takeTurn_free (h : s.turns = []) : s.takeTurn = { s with tick := s.tick + 1 } := by
  unfold takeTurn; rw [h]

theorem nextTurn_listed (t : Turn) (ts : List Turn) (h : s.turns = t :: ts) : s.nextTurn = t := by
  unfold nextTurn; rw [h]

/-! Reading a buffer back -/

@[simp] theorem ring_rx : s.ring .rx = s.rx := rfl
@[simp] theorem ring_tx : s.ring .tx = s.tx := rfl

@[simp] theorem ring_setRing (B : BufId) (r : Ring) : (s.setRing B r).ring B = r := by cases B <;> rfl

theorem ring_setRing_other (B C : BufId) (r : Ring) (h : C ≠ B) : (s.setRing B r).ring C = s.ring C := by
  cases B <;> cases C <;> first | rfl | exact absurd rfl h

@[simp] theorem ring_setHead (B : BufId) (i : Nat) : (s.setHead B i).ring B = { s.ring B with head := i } := by
  cases B <;> rfl

@[simp] theorem ring_setTail (B : BufId) (i : Nat) : (s.setTail B i).ring B = { s.ring B with tail := i } := by
  cases B <;> rfl

end updates

end Sys2Proof.Machine.State
end

