-- ==== Sys2Proof/Laws/Ring.lean ====
section
/-! SUPPORT. Index arithmetic and the circular buffer: the mask is a remainder, next stays in range, Push and Pop
always succeed, and what each does to a buffer's contents. -/

namespace Sys2Proof

/-- A capacity is a power of two, at least 2 (R12). -/
theorem validCapacity_pow (n : Nat) (h : validCapacity n = true) : ∃ k, n = 2 ^ k ∧ 2 ≤ n := by
  simp only [validCapacity, Bool.and_eq_true, decide_eq_true_eq, beq_iff_eq] at h
  exact ⟨Nat.log2 n, h.2, h.1⟩

namespace Config

theorem capacity_pow (c : Config) (B : BufId) : ∃ k, c.capacity B = 2 ^ k ∧ 2 ≤ c.capacity B := by
  have h := c.valid
  simp only [validConfig, Bool.and_eq_true] at h
  cases B
  · exact validCapacity_pow _ h.1.1.1
  · exact validCapacity_pow _ h.1.1.2

theorem two_le_capacity (c : Config) (B : BufId) : 2 ≤ c.capacity B := (c.capacity_pow B).elim fun _ h => h.2

theorem capacity_pos (c : Config) (B : BufId) : 0 < c.capacity B := Nat.lt_of_lt_of_le (by decide) (c.two_le_capacity B)

theorem capacity_le_idx (c : Config) (B : BufId) : c.capacity B ≤ 2 ^ c.idxW := by
  have h := c.valid
  simp only [validConfig, Bool.and_eq_true, decide_eq_true_eq] at h
  cases B
  · exact h.1.2
  · exact h.2

/-- Masking is the remainder modulo the capacity (R100, R101). -/
theorem and_mask (c : Config) (B : BufId) (x : Nat) : x &&& c.mask B = x % c.capacity B := by
  obtain ⟨k, hk, _⟩ := c.capacity_pow B
  simp only [mask, hk, Nat.and_two_pow_sub_one_eq_mod]

end Config

namespace Machine.State

theorem nextIdx_eq_mod (s : State) (B : BufId) (i : Nat) : s.nextIdx B i = (i + 1) % s.cfg.capacity B :=
  s.cfg.and_mask B (i + 1)

theorem nextIdx_lt (s : State) (B : BufId) (i : Nat) : s.nextIdx B i < s.cfg.capacity B := by
  rw [nextIdx_eq_mod]; exact Nat.mod_lt _ (s.cfg.capacity_pos B)

theorem nextHead_lt (s : State) (B : BufId) : s.nextHead B < s.cfg.capacity B := s.nextIdx_lt B _

theorem nextTail_lt (s : State) (B : BufId) : s.nextTail B < s.cfg.capacity B := s.nextIdx_lt B _

theorem count_eq_mod (s : State) (B : BufId) :
    s.count B = ((s.ring B).head + (s.cfg.capacity B - (s.ring B).tail % s.cfg.capacity B)) % s.cfg.capacity B :=
  s.cfg.and_mask B _

theorem count_lt (s : State) (B : BufId) : s.count B < s.cfg.capacity B := by
  rw [count_eq_mod]; exact Nat.mod_lt _ (s.cfg.capacity_pos B)

theorem isEmpty_iff (s : State) (B : BufId) : s.isEmpty B = true ↔ (s.ring B).head = (s.ring B).tail := by
  simp [isEmpty]

theorem isFull_iff (s : State) (B : BufId) : s.isFull B = true ↔ s.nextHead B = (s.ring B).tail := by
  simp [isFull]

/-- Adding the count to the tail gives the head. -/
theorem tail_add_count (s : State) (B : BufId) (hh : (s.ring B).head < s.cfg.capacity B)
    (ht : (s.ring B).tail < s.cfg.capacity B) :
    ((s.ring B).tail + s.count B) % s.cfg.capacity B = (s.ring B).head := by
  rw [count_eq_mod, Nat.mod_eq_of_lt ht, Nat.add_mod_mod]
  have : (s.ring B).tail + ((s.ring B).head + (s.cfg.capacity B - (s.ring B).tail))
      = (s.ring B).head + s.cfg.capacity B := by omega
  rw [this, Nat.add_mod_right, Nat.mod_eq_of_lt hh]

/-- The count in range, without the remainder. -/
theorem count_cases (s : State) (B : BufId) (hh : (s.ring B).head < s.cfg.capacity B)
    (ht : (s.ring B).tail < s.cfg.capacity B) :
    s.count B = if (s.ring B).tail ≤ (s.ring B).head then (s.ring B).head - (s.ring B).tail
      else (s.ring B).head + s.cfg.capacity B - (s.ring B).tail := by
  rw [count_eq_mod, Nat.mod_eq_of_lt ht]
  split
  · have : (s.ring B).head + (s.cfg.capacity B - (s.ring B).tail)
        = (s.ring B).head - (s.ring B).tail + s.cfg.capacity B := by omega
    rw [this, Nat.add_mod_right, Nat.mod_eq_of_lt (by omega)]
  · rw [Nat.mod_eq_of_lt (by omega)]; omega

/-- `(i + 1) % N` in range, without the remainder. -/
theorem nextIdx_cases (s : State) (B : BufId) (i : Nat) (hi : i < s.cfg.capacity B) :
    s.nextIdx B i = if i + 1 = s.cfg.capacity B then 0 else i + 1 := by
  rw [nextIdx_eq_mod]
  split
  · next h => rw [h, Nat.mod_self]
  · rw [Nat.mod_eq_of_lt (by omega)]

/-! MemRead and MemWrite -/

theorem memRead_ok (s : State) (B : BufId) (i : Nat) (h : i < s.cfg.capacity B) :
    s.memRead B i = .ok (s.slot B i) := by
  rw [memRead, if_neg (by omega)]

theorem memWrite_ok (s : State) (B : BufId) (i : Nat) (v : Byte) (h : i < s.cfg.capacity B) :
    s.memWrite B i v = .ok (s.setRing B { s.ring B with storage := Memory.set (s.ring B).storage i v }) := by
  rw [memWrite, if_neg (by omega)]

/-- Reading a slot after a write to it gives the byte written; every other slot, of either buffer, is as before. -/
theorem slot_setRing_set (s : State) (B C : BufId) (i a : Nat) (v : Byte) :
    (s.setRing B { s.ring B with storage := Memory.set (s.ring B).storage i v }).slot C a
      = if C = B ∧ a = i then v else s.slot C a := by
  by_cases hC : C = B
  · subst hC
    by_cases ha : a = i
    · subst ha; simp [slot]
    · simp [slot, ha, Memory.get?_set_other]
  · rw [if_neg (by simp [hC]), slot, slot, ring_setRing_other _ _ _ _ hC]

@[simp] theorem slot_setHead (s : State) (B C : BufId) (i a : Nat) : (s.setHead B i).slot C a = s.slot C a := by
  cases B <;> cases C <;> rfl

@[simp] theorem slot_setTail (s : State) (B C : BufId) (i a : Nat) : (s.setTail B i).slot C a = s.slot C a := by
  cases B <;> cases C <;> rfl

/-! Push and Pop (R107): they never fault, whatever the state -/

/-- The state Push leaves. -/
theorem push_eq (s : State) (B : BufId) (v : Byte) :
    s.push B v = .ok (s.setRing B { s.ring B with
      head := s.nextHead B, storage := Memory.set (s.ring B).storage (s.nextHead B) v }) := by
  rw [push, memWrite_ok _ _ _ _ (s.nextHead_lt B)]
  cases B <;> rfl

/-- The byte Pop gives and the state it leaves. -/
theorem pop_eq (s : State) (B : BufId) :
    s.pop B = .ok (s.slot B (s.nextTail B), s.setTail B (s.nextTail B)) := by
  have h : s.nextTail B < (s.setTail B (s.nextTail B)).cfg.capacity B := by
    rw [setTail_cfg]; exact s.nextTail_lt B
  simp only [pop, memRead_ok _ _ _ h, slot_setTail]

theorem count_eq_zero_iff (s : State) (B : BufId) (hh : (s.ring B).head < s.cfg.capacity B)
    (ht : (s.ring B).tail < s.cfg.capacity B) : s.count B = 0 ↔ s.isEmpty B = true := by
  rw [isEmpty_iff, count_cases s B hh ht]
  split <;> omega

theorem isFull_iff_count (s : State) (B : BufId) (hh : (s.ring B).head < s.cfg.capacity B)
    (ht : (s.ring B).tail < s.cfg.capacity B) : s.isFull B = true ↔ s.count B = s.cfg.capacity B - 1 := by
  rw [isFull_iff, nextHead, nextIdx_cases s B _ hh, count_cases s B hh ht]
  have := s.cfg.two_le_capacity B
  split <;> split <;> omega

theorem ringOk_iff (s : State) (B : BufId) : s.ringOk B = true ↔
    (s.ring B).head < s.cfg.capacity B ∧ (s.ring B).tail < s.cfg.capacity B
      ∧ Memory.wf (s.cfg.capacity B) (s.ring B).storage = true := by
  simp [ringOk, and_assoc]

/-! Contents -/

@[simp] theorem contents_length (s : State) (B : BufId) : (s.contents B).length = s.count B := by
  simp [contents]

theorem contents_eq_nil_iff (s : State) (B : BufId) : s.contents B = [] ↔ s.count B = 0 := by
  rw [← List.length_eq_zero_iff, contents_length]

/-- What a buffer holds depends on its ring and the configuration only. -/
theorem contents_congr (s t : State) (B : BufId) (hc : t.cfg = s.cfg) (hr : t.ring B = s.ring B) :
    t.contents B = s.contents B := by
  simp only [contents, count, slot, nextIdx, hc, hr]

/-- Slot numbers of the live bytes never meet the slot after the head, unless the buffer is full and more. -/
theorem nextIdx_add_ne (s : State) (B : BufId) (t j k : Nat) (hj : j < s.cfg.capacity B)
    (hk : k < s.cfg.capacity B) (hjk : j ≠ k) : s.nextIdx B (t + j) ≠ s.nextIdx B (t + k) := by
  rw [nextIdx_eq_mod, nextIdx_eq_mod]
  intro h
  have h' : (t + 1 + j) % s.cfg.capacity B = (t + 1 + k) % s.cfg.capacity B := by
    have a : t + 1 + j = t + j + 1 := by omega
    have b : t + 1 + k = t + k + 1 := by omega
    rw [a, b]; exact h
  have h2 := Nat.ModEq.add_left_cancel' (t + 1) h'
  rw [Nat.ModEq, Nat.mod_eq_of_lt hj, Nat.mod_eq_of_lt hk] at h2
  exact hjk h2

theorem nextIdx_mod (s : State) (B : BufId) (i : Nat) : s.nextIdx B (i % s.cfg.capacity B) = s.nextIdx B i := by
  rw [nextIdx_eq_mod, nextIdx_eq_mod, Nat.mod_add_mod]

/-- The slot after the head is the slot of the byte after the last live one. -/
theorem nextHead_eq (s : State) (B : BufId) (hh : (s.ring B).head < s.cfg.capacity B)
    (ht : (s.ring B).tail < s.cfg.capacity B) : s.nextHead B = s.nextIdx B ((s.ring B).tail + s.count B) := by
  rw [← nextIdx_mod s B ((s.ring B).tail + s.count B), tail_add_count s B hh ht, nextHead]

/-- Storing at a slot that holds no live byte leaves the contents. -/
theorem contents_store (s : State) (B : BufId) (i : Nat) (v : Byte)
    (hi : ∀ k, k < s.count B → s.nextIdx B ((s.ring B).tail + k) ≠ i) :
    (s.setRing B { s.ring B with storage := Memory.set (s.ring B).storage i v }).contents B = s.contents B := by
  have hc : (s.setRing B { s.ring B with storage := Memory.set (s.ring B).storage i v }).count B = s.count B := by
    cases B <;> rfl
  rw [contents, contents, hc]
  refine List.map_congr_left fun k hk => ?_
  rw [List.mem_range] at hk
  have hn : (s.setRing B { s.ring B with storage := Memory.set (s.ring B).storage i v }).nextIdx B
      (((s.setRing B { s.ring B with storage := Memory.set (s.ring B).storage i v }).ring B).tail + k)
      = s.nextIdx B ((s.ring B).tail + k) := by cases B <;> rfl
  rw [hn, slot_setRing_set, if_neg (by rintro ⟨_, h⟩; exact hi k hk h)]

/-- No live slot is the slot after the head. -/
theorem live_ne_nextHead (s : State) (B : BufId) (hh : (s.ring B).head < s.cfg.capacity B)
    (ht : (s.ring B).tail < s.cfg.capacity B) (k : Nat) (hk : k < s.count B) :
    s.nextIdx B ((s.ring B).tail + k) ≠ s.nextHead B := by
  rw [nextHead_eq s B hh ht]
  exact nextIdx_add_ne s B _ _ _ (Nat.lt_trans hk (s.count_lt B)) (s.count_lt B) (by omega)

/-- The count after publishing the next head of a buffer that is not full. -/
theorem count_setHead (s : State) (B : BufId) (hh : (s.ring B).head < s.cfg.capacity B)
    (ht : (s.ring B).tail < s.cfg.capacity B) (hf : s.isFull B = false) :
    (s.setHead B (s.nextHead B)).count B = s.count B + 1 := by
  have hnf : s.nextHead B ≠ (s.ring B).tail := fun h => by
    have := (s.isFull_iff B).2 h; rw [hf] at this; exact absurd this (by simp)
  rw [count_cases _ B (by simpa using s.nextHead_lt B) (by simpa using ht), count_cases s B hh ht]
  simp only [ring_setHead, setHead_cfg]
  rw [nextHead, nextIdx_cases s B _ hh] at hnf ⊢
  split at hnf <;> split <;> split <;> first | omega | (split <;> omega)

/-- Publishing the next head of a buffer that is not full appends the byte in that slot. -/
theorem contents_setHead (s : State) (B : BufId) (hh : (s.ring B).head < s.cfg.capacity B)
    (ht : (s.ring B).tail < s.cfg.capacity B) (hf : s.isFull B = false) :
    (s.setHead B (s.nextHead B)).contents B = s.contents B ++ [s.slot B (s.nextHead B)] := by
  rw [contents, count_setHead s B hh ht hf, List.range_succ, List.map_append, List.map_singleton]
  have hn : ∀ i, (s.setHead B (s.nextHead B)).nextIdx B i = s.nextIdx B i := fun i => by
    simp only [nextIdx, setHead_cfg]
  simp only [slot_setHead, ring_setHead, hn]
  rw [nextHead_eq s B hh ht]
  rfl

/-- The count after consuming from a buffer that is not empty. -/
theorem count_setTail (s : State) (B : BufId) (hh : (s.ring B).head < s.cfg.capacity B)
    (ht : (s.ring B).tail < s.cfg.capacity B) (he : s.isEmpty B = false) :
    (s.setTail B (s.nextTail B)).count B + 1 = s.count B := by
  have hne : (s.ring B).head ≠ (s.ring B).tail := fun h => by
    have := (s.isEmpty_iff B).2 h; rw [he] at this; exact absurd this (by simp)
  rw [count_cases _ B (by simpa using hh) (by simpa using s.nextTail_lt B), count_cases s B hh ht]
  simp only [ring_setTail, setTail_cfg]
  rw [nextTail, nextIdx_cases s B _ ht]
  split <;> split <;> split <;> omega

/-- A buffer that is not empty holds the byte after its tail first, and publishing the next tail drops it. -/
theorem contents_setTail (s : State) (B : BufId) (hh : (s.ring B).head < s.cfg.capacity B)
    (ht : (s.ring B).tail < s.cfg.capacity B) (he : s.isEmpty B = false) :
    s.contents B = s.slot B (s.nextTail B) :: (s.setTail B (s.nextTail B)).contents B := by
  rw [contents, ← count_setTail s B hh ht he, List.range_succ_eq_map, List.map_cons, List.map_map]
  congr 1
  rw [contents]
  refine List.map_congr_left fun k _ => ?_
  have hn : (s.setTail B (s.nextTail B)).nextIdx B (s.nextTail B + k) = s.nextIdx B ((s.ring B).tail + (k + 1)) := by
    rw [nextIdx_eq_mod, nextIdx_eq_mod, setTail_cfg, nextTail, nextIdx_eq_mod, Nat.add_assoc, Nat.mod_add_mod]
    congr 1; omega
  simp only [Function.comp_apply, slot_setTail, ring_setTail, hn, Nat.succ_eq_add_one]

/-- BufInit leaves nothing (R102). -/
theorem contents_bufInit (s : State) (B : BufId) (hh : (s.ring B).head < s.cfg.capacity B) :
    (s.bufInit B).contents B = [] := by
  rw [contents_eq_nil_iff, count_eq_zero_iff _ B (by simpa [bufInit] using hh) (by simpa [bufInit] using hh),
    isEmpty_iff]
  simp [bufInit]

/-- Every live slot is written, in terms of slots. -/
theorem liveWritten_iff (s : State) (B : BufId) : s.liveWritten B = true ↔
    ∀ k, k < s.count B → (Memory.get? (s.ring B).storage (s.nextIdx B ((s.ring B).tail + k))).isSome = true := by
  simp [liveWritten]

/-! Full and empty, storing, Push and Pop -/

theorem isFull_false_iff (s : State) (B : BufId) : s.isFull B = false ↔ s.nextHead B ≠ (s.ring B).tail := by
  simp [isFull]

theorem isEmpty_false_iff (s : State) (B : BufId) : s.isEmpty B = false ↔ (s.ring B).head ≠ (s.ring B).tail := by
  simp [isEmpty]

/-- A full buffer is not empty: it holds N - 1 bytes, at least one (R100, R105). -/
theorem not_empty_of_full (s : State) (B : BufId) (hok : s.ringOk B = true) (hf : s.isFull B = true) :
    s.isEmpty B = false := by
  obtain ⟨hh, ht, _⟩ := (s.ringOk_iff B).1 hok
  rw [Bool.eq_false_iff]
  intro he
  have h1 := (s.count_eq_zero_iff B hh ht).2 he
  have h2 := (s.isFull_iff_count B hh ht).1 hf
  have := s.cfg.two_le_capacity B
  omega

theorem not_full_of_empty (s : State) (B : BufId) (hok : s.ringOk B = true) (he : s.isEmpty B = true) :
    s.isFull B = false := by
  rw [Bool.eq_false_iff]
  intro hf
  have := s.not_empty_of_full B hok hf
  rw [he] at this
  cases this

/-- Different indices have different successors. -/
theorem nextHead_ne_nextTail (s : State) (B : BufId) (hok : s.ringOk B = true) (he : s.isEmpty B = false) :
    s.nextHead B ≠ s.nextTail B := by
  obtain ⟨hh, ht, _⟩ := (s.ringOk_iff B).1 hok
  rw [isEmpty_false_iff] at he
  rw [nextHead, nextTail, nextIdx_cases _ _ _ hh, nextIdx_cases _ _ _ ht]
  split <;> split <;> omega

theorem ringOk_store (s : State) (B : BufId) (i : Nat) (v : Byte) (hi : i < s.cfg.capacity B)
    (h : s.ringOk B = true) :
    (s.setRing B { s.ring B with storage := Memory.set (s.ring B).storage i v }).ringOk B = true := by
  rw [ringOk_iff] at *
  simp only [ring_setRing, setRing_cfg]
  exact ⟨h.1, h.2.1, Memory.wf_set _ _ _ _ hi h.2.2⟩

theorem ringOk_setHead (s : State) (B : BufId) (h : s.ringOk B = true) (i : Nat) (hi : i < s.cfg.capacity B) :
    (s.setHead B i).ringOk B = true := by
  rw [ringOk_iff] at *
  simp only [ring_setHead, setHead_cfg]
  exact ⟨hi, h.2.1, h.2.2⟩

theorem ringOk_setTail (s : State) (B : BufId) (h : s.ringOk B = true) (i : Nat) (hi : i < s.cfg.capacity B) :
    (s.setTail B i).ringOk B = true := by
  rw [ringOk_iff] at *
  simp only [ring_setTail, setTail_cfg]
  exact ⟨h.1, hi, h.2.2⟩

/-- Push on a buffer that is not full appends its byte (R107). -/
theorem push_contents (s : State) (B : BufId) (v : Byte) (hok : s.ringOk B = true) (hf : s.isFull B = false) :
    ∃ t, s.push B v = .ok t ∧ t.contents B = s.contents B ++ [v] ∧ t.ringOk B = true ∧ t.cfg = s.cfg := by
  obtain ⟨hh, ht, _⟩ := (s.ringOk_iff B).1 hok
  set u := s.setRing B { s.ring B with storage := Memory.set (s.ring B).storage (s.nextHead B) v } with hu
  have hc : u.contents B = s.contents B := s.contents_store B _ _ fun k hk => s.live_ne_nextHead B hh ht k hk
  have huok : u.ringOk B = true := s.ringOk_store B _ v (s.nextHead_lt B) hok
  have hnh : u.nextHead B = s.nextHead B := by simp [nextHead, nextIdx, hu]
  have hfu : u.isFull B = false := by
    have hr : (u.ring B).tail = (s.ring B).tail := by simp [hu]
    rw [← hf, isFull, hnh, hr]
    rfl
  obtain ⟨hh', ht', _⟩ := (u.ringOk_iff B).1 huok
  refine ⟨u.setHead B (u.nextHead B), ?_, ?_, u.ringOk_setHead B huok _ (u.nextHead_lt B), by simp [hu]⟩
  · rw [push, memWrite_ok _ _ _ _ (s.nextHead_lt B), hnh]
  · rw [u.contents_setHead B hh' ht' hfu, hc, hnh, hu, slot_setRing_set]
    simp

/-- Pop on a buffer that is not empty gives its oldest byte and drops it (R107). -/
theorem pop_contents (s : State) (B : BufId) (hok : s.ringOk B = true) (he : s.isEmpty B = false) :
    ∃ b t, s.pop B = .ok (b, t) ∧ s.contents B = b :: t.contents B ∧ t.ringOk B = true ∧ t.cfg = s.cfg := by
  obtain ⟨hh, ht, _⟩ := (s.ringOk_iff B).1 hok
  exact ⟨_, _, s.pop_eq B, s.contents_setTail B hh ht he, s.ringOk_setTail B hok _ (s.nextTail_lt B), by simp⟩

/-! Live slots stay written -/

theorem liveWritten_store (s : State) (B : BufId) (i : Nat) (v : Byte) (h : s.liveWritten B = true) :
    (s.setRing B { s.ring B with storage := Memory.set (s.ring B).storage i v }).liveWritten B = true := by
  rw [liveWritten_iff] at *
  intro k hk
  have hc : (s.setRing B { s.ring B with storage := Memory.set (s.ring B).storage i v }).count B = s.count B := by
    cases B <;> rfl
  have hn : (s.setRing B { s.ring B with storage := Memory.set (s.ring B).storage i v }).nextIdx B
      (((s.setRing B { s.ring B with storage := Memory.set (s.ring B).storage i v }).ring B).tail + k)
      = s.nextIdx B ((s.ring B).tail + k) := by cases B <;> rfl
  rw [hc] at hk
  rw [hn, ring_setRing, Memory.get?_set]
  split
  · rfl
  · exact h k hk

theorem liveWritten_setHead (s : State) (B : BufId) (hok : s.ringOk B = true) (h : s.liveWritten B = true)
    (hf : s.isFull B = false) (hw : (Memory.get? (s.ring B).storage (s.nextHead B)).isSome = true) :
    (s.setHead B (s.nextHead B)).liveWritten B = true := by
  obtain ⟨hh, ht, _⟩ := (s.ringOk_iff B).1 hok
  rw [liveWritten_iff] at *
  intro k hk
  rw [count_setHead s B hh ht hf] at hk
  have hn : ∀ i, (s.setHead B (s.nextHead B)).nextIdx B i = s.nextIdx B i := fun i => by
    simp only [nextIdx, setHead_cfg]
  rw [hn]
  simp only [ring_setHead]
  by_cases hk' : k < s.count B
  · exact h k hk'
  · have hkc : k = s.count B := by omega
    subst hkc
    rw [← nextHead_eq s B hh ht]
    exact hw

theorem liveWritten_setTail (s : State) (B : BufId) (hok : s.ringOk B = true) (h : s.liveWritten B = true)
    (he : s.isEmpty B = false) : (s.setTail B (s.nextTail B)).liveWritten B = true := by
  obtain ⟨hh, ht, _⟩ := (s.ringOk_iff B).1 hok
  rw [liveWritten_iff] at *
  intro k hk
  have hc := count_setTail s B hh ht he
  have hn : (s.setTail B (s.nextTail B)).nextIdx B (s.nextTail B + k) = s.nextIdx B ((s.ring B).tail + (k + 1)) := by
    rw [nextIdx_eq_mod, nextIdx_eq_mod, setTail_cfg, nextTail, nextIdx_eq_mod, Nat.add_assoc, Nat.mod_add_mod]
    congr 1
    omega
  simp only [ring_setTail]
  rw [hn]
  exact h (k + 1) (by omega)

theorem liveWritten_of_empty (s : State) (B : BufId) (hok : s.ringOk B = true) (he : s.isEmpty B = true) :
    s.liveWritten B = true := by
  obtain ⟨hh, ht, _⟩ := (s.ringOk_iff B).1 hok
  rw [liveWritten_iff]
  intro k hk
  rw [(count_eq_zero_iff s B hh ht).2 he] at hk
  omega

end Machine.State

end Sys2Proof
end

