-- ==== Sys2Proof/Laws/Exec.lean ====
section
/-! SUPPORT. What the shared operations and each operation's one step can do, as equations: the state after it, by
case. Every operation answers a next state in every state. -/

namespace Sys2Proof.Machine

open Host

/-! ### Shared operations -/

theorem State.whenEnabled_true (s : State) (e : Bool) (o : Outcome State Fault Refusal) (h : e = true) :
    s.whenEnabled e o = o := by
  simp [State.whenEnabled, h]

theorem State.whenEnabled_false (s : State) (e : Bool) (o : Outcome State Fault Refusal) (h : e = false) :
    s.whenEnabled e o = .next s := by
  simp [State.whenEnabled, h]

theorem State.whenIdle_idle (s : State) (o : Outcome State Fault Refusal) (h : s.phase = .idle) : s.whenIdle o = o := by
  simp [State.whenIdle, h]

theorem State.whenIdle_busy (s : State) (o : Outcome State Fault Refusal) (h : s.phase ≠ .idle) :
    s.whenIdle o = .next s := by
  unfold State.whenIdle
  split
  · next hp => exact absurd hp h
  · rfl

@[simp] theorem State.finish_ok (s t : State) : s.finish (.ok t) = .next t := rfl

@[simp] theorem State.finish_error (s : State) (r : Fault) : s.finish (.error r) = .next (s.raise r) := rfl

theorem State.enter_ok (s : State) (p : Phase) (h : s.initialised = true) :
    s.enter p = .next { s with phase := p } := if_pos h

theorem State.enter_fault (s : State) (p : Phase) (h : s.initialised = false) :
    s.enter p = .next (s.raise .notInitialised) := if_neg (by simp [h])

/-! ### Receive path -/

theorem receiveByte_full (b status : Byte) (s : State) (h : s.isFull .rx = true) :
    receiveByte b status s = .ok (s.accumulate (overflowCandidate status)) := by
  simp [receiveByte, h]

/-- What RXH leaves in the receive buffer with room: the byte stored after the head, then published. -/
def storedRx (s : State) (b : Byte) : Ring :=
  { head := s.nextHead .rx, tail := s.rx.tail, storage := Memory.set s.rx.storage (s.nextHead .rx) b }

theorem receiveByte_room (b status : Byte) (s : State) (h : s.isFull .rx = false) :
    receiveByte b status s = .ok ((s.setRing .rx (storedRx s b)).accumulate (lastErrorCandidate status)) := by
  rw [receiveByte, if_neg (by simp [h]), State.push_eq]
  rfl

theorem execRxh_none (s : State) (h : s.rxHold = none) : execRxh s = .next s := by
  simp [execRxh, h]

theorem execRxh_disabled (s : State) (h : s.rxhEnabled = false) : execRxh s = .next s := by
  unfold execRxh
  split
  · exact State.whenEnabled_false _ _ _ h
  · rfl

theorem execRxh_full (s : State) (b status : Byte) (he : s.rxhEnabled = true) (hh : s.rxHold = some (b, status))
    (hf : s.isFull .rx = true) :
    execRxh s = .next { s with rxHold := none, lastError := s.lastError ||| overflowCandidate status } := by
  have hf' : (s.setHold none).isFull .rx = true := hf
  simp only [execRxh, hh, State.whenEnabled_true _ _ _ he, receiveByte_full _ _ _ hf', State.finish_ok]
  rfl

theorem execRxh_room (s : State) (b status : Byte) (he : s.rxhEnabled = true) (hh : s.rxHold = some (b, status))
    (hf : s.isFull .rx = false) :
    execRxh s = .next { s with
      rxHold := none, rx := storedRx s b, lastError := s.lastError ||| lastErrorCandidate status } := by
  have hf' : (s.setHold none).isFull .rx = false := hf
  simp only [execRxh, hh, State.whenEnabled_true _ _ _ he, receiveByte_room _ _ _ hf', State.finish_ok]
  rfl

/-- RXH, by case: not enabled, dropped, or stored. -/
theorem execRxh_cases (s : State) :
    (s.rxhEnabled = false ∧ execRxh s = .next s)
    ∨ (∃ b status, s.rxhEnabled = true ∧ s.rxHold = some (b, status) ∧ s.isFull .rx = true
        ∧ execRxh s = .next { s with rxHold := none, lastError := s.lastError ||| overflowCandidate status })
    ∨ (∃ b status, s.rxhEnabled = true ∧ s.rxHold = some (b, status) ∧ s.isFull .rx = false
        ∧ execRxh s = .next { s with
            rxHold := none, rx := storedRx s b, lastError := s.lastError ||| lastErrorCandidate status }) := by
  cases he : s.rxhEnabled with
  | false => exact .inl ⟨rfl, execRxh_disabled s he⟩
  | true =>
    have hs : s.rxHold.isSome = true := by
      simp only [State.rxhEnabled, Bool.and_eq_true] at he; exact he.2
    obtain ⟨⟨b, status⟩, hh⟩ := Option.isSome_iff_exists.1 hs
    cases hf : s.isFull .rx with
    | true => exact .inr (.inl ⟨b, status, rfl, hh, rfl, execRxh_full s b status he hh hf⟩)
    | false => exact .inr (.inr ⟨b, status, rfl, hh, rfl, execRxh_room s b status he hh hf⟩)

/-- LINE, by case. -/
theorem execLine_cases (b status : Byte) (s : State) :
    (s.lineEnabled = false ∧ execLine b status s = .next s)
    ∨ (s.lineEnabled = true ∧ execLine b status s = .next { s with rxHold := some (b, status) }) := by
  cases he : s.lineEnabled with
  | false => exact .inl ⟨rfl, State.whenEnabled_false _ _ _ he⟩
  | true => exact .inr ⟨rfl, State.whenEnabled_true _ _ _ he⟩

/-! ### Transmit path -/

/-- TXH, by case: not enabled, nothing to send, or a byte handed over. -/
theorem execTxh_cases (s : State) :
    (s.txhEnabled = false ∧ execTxh s = .next s)
    ∨ (s.txhEnabled = true ∧ s.isEmpty .tx = true ∧ execTxh s = .next { s with txie := false })
    ∨ (s.txhEnabled = true ∧ s.isEmpty .tx = false ∧ execTxh s = .next { s with
        tx := { s.tx with tail := s.nextTail .tx }, lineOut := s.lineOut ++ [s.slot .tx (s.nextTail .tx)],
        txReady := false }) := by
  cases he : s.txhEnabled with
  | false => exact .inl ⟨rfl, State.whenEnabled_false _ _ _ he⟩
  | true =>
    right
    cases hm : s.isEmpty .tx with
    | true =>
      refine .inl ⟨rfl, rfl, ?_⟩
      simp only [execTxh, State.whenEnabled_true _ _ _ he, transmitByte, hm, if_true, State.finish_ok]
      rfl
    | false =>
      refine .inr ⟨rfl, rfl, ?_⟩
      simp only [execTxh, State.whenEnabled_true _ _ _ he, transmitByte, hm, State.pop_eq]
      rfl

/-- XMIT, by case. -/
theorem execXmit_cases (s : State) :
    (s.txReady = true ∧ execXmit s = .next s)
    ∨ (s.txReady = false ∧ execXmit s = .next { s with txReady := true }) := by
  cases h : s.txReady with
  | true => exact .inl ⟨rfl, State.whenEnabled_false _ _ _ (by simp [State.xmitEnabled, h])⟩
  | false => exact .inr ⟨rfl, State.whenEnabled_true _ _ _ (by simp [State.xmitEnabled, h])⟩

/-! ### Foreground -/

theorem execInit_busy (sel : Half) (s : State) (h : s.phase ≠ .idle) : execInit sel s = .next s :=
  State.whenIdle_busy _ _ h

theorem execInit_gie (sel : Half) (s : State) (h : s.phase = .idle) (hg : s.gie = true) :
    execInit sel s = .next (s.raise .initWithInterruptsEnabled) := by
  rw [execInit, State.whenIdle_idle _ _ h, if_pos hg]

theorem execInit_ok (sel : Half) (s : State) (h : s.phase = .idle) (hg : s.gie = false) :
    execInit sel s = .next (initBody sel s) := by
  rw [execInit, State.whenIdle_idle _ _ h, if_neg (by simp [hg])]

/-- What INIT leaves, field by field. -/
theorem initBody_eq (sel : Half) (s : State) : initBody sel s = { s with
    rx := { s.rx with tail := s.rx.head }, tx := { s.tx with tail := s.tx.head },
    highSpeed := selHighSpeed sel, baudDiv := selBaudDiv sel,
    rxen := true, txen := true, rxie := true, txie := false, initialised := true } := rfl

theorem readConsume_eq (s : State) : readConsume s = .ok { s with
    rx := { s.rx with tail := s.nextTail .rx }, phase := .r3 (s.slot .rx (s.nextTail .rx)) (s.nextTail .rx) } := by
  simp only [readConsume, State.pop_eq]
  rfl

theorem writeStore_ok (b : Byte) (n : Nat) (s : State) (h : n < s.cfg.nTx) : writeStore b n s = .ok { s with
    tx := { s.tx with storage := Memory.set s.tx.storage n b }, phase := .w3 b n } := by
  have h' : n < s.cfg.capacity .tx := h
  simp only [writeStore, State.memWrite_ok _ _ _ _ h']
  rfl

theorem writeStore_error (b : Byte) (n : Nat) (s : State) (h : s.cfg.nTx ≤ n) :
    writeStore b n s = .error .indexOutOfRange := by
  have h' : s.cfg.capacity .tx ≤ n := h
  simp [writeStore, State.memWrite, h']

/-- One step of READ, by phase. -/
theorem execRead_cases (s : State) :
    (s.phase = .idle ∧ s.initialised = false ∧ execRead s = .next (s.raise .notInitialised))
    ∨ (s.phase = .idle ∧ s.initialised = true ∧ execRead s = .next { s with phase := .r1 })
    ∨ (s.phase = .r1 ∧ s.isEmpty .rx = true
        ∧ execRead s = .next { s with results := s.results ++ [noData], phase := .idle })
    ∨ (s.phase = .r1 ∧ s.isEmpty .rx = false ∧ execRead s = .next { s with phase := .r2 })
    ∨ (s.phase = .r2 ∧ execRead s = .next { s with
        rx := { s.rx with tail := s.nextTail .rx }, phase := .r3 (s.slot .rx (s.nextTail .rx)) (s.nextTail .rx) })
    ∨ (∃ b n, s.phase = .r3 b n
        ∧ execRead s = .next { s with results := s.results ++ [resultWord s.lastError b], phase := .idle })
    ∨ ((∃ b, s.phase.command? = some (.write b)) ∧ execRead s = .next s) := by
  cases hp : s.phase with
  | idle =>
    rcases Bool.eq_false_or_eq_true s.initialised with hi | hi
    · exact .inr (.inl ⟨rfl, hi, by simp only [execRead, hp, State.enter_ok _ _ hi]⟩)
    · exact .inl ⟨rfl, hi, by simp only [execRead, hp, State.enter_fault _ _ hi]⟩
  | r1 =>
    right; right
    cases he : s.isEmpty .rx with
    | true => exact .inl ⟨rfl, rfl, by simp only [execRead, hp, readCheck, he, if_true]; rfl⟩
    | false => exact .inr (.inl ⟨rfl, rfl, by simp only [execRead, hp, readCheck, he]; rfl⟩)
  | r2 => right; right; right; right; left; exact ⟨rfl, by simp only [execRead, hp, readConsume_eq, State.finish_ok]⟩
  | r3 b n => right; right; right; right; right; left; exact ⟨b, n, rfl, by simp only [execRead, hp]; rfl⟩
  | w1 b => right; right; right; right; right; right; exact ⟨⟨b, rfl⟩, by simp only [execRead, hp]⟩
  | w2 b n => right; right; right; right; right; right; exact ⟨⟨b, rfl⟩, by simp only [execRead, hp]⟩
  | w3 b n => right; right; right; right; right; right; exact ⟨⟨b, rfl⟩, by simp only [execRead, hp]⟩
  | w4 b n => right; right; right; right; right; right; exact ⟨⟨b, rfl⟩, by simp only [execRead, hp]⟩

/-- A phase written back over itself. -/
theorem State.setPhase_self (s : State) (p : Phase) (h : s.phase = p) : s.setPhase p = s := by
  subst h; rfl

/-- One step of WRITE, by phase. -/
theorem execWrite_cases (b : Byte) (s : State) :
    (s.phase = .idle ∧ s.initialised = false ∧ execWrite b s = .next (s.raise .notInitialised))
    ∨ (s.phase = .idle ∧ s.initialised = true ∧ execWrite b s = .next { s with phase := .w1 b })
    ∨ (∃ c, s.phase = .w1 c ∧ s.isFull .tx = true ∧ execWrite b s = .next s)
    ∨ (∃ c, s.phase = .w1 c ∧ s.isFull .tx = false
        ∧ execWrite b s = .next { s with phase := .w2 c (s.nextHead .tx) })
    ∨ (∃ c n, s.phase = .w2 c n ∧ n < s.cfg.nTx ∧ execWrite b s = .next { s with
        tx := { s.tx with storage := Memory.set s.tx.storage n c }, phase := .w3 c n })
    ∨ (∃ c n, s.phase = .w2 c n ∧ s.cfg.nTx ≤ n ∧ execWrite b s = .next (s.raise .indexOutOfRange))
    ∨ (∃ c n, s.phase = .w3 c n ∧ execWrite b s = .next { s with tx := { s.tx with head := n }, phase := .w4 c n })
    ∨ (∃ c n, s.phase = .w4 c n ∧ execWrite b s = .next { s with txie := true, phase := .idle })
    ∨ (s.phase.command? = some .read ∧ execWrite b s = .next s) := by
  cases hp : s.phase with
  | idle =>
    rcases Bool.eq_false_or_eq_true s.initialised with hi | hi
    · exact .inr (.inl ⟨rfl, hi, by simp only [execWrite, hp, State.enter_ok _ _ hi]⟩)
    · exact .inl ⟨rfl, hi, by simp only [execWrite, hp, State.enter_fault _ _ hi]⟩
  | w1 c =>
    right; right
    cases hf : s.isFull .tx with
    | true =>
      exact .inl ⟨c, rfl, rfl, by simp only [execWrite, hp, writeCheck, hf, if_true, State.setPhase_self s _ hp]⟩
    | false => exact .inr (.inl ⟨c, rfl, rfl, by simp only [execWrite, hp, writeCheck, hf]; rfl⟩)
  | w2 c n =>
    right; right; right; right
    by_cases hn : n < s.cfg.nTx
    · exact .inl ⟨c, n, rfl, hn, by simp only [execWrite, hp, writeStore_ok _ _ _ hn, State.finish_ok]⟩
    · have hn' : s.cfg.nTx ≤ n := by omega
      exact .inr (.inl ⟨c, n, rfl, hn', by simp only [execWrite, hp, writeStore_error _ _ _ hn', State.finish_error]⟩)
  | w3 c n => right; right; right; right; right; right; left; exact ⟨c, n, rfl, by simp only [execWrite, hp]; rfl⟩
  | w4 c n =>
    right; right; right; right; right; right; right; left; exact ⟨c, n, rfl, by simp only [execWrite, hp]; rfl⟩
  | r1 => right; right; right; right; right; right; right; right; exact ⟨rfl, by simp only [execWrite, hp]⟩
  | r2 => right; right; right; right; right; right; right; right; exact ⟨rfl, by simp only [execWrite, hp]⟩
  | r3 b n => right; right; right; right; right; right; right; right; exact ⟨rfl, by simp only [execWrite, hp]⟩

/-- A command of one micro-step, by case: done at Idle, or waiting. -/
theorem whenIdle_cases (s : State) (o : Outcome State Fault Refusal) :
    (s.phase = .idle ∧ s.whenIdle o = o) ∨ (s.phase ≠ .idle ∧ s.whenIdle o = .next s) := by
  by_cases h : s.phase = .idle
  · exact .inl ⟨h, State.whenIdle_idle s o h⟩
  · exact .inr ⟨h, State.whenIdle_busy s o h⟩

/-- INIT, by case. -/
theorem execInit_cases (sel : Half) (s : State) :
    (s.phase ≠ .idle ∧ execInit sel s = .next s)
    ∨ (s.phase = .idle ∧ s.gie = true ∧ execInit sel s = .next (s.raise .initWithInterruptsEnabled))
    ∨ (s.phase = .idle ∧ s.gie = false ∧ execInit sel s = .next (initBody sel s)) := by
  by_cases h : s.phase = .idle
  · cases hg : s.gie with
    | true => exact .inr (.inl ⟨h, rfl, execInit_gie sel s h hg⟩)
    | false => exact .inr (.inr ⟨h, rfl, execInit_ok sel s h hg⟩)
  · exact .inl ⟨h, execInit_busy sel s h⟩

/-- Every operation answers a next state, in every state: none faults as an outcome and none refuses. -/
theorem exec_next (i : Instr) (s : State) : ∃ t, exec i s = .next t := by
  cases i with
  | init sel => rcases execInit_cases sel s with ⟨_, h⟩ | ⟨_, _, h⟩ | ⟨_, _, h⟩ <;> exact ⟨_, h⟩
  | read =>
    rcases execRead_cases s with ⟨_, _, h⟩ | ⟨_, _, h⟩ | ⟨_, _, h⟩ | ⟨_, _, h⟩ | ⟨_, h⟩ | ⟨_, _, _, h⟩ | ⟨_, h⟩ <;>
      exact ⟨_, h⟩
  | write b =>
    rcases execWrite_cases b s with ⟨_, _, h⟩ | ⟨_, _, h⟩ | ⟨_, _, _, h⟩ | ⟨_, _, _, h⟩ | ⟨_, _, _, _, h⟩
      | ⟨_, _, _, _, h⟩ | ⟨_, _, _, h⟩ | ⟨_, _, _, h⟩ | ⟨_, h⟩ <;> exact ⟨_, h⟩
  | sei => rcases whenIdle_cases s (.next (s.setGie true)) with ⟨_, h⟩ | ⟨_, h⟩ <;> exact ⟨_, h⟩
  | cli => rcases whenIdle_cases s (.next (s.setGie false)) with ⟨_, h⟩ | ⟨_, h⟩ <;> exact ⟨_, h⟩
  | writes text =>
    rcases whenIdle_cases s (.next (s.setProgram ((textBytes text).map encodeWrite ++ s.program)))
      with ⟨_, h⟩ | ⟨_, h⟩ <;> exact ⟨_, h⟩
  | rxh => rcases execRxh_cases s with ⟨_, h⟩ | ⟨_, _, _, _, _, h⟩ | ⟨_, _, _, _, _, h⟩ <;> exact ⟨_, h⟩
  | txh => rcases execTxh_cases s with ⟨_, h⟩ | ⟨_, _, h⟩ | ⟨_, _, h⟩ <;> exact ⟨_, h⟩
  | line b status => rcases execLine_cases b status s with ⟨_, h⟩ | ⟨_, h⟩ <;> exact ⟨_, h⟩
  | xmit => rcases execXmit_cases s with ⟨_, h⟩ | ⟨_, h⟩ <;> exact ⟨_, h⟩

end Sys2Proof.Machine
end

