-- ==== Sys2Proof/Laws/PerInstr.lean ====
section
/-! SUPPORT. Statements about every operation as syntax, one lemma per constructor of Instr. -/

namespace Sys2Proof.Laws.EncodedWords

/-- Decoding the words of a well-formed operation gives, word by word, the operations it stands for. -/
def Statement (i : Instr) : Prop := i.wf = true → (encode i).map decodeWord = (expand i).map .ok

theorem init (sel : Half) : Statement (.init sel) := fun _ => by
  simp only [encode, expand, List.map_cons, List.map_nil, decodeWord_of_command _ _ (decode_init sel)]

theorem read : Statement .read := fun _ => by
  simp only [encode, expand, List.map_cons, List.map_nil, decodeWord_of_command _ _ decode_read]

theorem write (b : Byte) : Statement (.write b) := fun _ => by
  simp [encode, expand, decodeWord_of_command _ _ (decode_write b)]

theorem sei : Statement .sei := fun _ => by
  simp only [encode, expand, List.map_cons, List.map_nil, decodeWord_of_command _ _ decode_sei]

theorem cli : Statement .cli := fun _ => by
  simp only [encode, expand, List.map_cons, List.map_nil, decodeWord_of_command _ _ decode_cli]

theorem writes (text : List Byte) : Statement (.writes text) := fun _ => by
  simp [encode, expand, decodeWord_of_command _ _ (decode_write _)]

theorem rxh : Statement .rxh := fun _ => by
  simp [encode, expand, decodeWord_event, Event.instr]

theorem txh : Statement .txh := fun _ => by
  simp [encode, expand, decodeWord_event, Event.instr]

theorem line (b status : Byte) : Statement (.line b status) := fun _ => by
  simp [encode, expand, decodeWord_event, Event.instr]

theorem xmit : Statement .xmit := fun _ => by
  simp [encode, expand, decodeWord_event, Event.instr]

end Sys2Proof.Laws.EncodedWords
end

