-- ==== Sys2Proof/Laws/Step.lean ====
section
/-! SUPPORT. What one step of the machine can do: which operation it runs, in which state, and what it answers. -/

namespace Sys2Proof.Machine

open Host

/-- What the next step runs, when it runs an operation. -/
theorem fetch_run (s u : State) (i : Instr) (h : s.fetch = .run i u) :
    (∃ e : Event, s.nextTurn = .event e ∧ i = e.instr ∧ u = s.takeTurn)
    ∨ (s.nextTurn = .fg ∧ s.phase.command? = some i ∧ u = s.takeTurn)
    ∨ (∃ w ws, s.nextTurn = .fg ∧ s.phase = .idle ∧ s.program = w :: ws ∧ decodeCommand w = .ok i
        ∧ u = s.takeTurn.setProgram ws) := by
  unfold State.fetch at h
  split at h
  · next e he => cases h; exact .inl ⟨e, he, rfl, rfl⟩
  · next he =>
    unfold State.fetchForeground at h
    rw [State.takeTurn_phase] at h
    split at h
    · next j hj => cases h; exact .inr (.inl ⟨he, hj, rfl⟩)
    · next hj =>
      have hp : s.phase = .idle := by revert hj; cases s.phase <;> simp [Phase.command?]
      unfold State.fetchCommand at h
      rw [State.takeTurn_program] at h
      split at h
      · cases h
      · next w ws hw =>
        split at h
        · next j hd => cases h; exact .inr (.inr ⟨w, ws, he, hp, hw, hd, rfl⟩)
        · cases h

theorem fetch_event (s : State) (e : Event) (h : s.nextTurn = .event e) : s.fetch = .run e.instr s.takeTurn := by
  simp [State.fetch, h]

theorem fetch_busy (s : State) (i : Instr) (h : s.nextTurn = .fg) (hp : s.phase.command? = some i) :
    s.fetch = .run i s.takeTurn := by
  simp [State.fetch, h, State.fetchForeground, hp]

theorem fetch_idle (s : State) (h : s.nextTurn = .fg) (hp : s.phase = .idle) : s.fetch = s.takeTurn.fetchCommand := by
  simp [State.fetch, h, State.fetchForeground, hp, Phase.command?]

theorem fetch_issue (s : State) (w : Word) (ws : List Word) (i : Instr) (h : s.nextTurn = .fg) (hp : s.phase = .idle)
    (hw : s.program = w :: ws) (hd : decodeCommand w = .ok i) : s.fetch = .run i (s.takeTurn.setProgram ws) := by
  rw [fetch_idle s h hp]; simp [State.fetchCommand, hw, hd]

theorem fetch_illegal (s : State) (w : Word) (ws : List Word) (e : Illegal) (h : s.nextTurn = .fg) (hp : s.phase = .idle)
    (hw : s.program = w :: ws) (hd : decodeCommand w = .error e) : s.fetch = .illegal e := by
  rw [fetch_idle s h hp]; simp [State.fetchCommand, hw, hd]

theorem fetch_done (s : State) (h : s.nextTurn = .fg) (hp : s.phase = .idle) (hw : s.program = []) :
    s.fetch = .pass s.takeTurn := by
  rw [fetch_idle s h hp]; simp [State.fetchCommand, hw]

/-- A turn that passes is FG's, at Idle, with nothing to issue. -/
theorem fetch_pass (s u : State) (h : s.fetch = .pass u) :
    s.nextTurn = .fg ∧ s.phase = .idle ∧ s.program = [] ∧ u = s.takeTurn := by
  unfold State.fetch at h
  split at h
  · cases h
  · next he =>
    unfold State.fetchForeground at h
    rw [State.takeTurn_phase] at h
    split at h
    · cases h
    · next hj =>
      have hp : s.phase = .idle := by revert hj; cases s.phase <;> simp [Phase.command?]
      unfold State.fetchCommand at h
      rw [State.takeTurn_program] at h
      split at h
      · next hw => cases h; exact ⟨he, hp, hw, rfl⟩
      · split at h <;> cases h

theorem step_faulted (s : State) (r : Fault) (h : s.fault = some r) : step s = .fault r := by
  simp [step, h]

/-- A step that runs an operation which records no fault answers what the operation answers. -/
theorem step_run (s u v : State) (i : Instr) (hf : s.fault = none) (h : s.fetch = .run i u) (hx : exec i u = .next v)
    (hv : v.fault = none) : step s = .next v := by
  simp [step, hf, h, hx, State.settle, hv]

theorem step_run_fault (s u v : State) (i : Instr) (r : Fault) (hf : s.fault = none) (h : s.fetch = .run i u)
    (hx : exec i u = .next v) (hv : v.fault = some r) : step s = .next (s.raise r) := by
  simp [step, hf, h, hx, State.settle, hv]

/-- What one step can do. -/
theorem step_cases (s t : State) (h : step s = .next t) : s.fault = none ∧
    ((∃ e, s.fetch = .illegal e ∧ t = s.raise .illegalCommand)
    ∨ (s.fetch = .pass s.takeTurn ∧ t = s.takeTurn)
    ∨ (∃ i u, s.fetch = .run i u ∧ exec i u = .next t ∧ t.fault = none)
    ∨ (∃ i u v r, s.fetch = .run i u ∧ exec i u = .next v ∧ v.fault = some r ∧ t = s.raise r)) := by
  unfold step at h
  split at h
  · cases h
  · next hf =>
    refine ⟨hf, ?_⟩
    split at h
    · next i u hu =>
      obtain ⟨v, hv⟩ := exec_next i u
      rw [hv] at h
      simp only [State.settle] at h
      split at h
      · next r hr => cases h; exact .inr (.inr (.inr ⟨i, u, v, r, hu, hv, hr, rfl⟩))
      · next hr => cases h; exact .inr (.inr (.inl ⟨i, u, hu, hv, hr⟩))
    · next e he => cases h; exact .inl ⟨e, he, rfl⟩
    · next u hu =>
      obtain ⟨_, _, _, rfl⟩ := fetch_pass s u hu
      cases h; exact .inr (.inl ⟨hu, rfl⟩)

/-- A machine without a recorded fault always steps. -/
theorem step_total (s : State) (h : s.fault = none) : ∃ t, step s = .next t := by
  cases hf : s.fetch with
  | run i u =>
    obtain ⟨v, hv⟩ := exec_next i u
    cases hr : v.fault with
    | none => exact ⟨v, step_run s u v i h hf hv hr⟩
    | some r => exact ⟨_, step_run_fault s u v i r h hf hv hr⟩
  | illegal e => exact ⟨s.raise .illegalCommand, by simp [step, h, hf]⟩
  | pass u => exact ⟨u, by simp [step, h, hf]⟩

/-! ### A step, by whose turn it is -/

/-- A command in progress is a READ or a WRITE. -/
theorem command?_cases (p : Phase) (i : Instr) (h : p.command? = some i) : i = .read ∨ ∃ b, i = .write b := by
  cases p <;> simp [Phase.command?] at h <;> simp [← h]

/-- What one step can do, with the operation it ran. -/
theorem step_inversion (s t : State) (h : step s = .next t) : s.fault = none ∧
    ((∃ r, t = s.raise r)
    ∨ (s.nextTurn = .fg ∧ s.phase = .idle ∧ s.program = [] ∧ t = s.takeTurn)
    ∨ (∃ e, s.nextTurn = .event e ∧ exec e.instr s.takeTurn = .next t ∧ t.fault = none)
    ∨ (∃ i, s.nextTurn = .fg ∧ s.phase.command? = some i ∧ exec i s.takeTurn = .next t ∧ t.fault = none)
    ∨ (∃ w ws i, s.nextTurn = .fg ∧ s.phase = .idle ∧ s.program = w :: ws ∧ decodeCommand w = .ok i
        ∧ exec i (s.takeTurn.setProgram ws) = .next t ∧ t.fault = none)) := by
  obtain ⟨hf, ⟨e, _, rfl⟩ | ⟨hp, rfl⟩ | ⟨i, u, hu, hx, ht⟩ | ⟨i, u, v, r, hu, hx, hv, rfl⟩⟩ := step_cases s t h
  · exact ⟨hf, .inl ⟨_, rfl⟩⟩
  · obtain ⟨a, b, c, _⟩ := fetch_pass s _ hp
    exact ⟨hf, .inr (.inl ⟨a, b, c, rfl⟩)⟩
  · refine ⟨hf, .inr (.inr ?_)⟩
    rcases fetch_run s u i hu with ⟨e, he, rfl, rfl⟩ | ⟨h1, h2, rfl⟩ | ⟨w, ws, h1, h2, h3, h4, rfl⟩
    · exact .inl ⟨e, he, hx, ht⟩
    · exact .inr (.inl ⟨i, h1, h2, hx, ht⟩)
    · exact .inr (.inr ⟨w, ws, i, h1, h2, h3, h4, hx, ht⟩)
  · exact ⟨hf, .inl ⟨_, rfl⟩⟩

/-- FG's listed turn runs the command in progress. -/
theorem step_busy_listed (s v : State) (i : Instr) (ts : List Turn) (hx : exec i { s with turns := ts } = .next v)
    (ht : s.turns = .fg :: ts) (hf : s.fault = none) (hc : s.phase.command? = some i) (hv : v.fault = none) :
    step s = .next v :=
  step_run s _ v i hf (fetch_busy s i (s.nextTurn_listed _ _ ht) hc)
    (by rw [State.takeTurn_listed s _ _ ht]; exact hx) hv

/-- A listed turn of an event runs it. -/
theorem step_event_listed (s v : State) (e : Event) (ts : List Turn) (hx : exec e.instr { s with turns := ts } = .next v)
    (ht : s.turns = .event e :: ts) (hf : s.fault = none) (hv : v.fault = none) : step s = .next v :=
  step_run s _ v _ hf (fetch_event s e (s.nextTurn_listed _ _ ht))
    (by rw [State.takeTurn_listed s _ _ ht]; exact hx) hv

/-- FG's listed turn at Idle issues the next word of the program. -/
theorem step_issue_listed (s v : State) (w : Word) (ws : List Word) (i : Instr) (ts : List Turn)
    (hx : exec i { s with turns := ts, program := ws } = .next v) (ht : s.turns = .fg :: ts) (hf : s.fault = none)
    (hp : s.phase = .idle) (hw : s.program = w :: ws) (hd : decodeCommand w = .ok i) (hv : v.fault = none) :
    step s = .next v :=
  step_run s _ v i hf (fetch_issue s w ws i (s.nextTurn_listed _ _ ht) hp hw hd)
    (by rw [State.takeTurn_listed s _ _ ht]; exact hx) hv

/-! ### Runs -/

@[simp] theorem run_zero (s : State) : Core.run Sys2Proof.core 0 s = .next s := rfl

theorem run_succ (n : Nat) (s t : State) (h : step s = .next t) :
    Core.run Sys2Proof.core (n + 1) s = Core.run Sys2Proof.core n t := by
  have h' : Sys2Proof.core.step s = .next t := h
  simp only [Core.run, h']

theorem run_succ_fault (n : Nat) (s : State) (r : Fault) (h : step s = .fault r) :
    Core.run Sys2Proof.core (n + 1) s = .fault r := by
  have h' : Sys2Proof.core.step s = .fault r := h
  simp only [Core.run, h']

theorem run_succ_refused (n : Nat) (s : State) (r : Refusal) (h : step s = .refused r) :
    Core.run Sys2Proof.core (n + 1) s = .refused r := by
  have h' : Sys2Proof.core.step s = .refused r := h
  simp only [Core.run, h']

/-- The steps of a run, one after the other. -/
theorem run_add (m n : Nat) (s t : State) (h : Core.run Sys2Proof.core m s = .next t) :
    Core.run Sys2Proof.core (m + n) s = Core.run Sys2Proof.core n t := by
  induction m generalizing s with
  | zero => cases h; rw [Nat.zero_add]
  | succ m ih =>
    rw [Nat.succ_add]
    cases hs : step s with
    | next u => rw [run_succ m s u hs] at h; rw [run_succ (m + n) s u hs, ih u h]
    | fault r => rw [run_succ_fault m s r hs] at h; cases h
    | refused r => rw [run_succ_refused m s r hs] at h; cases h

/-- A property that every step keeps holds at the end of every run. -/
theorem run_keeps (P : State → Prop) (hP : ∀ s t, P s → step s = .next t → P t) (n : Nat) (s t : State) (hs : P s)
    (h : Core.run Sys2Proof.core n s = .next t) : P t := by
  induction n generalizing s with
  | zero => cases h; exact hs
  | succ n ih =>
    cases hu : step s with
    | next u => rw [run_succ n s u hu] at h; exact ih u (hP s u hs hu) h
    | fault r => rw [run_succ_fault n s r hu] at h; cases h
    | refused r => rw [run_succ_refused n s r hu] at h; cases h

end Sys2Proof.Machine
end

