-- ==== Sys2Proof/Tests/Slice0.lean ====
section
/-! SUPPORT. The model's own tests: what WellFormed refuses; words written out from the spec's encodings; single steps
from the vectors of 95_test_vectors.md; and, for every statement with hypotheses, a named witness that meets them. -/

namespace Sys2Proof.Tests

open Sys2Proof Sys2Proof.Machine Host

/-! ### What the checks refuse -/

/-- R86: a WRITES string without its 0x00 is ill-formed. -/
theorem test_unterminated_string_refused : (Instr.writes [0x41, 0x42]).wf = false := by decide

theorem test_terminated_string_accepted : (Instr.writes [0x41, 0x42, 0]).wf = true := by decide

/-- R12: a capacity that is no power of two, a capacity of 1, and an index too narrow (R11). -/
theorem test_capacities_refused :
    Config.make? 6 4 8 [] = none ∧ Config.make? 8 1 8 [] = none ∧ Config.make? 8 4 2 [] = none := by decide

theorem test_smallest_capacities_accepted : (Config.make? 2 2 1 []).isSome = true := by decide

/-! ### Decoding: words from R72, R73, R77 and 95_test_vectors.md section 2.2 -/

theorem test_decode_init : decodeWord 0b00010000000000001000000000011001 = .ok (.init 0x8019) := by decide

theorem test_decode_init_illegal : decodeWord 0x10010000 = .error .rsvNonzero := by decide

theorem test_decode_read : decodeWord 0b00100000000000000000000000000000 = .ok .read := by decide

theorem test_decode_read_illegal : decodeWord 0x20000001 = .error .operandNonzero := by decide

theorem test_decode_write : decodeWord 0b00110000000000000000000001000001 = .ok (.write 0x41) := by decide

theorem test_decode_write_illegal : decodeWord 0x30000141 = .error .operandNonzero := by decide

theorem test_decode_sei : decodeWord 0b01000000000000000000000000000000 = .ok .sei := by decide

theorem test_decode_cli : decodeWord 0b01010000000000000000000000000000 = .ok .cli := by decide

theorem test_decode_cli_illegal : decodeWord 0x50008000 = .error .operandNonzero := by decide

theorem test_decode_rxh : decodeWord 0b10000000000000000000000000000000 = .ok .rxh := by decide

theorem test_decode_txh : decodeWord 0b10010000000000000000000000000000 = .ok .txh := by decide

/-- LINE(0x30, 0xE3): the status in opnd[15:8], the byte in opnd[7:0] (R77). -/
theorem test_decode_line : decodeWord 0b10100000000000001110001100110000 = .ok (.line 0x30 0xE3) := by decide

theorem test_decode_xmit : decodeWord 0b10110000000000000000000000000000 = .ok .xmit := by decide

theorem test_decode_reserved :
    decodeWord 0x00000000 = .error .reservedOp ∧ decodeWord 0x60000000 = .error .reservedOp
      ∧ decodeWord 0xF0000000 = .error .reservedOp := by decide

/-- An event word is no command (R75). -/
theorem test_event_space_is_no_command :
    decodeCommand 0x80000000 = .error .eventSpace ∧ decodeCommand 0xA0000041 = .error .eventSpace := by decide

/-- R86's example. -/
theorem test_encode_writes : encode (.writes [0x41, 0x42, 0, 0x43]) = [0x30000041, 0x30000042] := by decide

theorem test_encode_empty_writes : encode (.writes [0]) = [] := by decide

theorem test_table_word : decodeTableWord 32 0x30000041 = some (.write 0x41) ∧ decodeTableWord 4 0 = none := by decide

/-- R76's text forms. -/
theorem test_assemble :
    assembleWords ['I', 'N', 'I', 'T', ' ', '0', 'x', '8', '0', '1', '9'] = some [0x10008019]
      ∧ assembleWords ['I', 'N', 'I', 'T', ' ', '5', '1'] = some [0x10000033]
      ∧ assembleWords ['W', 'R', 'I', 'T', 'E', ' ', '\'', 'A', '\''] = some [0x30000041]
      ∧ assembleWords ['W', 'R', 'I', 'T', 'E', 'S', ' ', '"', 'A', 'B', '"'] = some [0x30000041, 0x30000042]
      ∧ assembleWords ['S', 'E', 'I'] = some [0x40000000]
      ∧ assembleWords ['W', 'R', 'I', 'T', 'E', ' ', '2', '5', '6'] = none := by decide

/-! ### Single steps -/

/-- The next state of an outcome, if it has one. -/
def next? : Outcome State Fault Refusal → Option State
  | .next t => some t
  | .fault _ => none
  | .refused _ => none

theorem next_of_next? {o : Outcome State Fault Refusal} {t : State} (h : next? o = some t) : o = .next t := by
  cases o with
  | next u => cases h; rfl
  | fault r => cases h
  | refused r => cases h

/-- The core after INIT (N_RX = 8, N_TX = 4). -/
def ready : State :=
  { State.reset with rxen := true, txen := true, rxie := true, initialised := true }

/-- The core after INIT and SEI. -/
def live : State := { ready with gie := true }

/-- A receive buffer that holds 1 and 2. -/
def rxTwo : Ring := ⟨2, 0, [(1, 1), (2, 2)]⟩

/-- A full receive buffer, gone round: head 2, tail 3. -/
def rxFull : Ring := ⟨2, 3, [(0, 5), (1, 6), (2, 7), (4, 1), (5, 2), (6, 3), (7, 4)]⟩

/-- A full transmit buffer of four slots. -/
def txFull : Ring := ⟨3, 0, [(1, 1), (2, 2), (3, 3)]⟩

/-- A transmit buffer that holds 0x41. -/
def txOne : Ring := ⟨1, 0, [(1, 0x41)]⟩

/-- WRITE 4 waits on a full transmit buffer. -/
def blocked : State := { live with tx := txFull, txie := true, phase := .w1 4 }

/-- Section 2.8, lines 2 and 5. -/
theorem test_init : next? (exec (.init 0x8019) { ready with rx := ⟨5, 2, []⟩, tx := ⟨3, 1, []⟩, lastError := 0x10, txie := true })
    = some { ready with rx := ⟨5, 5, []⟩, tx := ⟨3, 3, []⟩, lastError := 0x10, baudDiv := 0x0019, highSpeed := true } := by
  decide

theorem test_init_with_interrupts : next? (step { live with program := [0x10000033], turns := [.fg] })
    = some { live with program := [0x10000033], turns := [.fg], fault := some .initWithInterruptsEnabled } := by
  decide

/-- Section 2.6, line 3, phases R2 and R3. -/
theorem test_read_consumes : next? (exec .read { ready with rx := ⟨1, 7, [(0, 0xAA)]⟩, phase := .r2 })
    = some { ready with rx := ⟨1, 0, [(0, 0xAA)]⟩, phase := .r3 0xAA 0 } := by
  decide

theorem test_read_returns : next? (exec .read { ready with lastError := 0x1E, phase := .r3 0xFF 3 })
    = some { ready with lastError := 0x1E, results := [0x1EFF] } := by
  decide

/-- Section 2.7, line 2, phases W1 and W2. -/
theorem test_write_wraps : next? (exec (.write 0x42) { ready with tx := ⟨3, 1, []⟩, phase := .w1 0x42 })
    = some { ready with tx := ⟨3, 1, []⟩, phase := .w2 0x42 0 } := by
  decide

theorem test_write_stores : next? (exec (.write 0x42) { ready with tx := ⟨3, 1, [(2, 9)]⟩, phase := .w2 0x42 0 })
    = some { ready with tx := ⟨3, 1, [(0, 0x42), (2, 9)]⟩, phase := .w3 0x42 0 } := by
  decide

/-- R175, R86. -/
theorem test_writes : next? (exec (.writes [0x41, 0x42, 0]) { ready with program := [0x20000000] })
    = some { ready with program := [0x30000041, 0x30000042, 0x20000000] } := by
  decide

/-- Section 2.9, lines 2 and 4. -/
theorem test_sei : next? (exec .sei State.reset) = some { State.reset with gie := true }
    ∧ next? (exec .sei live) = some live := by
  decide

theorem test_cli : next? (exec .cli live) = some ready := by decide

/-- Section 2.4, lines 3 and 4. -/
theorem test_rxh_drops : next? (exec .rxh { live with rx := ⟨2, 3, []⟩, rxHold := some (0x99, 0x04) })
    = some { live with rx := ⟨2, 3, []⟩, lastError := 0x06 } := by
  decide

theorem test_rxh_stores : next? (exec .rxh { live with lastError := 0x10, rxHold := some (0x00, 0xFF) })
    = some { live with rx := ⟨1, 0, [(1, 0x00)]⟩, lastError := 0x1C } := by
  decide

/-- Section 2.5, lines 1 and 3. -/
theorem test_txh_empty : next? (exec .txh { live with tx := ⟨2, 2, []⟩, txie := true })
    = some { live with tx := ⟨2, 2, []⟩ } := by
  decide

theorem test_txh_sends : next? (exec .txh { live with tx := ⟨0, 3, [(0, 0x42)]⟩, txie := true })
    = some { live with tx := ⟨0, 0, [(0, 0x42)]⟩, txie := true, lineOut := [0x42], txReady := false } := by
  decide

/-- Section 2.3, lines 1 and 2. -/
theorem test_line : next? (exec (.line 0x41 0x00) ready) = some { ready with rxHold := some (0x41, 0x00) } := by decide

theorem test_line_held : next? (exec (.line 0x42 0x00) { ready with rxHold := some (0x41, 0x00) })
    = some { ready with rxHold := some (0x41, 0x00) } := by
  decide

/-- Section 2.5, line 6. -/
theorem test_xmit : next? (exec .xmit { live with txReady := false }) = some live := by decide

/-- P5: a READ before INIT, placed as the first word after reset, is run and faults (R216); the step after it stops. -/
theorem test_placed_read_faults :
    (next? (step (State.reset.withFetchWord 32 0x20000000))).map State.fault = some (some .notInitialised) := by
  decide

theorem test_placed_event_runs :
    (next? (step (State.reset.withFetchWord 32 0xB0000000))) = some State.reset := by
  decide

/-! ### Witnesses -/

theorem witness_StepKeepsInvariant :
    ∃ s t : State, s.Inv ∧ step s = .next t ∧ s.rx = rxFull ∧ s.tx = txFull :=
  ⟨{ blocked with rx := rxFull, turns := [.fg] }, { blocked with rx := rxFull }, by decide, next_of_next? (by decide), rfl,
    rfl⟩

/-- The smallest configuration (R12). -/
def smallest : Config := { nRx := 2, nTx := 2, idxW := 1, platformMap := [], valid := by decide }

/-- Where P4b hangs, with the smallest configuration. -/
def spinning : State :=
  { ready with cfg := smallest, tx := ⟨1, 0, [(1, 0x55)]⟩, txie := true, phase := .w1 0x66, baudDiv := 0x33 }

theorem test_hang_reached :
    next? (Core.run Sys2Proof.core 7 ((State.powerOn smallest).load [0x10000033, 0x30000055, 0x30000066] (fgTurns 7)))
      = some spinning := by
  decide

/-- Both clauses: a reachable state with N - 1 bytes in a buffer, and a WRITE that spins. -/
theorem witness_ReachableStatesAreInRange :
    ∃ t b, State.Reachable smallest t ∧ t.phase = .w1 b ∧ t.isFull .tx = true :=
  ⟨spinning, 0x66, ⟨[0x10000033, 0x30000055, 0x30000066], fgTurns 7, 7, next_of_next? test_hang_reached⟩, rfl, by decide⟩

theorem witness_DecodeEncodeAgree :
    (Instr.writes [0xFF, 0]).wf = true ∧ (Instr.line 0xFF 0xFF).wf = true
      ∧ decodeWord 0xA000FFFF = .ok (.line 0xFF 0xFF) ∧ decodeWord 0x1000FFFF = .ok (.init 0xFFFF) := by
  decide

/-- Each ground of R75 at its boundary, and a state that issues such a word. -/
theorem witness_IllegalWordsFault :
    (decodeCommand 0x0000FFFF).toOption = none ∧ (decodeCommand 0x60000000).toOption = none
      ∧ (decodeCommand 0xFFFFFFFF).toOption = none ∧ (decodeCommand 0x10010000).toOption = none
      ∧ (decodeCommand 0x5FFF0000).toOption = none ∧ (decodeCommand 0x20000001).toOption = none
      ∧ (decodeCommand 0x40008000).toOption = none ∧ (decodeCommand 0x30000100).toOption = none
      ∧ ∃ s : State, s.fault = none ∧ s.nextTurn = .fg ∧ s.phase = .idle ∧ s.program = 0x30000141 :: []
        ∧ (decodeCommand 0x30000141).toOption = none :=
  ⟨by decide, by decide, by decide, by decide, by decide, by decide, by decide, by decide,
    { ready with program := [0x30000141], turns := [.fg] }, by decide⟩

theorem witness_ResultWordLayout :
    (0x1E : Byte) &&& 0xE1 = 0 ∧ (0x00 : Byte) &&& 0xE1 = 0 ∧ ({ ready with phase := .r3 0xFF 3 } : State).phase = .r3 0xFF 3
      ∧ ({ ready with phase := .r1 } : State).phase = .r1 ∧ ({ ready with phase := .r1 } : State).isEmpty .rx = true := by
  decide

theorem witness_LineStatusExtraction : live.gie = true ∧ live.rxie = true := by decide

theorem witness_BaudSelectorSplits : State.reset.phase = .idle ∧ State.reset.gie = false := by decide

/-- The least and the greatest ASCII character; a text of printable and control characters. -/
theorem witness_AssemblerSpellsText :
    '\x00'.toNat < 128 ∧ '\x7f'.toNat < 128
      ∧ ∀ c ∈ ['A', '!', '\x01', '\x7f'], 0 < c.toNat ∧ c.toNat < 128 ∧ c ≠ '"' := by
  simp

/-- Each way a step comes to run an operation, with and without a fault, and each form of the schedule. -/
theorem witness_StepRunsTheDecodedInstruction :
    (∃ s u v : State, s.fault = none ∧ s.nextTurn = .event .xmit ∧ u = s.takeTurn ∧ exec .xmit u = .next v ∧ v.fault = none)
    ∧ (∃ s u v : State, s.fault = none ∧ s.nextTurn = .fg ∧ s.phase.command? = some (.write 4) ∧ u = s.takeTurn
        ∧ exec (.write 4) u = .next v ∧ v.fault = none)
    ∧ (∃ s u v : State, s.fault = none ∧ s.nextTurn = .fg ∧ s.phase = .idle ∧ s.program = 0x20000000 :: []
        ∧ decodeCommand 0x20000000 = .ok .read ∧ u = { s.takeTurn with program := [] } ∧ exec .read u = .next v
        ∧ v.fault = some .notInitialised)
    ∧ (∃ s : State, s.fault = none ∧ s.nextTurn = .fg ∧ s.phase = .idle ∧ s.program = [])
    ∧ (∃ (s : State) (t : Turn) (ts : List Turn), s.fault = none ∧ s.turns = t :: ts)
    ∧ (∃ s : State, s.fault = none ∧ s.turns = []) :=
  ⟨⟨{ live with txReady := false, turns := [.event .xmit] }, { live with txReady := false }, live, by decide, by decide,
      by decide, next_of_next? (by decide), by decide⟩,
    ⟨{ blocked with turns := [.fg] }, blocked, blocked, by decide, by decide, by decide, by decide,
      next_of_next? (by decide), by decide⟩,
    ⟨{ State.reset with program := [0x20000000], turns := [.fg] }, State.reset, State.reset.raise .notInitialised, by decide,
      by decide, by decide, by decide, by decide, by decide, next_of_next? (by decide), by decide⟩,
    ⟨{ live with turns := [.fg] }, by decide⟩, ⟨{ live with turns := [.fg] }, .fg, [], by decide⟩, ⟨State.reset, by decide⟩⟩

/-- An event word and a command word (R77, R72), placed while another command is in progress. -/
theorem witness_PlacedWordRunsNext :
    blocked.fault = none
    ∧ (∃ v : State, decodeEvent (tableWord 32 0x90000000) = .ok .txh ∧ exec Event.txh.instr blocked = .next v ∧ v.fault = none)
    ∧ (∃ v : State, decodeCommand (tableWord 32 0x50000000) = .ok .cli
        ∧ exec .cli { blocked with phase := .idle } = .next v ∧ v.fault = none) :=
  ⟨by decide,
    ⟨{ blocked with tx := { txFull with tail := 1 }, lineOut := [1], txReady := false }, by decide, next_of_next? (by decide),
      by decide⟩,
    ⟨{ blocked with phase := .idle, gie := false }, by decide, next_of_next? (by decide), by decide⟩⟩

/-- Every single condition missing, the others met. -/
theorem witness_TurnsNotEnabledPass :
    ({ ready with rxHold := some (0x41, 0) } : State).rxhEnabled = false
      ∧ ({ live with rxie := false, rxHold := some (0x41, 0) } : State).rxhEnabled = false ∧ live.rxhEnabled = false
      ∧ ({ ready with txie := true } : State).txhEnabled = false
      ∧ ({ live with txen := false, txie := true } : State).txhEnabled = false ∧ live.txhEnabled = false
      ∧ ({ live with txie := true, txReady := false } : State).txhEnabled = false
      ∧ State.reset.lineEnabled = false ∧ ({ ready with rxHold := some (0x41, 0) } : State).lineEnabled = false
      ∧ live.txReady = true := by
  decide

/-- No power of two (0, 3, 6), the power 1, and the least and a greater good capacity. -/
theorem witness_IllFormedConfigurationsAreRefused :
    (¬∃ k, 3 = 2 ^ k) ∧ (¬∃ k, 0 = 2 ^ k) ∧ (2 = 2 ^ (0 + 1) ∧ 256 = 2 ^ (7 + 1) ∧ 2 ≤ 2 ^ 8 ∧ 256 ≤ 2 ^ 8) := by
  refine ⟨?_, ?_, by decide⟩
  · rintro ⟨k, hk⟩
    cases k with
    | zero => cases hk
    | succ k => rw [Nat.pow_succ] at hk; omega
  · rintro ⟨k, hk⟩
    have := Nat.two_pow_pos k
    omega

/-- The wrap: the last index of each buffer. -/
theorem witness_RingIncrementWraps : 7 < State.reset.cfg.capacity .rx ∧ 3 < State.reset.cfg.capacity .tx := by decide

/-- Full and gone round, and empty at the last index. -/
theorem witness_EmptyAndFullByCount :
    (let s : State := { live with rx := ⟨6, 7, []⟩, tx := ⟨3, 3, []⟩ }
     (s.ring .rx).head < s.cfg.capacity .rx ∧ (s.ring .rx).tail < s.cfg.capacity .rx ∧ s.isFull .rx = true
      ∧ (s.ring .tx).head < s.cfg.capacity .tx ∧ (s.ring .tx).tail < s.cfg.capacity .tx ∧ s.isEmpty .tx = true) := by
  decide

theorem witness_BufInitForcesEmpty :
    (blocked.ring .tx).head < blocked.cfg.capacity .tx ∧ blocked.contents .tx = [1, 2, 3] := by
  decide

/-- The first index outside and the last inside, with storage that already has a byte there. -/
theorem witness_StorageReadsAndWrites :
    blocked.cfg.capacity .tx ≤ 4 ∧ 3 < blocked.cfg.capacity .tx ∧ blocked.ringOk .tx = true ∧ blocked.slot .tx 3 = 3 := by
  decide

/-- E2: fill, read one, write one more, read all. -/
theorem witness_RingRefinesQueue :
    ready.ringOk .tx = true
      ∧ runQueue (ready.cfg.capacity .tx - 1) [.push 1, .push 2, .push 3, .pop, .push 4, .pop, .pop, .pop]
          (ready.contents .tx) = some ([1, 2, 3, 4], []) := by
  decide

theorem witness_LineDelivers :
    (ready.rxen = true ∧ ready.rxHold = none)
      ∧ (∃ t, State.reset.rxen = false ∧ exec (.line 0x41 0) State.reset = .next t)
      ∧ ∃ s t : State, s.rxen = true ∧ s.rxHold ≠ none ∧ exec (.line 0x41 0) s = .next t :=
  ⟨by decide, ⟨State.reset, by decide, next_of_next? (by decide)⟩,
    ⟨{ ready with rxHold := some (0x42, 0) }, { ready with rxHold := some (0x42, 0) }, by decide, by decide,
      next_of_next? (by decide)⟩⟩

/-- Full, with room at the wrap, and each ground on which RXH does not run. -/
theorem witness_ReceiveHandlerStoresOrDrops :
    (let s : State := { live with rx := rxFull, rxHold := some (0x99, 0x04) }
     s.gie = true ∧ s.rxie = true ∧ s.rxHold = some (0x99, 0x04) ∧ (s.rx.head + 1) &&& (s.cfg.nRx - 1) = s.rx.tail)
    ∧ (let s : State := { live with rx := ⟨7, 3, []⟩, rxHold := some (0x99, 0) }
       s.gie = true ∧ s.rxie = true ∧ s.rxHold = some (0x99, 0) ∧ (s.rx.head + 1) &&& (s.cfg.nRx - 1) ≠ s.rx.tail)
    ∧ (∃ s t : State, s.gie = false ∧ s.rxHold ≠ none ∧ exec .rxh s = .next t)
    ∧ (∃ s t : State, s.gie = true ∧ s.rxie = false ∧ s.rxHold ≠ none ∧ exec .rxh s = .next t)
    ∧ (∃ t : State, live.rxHold = none ∧ exec .rxh live = .next t) :=
  ⟨by decide, by decide,
    ⟨{ ready with rxHold := some (0x41, 0) }, { ready with rxHold := some (0x41, 0) }, by decide, by decide,
      next_of_next? (by decide)⟩,
    ⟨{ live with rxie := false, rxHold := some (0x41, 0) }, { live with rxie := false, rxHold := some (0x41, 0) }, by decide,
      by decide, by decide, next_of_next? (by decide)⟩,
    ⟨live, by decide, next_of_next? (by decide)⟩⟩

/-- E6: eight bytes into an empty buffer of capacity 8. -/
theorem witness_OverflowKeepsTheFirstBytes :
    (let s : State := { live with
       turns := deliveries [(1, 0), (2, 0), (3, 0x10), (4, 0), (5, 0), (6, 0), (7, 0), (8, 0x08)] ++ [.fg] }
     s.fault = none ∧ s.ringOk .rx = true ∧ s.isEmpty .rx = true ∧ s.rxen = true ∧ s.rxie = true ∧ s.gie = true
      ∧ s.rxHold = none
      ∧ s.turns = deliveries [(1, 0), (2, 0), (3, 0x10), (4, 0), (5, 0), (6, 0), (7, 0), (8, 0x08)] ++ [.fg]) := by
  decide

/-- A step that appends a byte to the receive stream. -/
theorem witness_ReceiveStreamIsFifo :
    ∃ s t : State, s.Inv ∧ step s = .next t ∧ s.contents .rx = [1, 2] ∧ t.contents .rx = [1, 2, 3] :=
  ⟨{ live with rx := rxTwo, rxHold := some (3, 0), turns := [.event .rxh] },
    { live with rx := ⟨3, 0, [(1, 1), (2, 2), (3, 3)]⟩ }, by decide, next_of_next? (by decide), by decide, by decide⟩

/-- A step that sets a bit of the accumulator. -/
theorem witness_AccumulatorOnlyGrows : ∃ s t : State, step s = .next t ∧ t.lastError ≠ s.lastError :=
  ⟨{ live with rxHold := some (3, 0x10), turns := [.event .rxh] },
    { live with rx := ⟨1, 0, [(1, 3)]⟩, lastError := 0x10 }, next_of_next? (by decide), by decide⟩

/-- Empty, holding a byte at the wrap, and each ground on which TXH does not run. -/
theorem witness_TransmitHandlerSendsOrDisables :
    (let s : State := { live with txie := true }
     s.gie = true ∧ s.txen = true ∧ s.txie = true ∧ s.txReady = true ∧ s.tx.head = s.tx.tail)
    ∧ (let s : State := { live with tx := ⟨0, 3, [(0, 0x42)]⟩, txie := true }
       s.gie = true ∧ s.txen = true ∧ s.txie = true ∧ s.txReady = true ∧ s.tx.head ≠ s.tx.tail)
    ∧ (∃ s t : State, s.gie = false ∧ exec .txh s = .next t ∧ s.tx = txOne)
    ∧ (∃ s t : State, s.txen = false ∧ s.gie = true ∧ exec .txh s = .next t ∧ s.tx = txOne)
    ∧ (∃ s t : State, s.txie = false ∧ s.gie = true ∧ exec .txh s = .next t ∧ s.tx = txOne)
    ∧ (∃ s t : State, s.txReady = false ∧ s.gie = true ∧ exec .txh s = .next t ∧ s.tx = txOne) :=
  ⟨by decide, by decide,
    ⟨{ ready with tx := txOne, txie := true }, { ready with tx := txOne, txie := true }, by decide, next_of_next? (by decide),
      by decide⟩,
    ⟨{ live with tx := txOne, txie := true, txen := false }, { live with tx := txOne, txie := true, txen := false },
      by decide, by decide, next_of_next? (by decide), by decide⟩,
    ⟨{ live with tx := txOne }, { live with tx := txOne }, by decide, by decide, next_of_next? (by decide), by decide⟩,
    ⟨{ live with tx := txOne, txie := true, txReady := false }, { live with tx := txOne, txie := true, txReady := false },
      by decide, by decide, next_of_next? (by decide), by decide⟩⟩

theorem witness_TransmitterBecomesReady :
    ({ live with txReady := false } : State).txReady = false ∧ live.txReady = true ∧ ∃ t, exec .xmit live = .next t :=
  ⟨by decide, by decide, ⟨live, next_of_next? (by decide)⟩⟩

/-- A step that sends a byte. -/
theorem witness_TransmitStreamIsFifo :
    ∃ s t : State, s.Inv ∧ step s = .next t ∧ s.contents .tx = [1, 2, 3] ∧ t.lineOut = [1] :=
  ⟨{ blocked with turns := [.event .txh] },
    { blocked with tx := { txFull with tail := 1 }, lineOut := [1], txReady := false }, by decide, next_of_next? (by decide),
    by decide, by decide⟩

/-- The least and the greatest malformed READ, and each phase of READ. -/
theorem witness_ReadMicroSteps :
    ((0x20000001 : Word) >>> 28 = 2 ∧ (0x20000001 : Word) ≠ 0x20000000 ∧ (0x2FFFFFFF : Word) >>> 28 = 2
        ∧ (0x2FFFFFFF : Word) ≠ 0x20000000)
      ∧ (State.reset.phase = .idle ∧ State.reset.initialised = false) ∧ (ready.phase = .idle ∧ ready.initialised = true)
      ∧ (let s : State := { ready with rx := ⟨5, 5, []⟩, phase := .r1 }; s.phase = .r1 ∧ s.rx.head = s.rx.tail)
      ∧ (let s : State := { ready with rx := rxTwo, phase := .r1 }; s.phase = .r1 ∧ s.rx.head ≠ s.rx.tail)
      ∧ ({ ready with rx := ⟨1, 7, [(0, 1), (1, 2)]⟩, phase := .r2 } : State).phase = .r2
      ∧ ({ ready with phase := .r3 0xFF 3 } : State).phase = .r3 0xFF 3 := by
  decide

/-- Section 2.6, line 3. -/
theorem witness_ReadReturnsTheOldestByte :
    (let s : State := { ready with rx := ⟨1, 7, [(0, 0xAA), (1, 0xBB)]⟩, program := [0x20000000, 0x40000000],
                                   turns := fgTurns 4 ++ [.fg] }
     s.fault = none ∧ s.phase = .idle ∧ s.initialised = true ∧ s.rx.head ≠ s.rx.tail
      ∧ s.program = 0x20000000 :: [0x40000000] ∧ s.turns = fgTurns 4 ++ [.fg]) := by
  decide

/-- Section 2.6, line 1. -/
theorem witness_ReadOfEmptyReturnsNoData :
    (let s : State := { ready with rx := ⟨5, 5, []⟩, lastError := 0x1E, program := [0x20000000], turns := fgTurns 2 ++ [] }
     s.fault = none ∧ s.phase = .idle ∧ s.initialised = true ∧ s.rx.head = s.rx.tail ∧ s.program = 0x20000000 :: []
      ∧ s.turns = fgTurns 2 ++ []) := by
  decide

/-- Two READs with turns of the other agents in between. -/
theorem witness_PollingAnEmptyBuffer :
    (let s : State := { ready with
       program := [0x20000000, 0x20000000],
       turns := [.fg, .event (.line 0x41 0), .event .rxh, .fg, .event .xmit, .fg, .event .txh, .fg] }
     s.fault = none ∧ s.phase = .idle ∧ s.initialised = true ∧ s.rx.head = s.rx.tail ∧ s.gie = false
      ∧ s.program = List.replicate 2 0x20000000 ++ [] ∧ s.turns.count .fg = 2 * 2) := by
  decide

/-- The least and the greatest malformed WRITE, and each phase of WRITE; W2 at the last index inside and the first
outside. -/
theorem witness_WriteMicroSteps :
    ((0x30000100 : Word) >>> 28 = 3 ∧ ((0x30000100 : Word) >>> 8) &&& 0xFFFFF ≠ 0 ∧ (0x3FFFFFFF : Word) >>> 28 = 3
        ∧ ((0x3FFFFFFF : Word) >>> 8) &&& 0xFFFFF ≠ 0)
      ∧ (State.reset.phase = .idle ∧ State.reset.initialised = false) ∧ (ready.phase = .idle ∧ ready.initialised = true)
      ∧ (blocked.phase = .w1 4 ∧ (blocked.tx.head + 1) &&& (blocked.cfg.nTx - 1) = blocked.tx.tail)
      ∧ (let s : State := { ready with phase := .w1 4, tx := ⟨3, 1, []⟩ }
         s.phase = .w1 4 ∧ (s.tx.head + 1) &&& (s.cfg.nTx - 1) ≠ s.tx.tail)
      ∧ (let s : State := { ready with phase := .w2 4 3 }; s.phase = .w2 4 3 ∧ 3 < s.cfg.nTx)
      ∧ (let s : State := { ready with phase := .w2 4 4 }; s.phase = .w2 4 4 ∧ s.cfg.nTx ≤ 4)
      ∧ ({ ready with phase := .w3 4 1 } : State).phase = .w3 4 1
      ∧ ({ ready with phase := .w4 4 1 } : State).phase = .w4 4 1 := by
  decide

/-- Section 2.7, line 2. -/
theorem witness_WriteStoresPublishesEnables :
    (let s : State := { ready with tx := ⟨3, 1, [(2, 8), (3, 9)]⟩, program := [0x30000042], turns := fgTurns 5 ++ [] }
     s.fault = none ∧ s.phase = .idle ∧ s.initialised = true ∧ (s.tx.head + 1) &&& (s.cfg.nTx - 1) ≠ s.tx.tail
      ∧ s.program = (0x30000000 ||| (0x42 : Byte).setWidth 32) :: [] ∧ s.turns = fgTurns 5 ++ []) := by
  decide

theorem witness_WritesExpandsToWrites : ready.phase = .idle := by decide

/-- A text that fills the buffer, and the empty text. -/
theorem witness_WritesQueuesTheText :
    (let s : State := { ready with tx := txOne, turns := fgTurns 10 ++ [.event .txh] }
     s.fault = none ∧ s.phase = .idle ∧ s.initialised = true ∧ s.ringOk .tx = true
      ∧ s.count .tx + (([0x42, 0x43, 0, 0x44] : List Byte).takeWhile (· ≠ 0)).length ≤ s.cfg.nTx - 1
      ∧ s.turns = fgTurns (5 * (([0x42, 0x43, 0, 0x44] : List Byte).takeWhile (· ≠ 0)).length) ++ [.event .txh])
    ∧ (let s : State := { ready with tx := txFull, turns := [.fg] }
       s.ringOk .tx = true ∧ s.count .tx + (([0] : List Byte).takeWhile (· ≠ 0)).length ≤ s.cfg.nTx - 1
      ∧ s.turns = fgTurns (5 * (([0] : List Byte).takeWhile (· ≠ 0)).length) ++ [.fg]) := by
  decide

/-- P4b. -/
theorem witness_FullWriteWithInterruptsOffHangs :
    (let s : State := { blocked with gie := false }
     s.fault = none ∧ s.phase = .w1 4 ∧ s.isFull .tx = true ∧ s.gie = false) := by
  decide

/-- A transmitter that is not ready, and turns of other agents in between. -/
theorem witness_FullWriteGoesOnOnceDrained :
    (let s : State := { blocked with
       txReady := false, lineOut := [0],
       turns := [.fg, .event .txh, .event .xmit, .event (.line 0x41 0), .event .txh, .event .rxh, .fg] }
     s.Inv ∧ s.isFull .tx = true ∧ s.fault = none ∧ s.phase = .w1 4 ∧ s.gie = true
      ∧ [Turn.event .xmit, Turn.event .txh, Turn.fg].Sublist s.turns) := by
  decide

/-! A weakly fair run from a WRITE that waits: TXH makes room, XMIT makes the transmitter ready, WRITE goes on and
returns, and CLI turns interrupts off. From then on no agent but LINE is ever enabled (R226), whatever the free turns. -/

/-- Interrupts off, nothing to issue, the transmitter ready. -/
abbrev quiet (s : State) : Prop :=
  s.fault = none ∧ s.phase = .idle ∧ s.program = [] ∧ s.gie = false ∧ s.txReady = true

theorem step_quiet (s : State) (hs : quiet s) : ∃ t, step s = .next t ∧ quiet t := by
  obtain ⟨hf, hp, hw, hg, hr⟩ := hs
  have htk : quiet s.takeTurn := by unfold quiet; simp [hf, hp, hw, hg, hr]
  have hevent : ∀ e : Event, s.nextTurn = .event e → ∀ t, exec e.instr s.takeTurn = .next t → quiet t →
      ∃ t, step s = .next t ∧ quiet t := fun e he t hx ht =>
    ⟨t, step_run s _ t _ hf (fetch_event s e he) hx ht.1, ht⟩
  cases hn : s.nextTurn with
  | fg => exact ⟨s.takeTurn, by simp [step, hf, fetch_done s hn hp hw], htk⟩
  | event e =>
    cases e with
    | rxh => exact hevent _ hn _ (execRxh_disabled _ (by simp [State.rxhEnabled, hg])) htk
    | txh =>
      exact hevent _ hn _ (State.whenEnabled_false _ _ _ (by simp [State.txhEnabled, hg])) htk
    | xmit =>
      exact hevent _ hn _ (State.whenEnabled_false _ _ _ (by simp [State.xmitEnabled, hr])) htk
    | line b status =>
      rcases execLine_cases b status s.takeTurn with ⟨_, hx⟩ | ⟨_, hx⟩
      · exact hevent _ hn _ hx htk
      · exact hevent _ hn _ hx htk

/-- The state after `n` steps, from `s`. -/
def after (s : State) : Nat → State
  | 0 => s
  | n + 1 => (next? (step (after s n))).getD (after s n)

theorem after_succ (s t : State) (n : Nat) (h : step (after s n) = .next t) : after s (n + 1) = t := by
  simp [after, h, next?]

/-- WRITE 4 waits on a full buffer; CLI follows it. -/
def draining : State :=
  { blocked with program := [0x50000000], turns := [.event .txh, .event .xmit] ++ fgTurns 5 }

theorem draining_quiet (k : Nat) : quiet (after draining (7 + k)) := by
  induction k with
  | zero => decide
  | succ k ih =>
    obtain ⟨t, ht, hq⟩ := step_quiet _ ih
    rw [← Nat.add_assoc, after_succ _ t _ ht]
    exact hq

theorem draining_isRun : IsRun (after draining) := by
  intro n
  have hnext : ∃ t, step (after draining n) = .next t := by
    apply step_total
    by_cases hn : n < 7
    · revert n
      decide
    · obtain ⟨k, rfl⟩ := Nat.exists_eq_add_of_le (Nat.le_of_not_lt hn)
      exact (draining_quiet k).1
  obtain ⟨t, ht⟩ := hnext
  rw [after_succ _ t _ ht, ht]

theorem draining_weaklyFair : WeaklyFair (after draining) := by
  intro a ha n hen
  exfalso
  obtain ⟨_, hp, hw, hg, hr⟩ := draining_quiet n
  have := hen (7 + n) (Nat.le_add_left n 7)
  cases a <;> simp_all [State.enabled, State.fgEnabled, State.rxhEnabled, State.txhEnabled, State.xmitEnabled]

/-- The run meets every premise and is weakly fair; the WRITE waits on a full buffer at its start. -/
theorem witness_FairRunsLetFullWriteGoOn :
    ∃ (σ : Nat → State) (b : Byte), IsRun σ ∧ (σ 0).Inv ∧ (σ 0).phase = .w1 b ∧ (σ 0).gie = true
      ∧ (σ 0).isFull .tx = true ∧ WeaklyFair σ :=
  ⟨after draining, 4, draining_isRun, by decide, by decide, by decide, by decide, draining_weaklyFair⟩

/-- A command in progress in a phase of each kind. -/
theorem witness_OnlyFullWriteBlocks :
    (let s : State := { ready with phase := .w1 4 }
     s.fault = none ∧ s.phase.command? = some (.write 4) ∧ ¬∃ b, s.phase = .w1 b ∧ s.isFull .tx = true)
    ∧ (let s : State := { ready with phase := .r2 }
       s.fault = none ∧ s.phase.command? = some .read ∧ ¬∃ b, s.phase = .w1 b ∧ s.isFull .tx = true) := by
  refine ⟨⟨by decide, by decide, ?_⟩, ⟨by decide, by decide, ?_⟩⟩
  · rintro ⟨b, _, h⟩
    revert h
    decide
  · rintro ⟨b, h, _⟩
    cases h

theorem witness_SeiAndCliSetGie :
    ((0x40000001 : Word) >>> 28 = 4 ∧ (0x40000001 : Word) &&& 0x0FFFFFFF ≠ 0)
      ∧ ((0x5FFFFFFF : Word) >>> 28 = 5 ∧ (0x5FFFFFFF : Word) &&& 0x0FFFFFFF ≠ 0)
      ∧ (State.reset.phase = .idle ∧ State.reset.gie = false) ∧ (live.phase = .idle ∧ live.gie = true) := by
  decide

theorem witness_GieChangesOnlyBySeiAndCli :
    (∃ s t : State, step s = .next t ∧ t.gie ≠ s.gie ∧ t.gie = true)
      ∧ ∃ s t : State, step s = .next t ∧ t.gie ≠ s.gie ∧ t.gie = false :=
  ⟨⟨{ ready with program := [0x40000000], turns := [.fg] }, live, next_of_next? (by decide), by decide, by decide⟩,
    ⟨{ live with program := [0x50000000], turns := [.fg] }, ready, next_of_next? (by decide), by decide, by decide⟩⟩

theorem witness_InitEmptiesAndEnables :
    ((0x10010000 : Word) >>> 28 = 1 ∧ ((0x10010000 : Word) >>> 16) &&& 0xFFF ≠ 0)
      ∧ (live.phase = .idle ∧ live.gie = true) ∧ (State.reset.phase = .idle ∧ State.reset.gie = false) := by
  decide

theorem witness_InitLeavesAlone :
    ∃ s t : State, exec (.init 0xFFFF) s = .next t ∧ s.rxHold = some (0x41, 0) ∧ s.lastError = 0x1E :=
  ⟨{ State.reset with rxHold := some (0x41, 0), lastError := 0x1E },
    { ready with rxHold := some (0x41, 0), lastError := 0x1E, baudDiv := 0x7FFF, highSpeed := true },
    next_of_next? (by decide), by decide, by decide⟩

/-- E8. -/
theorem witness_InitTwiceIsIdempotent :
    (let s : State := { ready with
       rx := ⟨5, 2, []⟩, tx := ⟨3, 1, []⟩, program := [0x10000033, 0x1000FFFF, 0x20000000], turns := fgTurns 2 ++ [] }
     s.fault = none ∧ s.phase = .idle ∧ s.gie = false ∧ s.ringOk .rx = true ∧ s.ringOk .tx = true
      ∧ s.program = (0x10000000 ||| (0x33 : Half).setWidth 32) :: (0x10000000 ||| (0xFFFF : Half).setWidth 32) :: [0x20000000]
      ∧ s.turns = fgTurns 2 ++ []) := by
  decide

theorem witness_BaudOutputsAreNeverRead : State.reset.phase = .idle ∧ State.reset.gie = false := by decide

/-- Both commands. -/
theorem witness_ReadOrWriteBeforeInitFaults :
    (let s : State := { State.reset with program := [0x20000000], turns := [.fg] }
     s.fault = none ∧ s.nextTurn = .fg ∧ s.phase = .idle ∧ s.program = 0x20000000 :: [] ∧ s.initialised = false)
    ∧ (let s : State := { State.reset with program := [0x300000FF], turns := [.fg] }
       s.fault = none ∧ s.nextTurn = .fg ∧ s.phase = .idle
        ∧ s.program = (0x30000000 ||| (0xFF : Byte).setWidth 32) :: [] ∧ s.initialised = false) := by
  decide

theorem witness_InitWithInterruptsEnabledFaults :
    (let s : State := { live with program := [0x10000033], turns := [.fg] }
     s.fault = none ∧ s.nextTurn = .fg ∧ s.phase = .idle ∧ s.program = (0x10000000 ||| (0x33 : Half).setWidth 32) :: []
      ∧ s.gie = true) := by
  decide

theorem witness_FaultsAreRecordedAndFinal :
    (∃ s t : State, step s = .next t ∧ t.fault = some .illegalCommand)
      ∧ (State.reset.raise .indexOutOfRange).fault = some .indexOutOfRange :=
  ⟨⟨{ ready with program := [0xF0000000], turns := [.fg] },
    { ready with program := [0xF0000000], turns := [.fg], fault := some .illegalCommand }, next_of_next? (by decide),
    by decide⟩, by decide⟩

theorem witness_IndexOutOfRangeIsUnreachable :
    ∃ t, State.Reachable Config.default t ∧ t.fault = some .notInitialised :=
  ⟨_, ⟨[0x20000000], [.fg], 1, next_of_next? (o := Core.run core 1 (State.reset.load [0x20000000] [.fg]))
    (t := { State.reset with program := [0x20000000], turns := [.fg], fault := some .notInitialised }) (by decide)⟩, rfl⟩

/-- A step for each clause that changes the field it names. -/
theorem witness_OnlyOwnersWriteTheBuffers :
    (∃ s t : State, step s = .next t ∧ t.rx.head ≠ s.rx.head ∧ t.rx.storage ≠ s.rx.storage)
      ∧ (∃ s t : State, step s = .next t ∧ t.tx.head ≠ s.tx.head)
      ∧ (∃ s t : State, step s = .next t ∧ t.tx.storage ≠ s.tx.storage)
      ∧ (∃ s t : State, step s = .next t ∧ t.rx.tail ≠ s.rx.tail ∧ s.phase = .r2)
      ∧ (∃ s t : State, step s = .next t ∧ t.tx.tail ≠ s.tx.tail ∧ s.phase = .w1 4)
      ∧ (∃ s t : State, step s = .next t ∧ t.rx.tail ≠ s.rx.tail ∧ t.tx.tail ≠ s.tx.tail ∧ s.phase = .idle) :=
  ⟨⟨{ live with rxHold := some (7, 0), turns := [.event .rxh] }, { live with rx := ⟨1, 0, [(1, 7)]⟩ },
      next_of_next? (by decide), by decide, by decide⟩,
    ⟨{ ready with tx := ⟨0, 0, [(1, 7)]⟩, phase := .w3 7 1, turns := [.fg] },
      { ready with tx := ⟨1, 0, [(1, 7)]⟩, phase := .w4 7 1 }, next_of_next? (by decide), by decide⟩,
    ⟨{ ready with phase := .w2 7 1, turns := [.fg] }, { ready with tx := ⟨0, 0, [(1, 7)]⟩, phase := .w3 7 1 },
      next_of_next? (by decide), by decide⟩,
    ⟨{ ready with rx := rxTwo, phase := .r2, turns := [.fg] }, { ready with rx := { rxTwo with tail := 1 }, phase := .r3 1 1 },
      next_of_next? (by decide), by decide, by decide⟩,
    ⟨{ blocked with turns := [.event .txh] },
      { blocked with tx := { txFull with tail := 1 }, lineOut := [1], txReady := false }, next_of_next? (by decide), by decide,
      by decide⟩,
    ⟨{ ready with rx := rxTwo, tx := txOne, program := [0x10000000], turns := [.fg] },
      { ready with rx := { rxTwo with tail := 2 }, tx := { txOne with tail := 1 } }, next_of_next? (by decide), by decide,
      by decide, by decide⟩⟩

/-- RXH and TXH, each while a WRITE waits. -/
theorem witness_HandlersLeaveTheForeground :
    (∃ s t : State, s.nextTurn = .event .rxh ∧ step s = .next t ∧ s.phase = .w1 4 ∧ t.rx ≠ s.rx)
      ∧ ∃ s t : State, s.nextTurn = .event .txh ∧ step s = .next t ∧ s.phase = .w1 4 ∧ t.tx ≠ s.tx :=
  ⟨⟨{ blocked with rxHold := some (7, 0), turns := [.event .rxh] }, { blocked with rx := ⟨1, 0, [(1, 7)]⟩ }, by decide,
      next_of_next? (by decide), by decide, by decide⟩,
    ⟨{ blocked with turns := [.event .txh] },
      { blocked with tx := { txFull with tail := 1 }, lineOut := [1], txReady := false }, by decide,
      next_of_next? (by decide), by decide, by decide⟩⟩

/-- One operation of each path. -/
theorem witness_PathsAreIndependent :
    (∃ i : Instr, i = .txh ∨ i = .xmit) ∧ ∃ i : Instr, i = .rxh ∨ ∃ b status, i = .line b status :=
  ⟨⟨.txh, by decide⟩, ⟨.line 0x41 0, .inr ⟨0x41, 0, rfl⟩⟩⟩

/-- A step of an operation that changes what its frame lets it change. -/
theorem witness_RegisterFrames :
    (∃ t : State, exec (.init 0x33) State.reset = .next t ∧ t.initialised = true)
      ∧ ∃ t : State, exec .txh blocked = .next t ∧ t.lineOut = [1] :=
  ⟨⟨{ ready with baudDiv := 0x33 }, next_of_next? (by decide), by decide⟩,
    ⟨{ blocked with tx := { txFull with tail := 1 }, lineOut := [1], txReady := false }, next_of_next? (by decide),
      by decide⟩⟩

/-- RXH with room, RXH on a full buffer, WRITE at W2 inside and outside the storage. -/
theorem witness_StorageFrames :
    (∃ s t : State, exec .rxh s = .next t ∧ s.rxHold = some (7, 0) ∧ s.rxhEnabled = true ∧ s.isFull .rx = false
        ∧ s.nextHead .rx = 0)
      ∧ (∃ s t : State, exec .rxh s = .next t ∧ s.rxHold = some (7, 0) ∧ s.rxhEnabled = true ∧ s.isFull .rx = true)
      ∧ (∃ s t : State, exec (.write 7) s = .next t ∧ s.phase = .w2 7 3 ∧ 3 < s.cfg.nTx)
      ∧ (∃ s t : State, exec (.write 7) s = .next t ∧ s.phase = .w2 7 4 ∧ ¬4 < s.cfg.nTx) :=
  ⟨⟨{ live with rx := ⟨7, 3, []⟩, rxHold := some (7, 0) }, { live with rx := ⟨0, 3, [(0, 7)]⟩ }, next_of_next? (by decide),
      by decide, by decide, by decide, by decide⟩,
    ⟨{ live with rx := rxFull, rxHold := some (7, 0) }, { live with rx := rxFull, lastError := 2 },
      next_of_next? (by decide), by decide, by decide, by decide⟩,
    ⟨{ ready with phase := .w2 7 3 }, { ready with tx := ⟨0, 0, [(3, 7)]⟩, phase := .w3 7 3 }, next_of_next? (by decide),
      by decide, by decide⟩,
    ⟨{ ready with phase := .w2 7 4 }, { ready with phase := .w2 7 4, fault := some .indexOutOfRange },
      next_of_next? (by decide), by decide, by decide⟩⟩

/-- A run ended with a byte still held, interrupts off; the next turn is TXH's. -/
theorem witness_EndedRunsStandStill :
    ∃ s t : State, s.ended = true ∧ (∀ b status, s.nextTurn ≠ .event (.line b status)) ∧ step s = .next t :=
  ⟨{ ready with rxHold := some (7, 0), turns := [.event .txh] }, { ready with rxHold := some (7, 0) }, by decide,
    fun b status h => absurd (show Turn.event .txh = .event (.line b status) from h) (by simp), next_of_next? (by decide)⟩

end Sys2Proof.Tests
end

/-! Construction of a configuration (00_scope.md R11, R12): which numbers the check accepts, and what is built. -/

namespace Sys2Proof

/-- The test by `Nat.log2` accepts the powers of two from 2 on, and nothing else (R12, R100). -/
theorem validCapacity_iff (n : Nat) : validCapacity n = true ↔ ∃ k, n = 2 ^ (k + 1) := by
  constructor
  · intro h
    obtain ⟨k, rfl, hk⟩ := validCapacity_pow n h
    cases k with
    | zero => exact absurd hk (by decide)
    | succ k => exact ⟨k, rfl⟩
  · rintro ⟨k, rfl⟩
    have two_le : 2 ≤ 2 ^ (k + 1) := Nat.le_self_pow k.succ_ne_zero 2
    simp [validCapacity, Nat.log2_two_pow, two_le]

theorem validConfig_iff (nRx nTx idxW : Nat) :
    validConfig nRx nTx idxW = true ↔
      (∃ j, nRx = 2 ^ (j + 1)) ∧ (∃ k, nTx = 2 ^ (k + 1)) ∧ nRx ≤ 2 ^ idxW ∧ nTx ≤ 2 ^ idxW := by
  simp only [validConfig, Bool.and_eq_true, decide_eq_true_eq, validCapacity_iff, and_assoc]

namespace Config

theorem make?_of_valid (nRx nTx idxW : Nat) (m : List (String × Nat)) (h : validConfig nRx nTx idxW = true) :
    make? nRx nTx idxW m = some ⟨nRx, nTx, idxW, m, h⟩ := dif_pos h

theorem make?_eq_none_iff (nRx nTx idxW : Nat) (m : List (String × Nat)) :
    make? nRx nTx idxW m = none ↔ ¬ validConfig nRx nTx idxW = true := by
  constructor
  · intro hnone hvalid
    rw [make?_of_valid nRx nTx idxW m hvalid] at hnone
    cases hnone
  · exact fun h => dif_neg h

end Config

/-- Settles O17: each ground of refusal contradicts one capacity being `2 ^ (k + 1)`, which is what the check accepts. -/
theorem illFormedConfigurationsAreRefused : Obligations.IllFormedConfigurationsAreRefused := by
  intro nRx nTx idxW m
  constructor
  · intro ground
    rw [Config.make?_eq_none_iff, validConfig_iff]
    rintro ⟨⟨j, hRx⟩, ⟨k, hTx⟩, -, -⟩
    have ne_one (i : Nat) : 2 ^ (i + 1) ≠ 1 := (Nat.one_lt_two_pow i.succ_ne_zero).ne'
    rcases ground with noPow | noPow | one | one
    · exact noPow ⟨j + 1, hRx⟩
    · exact noPow ⟨k + 1, hTx⟩
    · exact ne_one j (hRx.symm.trans one)
    · exact ne_one k (hTx.symm.trans one)
  · intro j k hRx hTx fitsRx fitsTx
    have valid := (validConfig_iff nRx nTx idxW).mpr ⟨⟨j, hRx⟩, ⟨k, hTx⟩, fitsRx, fitsTx⟩
    exact ⟨_, Config.make?_of_valid nRx nTx idxW m valid, rfl, rfl, rfl, rfl⟩

end Sys2Proof

/-! The state's control fields (10_state.md): what power-on leaves in them (R39 to R42), that only RXH writes the
accumulator (R25), and that no step reads the baud outputs (R28). -/

namespace Sys2Proof.Machine

open Host

/-! ### Power-on -/

/-- Settles O1: power-on sets every index and the accumulator to 0, and equal indices are an empty buffer. -/
theorem powerOnIndicesAndAccumulator : Obligations.PowerOnIndicesAndAccumulator := fun c =>
  ⟨rfl, rfl, rfl, rfl, ((State.powerOn c).isEmpty_iff .rx).mpr rfl, ((State.powerOn c).isEmpty_iff .tx).mpr rfl, rfl⟩

/-- Settles O2: each field is as `State.powerOn` writes it. -/
theorem powerOnControlState : Obligations.PowerOnControlState := fun _ =>
  ⟨rfl, rfl, rfl, rfl, rfl, rfl, rfl, rfl, rfl, rfl, rfl, rfl⟩

/-! ### The accumulator (R25) -/

/-- RXH ORs into the accumulator, and only when it is enabled. -/
theorem execRxh_lastError (s t : State) (hx : execRxh s = .next t) :
    t.lastError = s.lastError ∨ s.rxhEnabled = true ∧ ∃ e, t.lastError = s.lastError ||| e := by
  rcases execRxh_cases s with ⟨_, h⟩ | ⟨_, status, he, _, _, h⟩ | ⟨_, status, he, _, _, h⟩ <;>
    cases h.symm.trans hx
  · exact .inl rfl
  · exact .inr ⟨he, overflowCandidate status, rfl⟩
  · exact .inr ⟨he, lastErrorCandidate status, rfl⟩

/-- A command of one micro-step leaves the accumulator if its effect does. -/
theorem whenIdle_lastError (s t u : State) (hu : u.lastError = s.lastError) (hx : s.whenIdle (.next u) = .next t) :
    t.lastError = s.lastError := by
  rcases whenIdle_cases s (.next u) with ⟨_, h⟩ | ⟨_, h⟩ <;> cases h.symm.trans hx
  · exact hu
  · rfl

/-- Every operation but RXH leaves the accumulator. -/
theorem exec_lastError (i : Instr) (s t : State) (hi : i ≠ .rxh) (hx : exec i s = .next t) :
    t.lastError = s.lastError := by
  cases i with
  | init sel =>
    rcases execInit_cases sel s with ⟨_, h⟩ | ⟨_, _, h⟩ | ⟨_, _, h⟩ <;> cases h.symm.trans hx <;> rfl
  | read =>
    rcases execRead_cases s with ⟨_, _, h⟩ | ⟨_, _, h⟩ | ⟨_, _, h⟩ | ⟨_, _, h⟩ | ⟨_, h⟩ | ⟨_, _, _, h⟩ | ⟨_, h⟩ <;>
      cases h.symm.trans hx <;> rfl
  | write b =>
    rcases execWrite_cases b s with ⟨_, _, h⟩ | ⟨_, _, h⟩ | ⟨_, _, _, h⟩ | ⟨_, _, _, h⟩ | ⟨_, _, _, _, h⟩
      | ⟨_, _, _, _, h⟩ | ⟨_, _, _, h⟩ | ⟨_, _, _, h⟩ | ⟨_, h⟩ <;> cases h.symm.trans hx <;> rfl
  | sei => exact whenIdle_lastError s t (s.setGie true) rfl hx
  | cli => exact whenIdle_lastError s t (s.setGie false) rfl hx
  | writes text =>
    exact whenIdle_lastError s t (s.setProgram ((textBytes text).map encodeWrite ++ s.program)) rfl hx
  | rxh => exact absurd rfl hi
  | txh => rcases execTxh_cases s with ⟨_, h⟩ | ⟨_, _, h⟩ | ⟨_, _, h⟩ <;> cases h.symm.trans hx <;> rfl
  | line b status => rcases execLine_cases b status s with ⟨_, h⟩ | ⟨_, h⟩ <;> cases h.symm.trans hx <;> rfl
  | xmit => rcases execXmit_cases s with ⟨_, h⟩ | ⟨_, h⟩ <;> cases h.symm.trans hx <;> rfl

/-- No command word spells RXH. -/
theorem decodeCommand_ne_rxh (w : Word) (i : Instr) (h : decodeCommand w = .ok i) : i ≠ .rxh := by
  rcases decodeCommand_ok w i h with ⟨_, _, rfl⟩ | ⟨_, rfl⟩ | ⟨_, _, rfl⟩ | ⟨_, rfl⟩ | ⟨_, rfl⟩ <;> nofun

/-- RXH is no command in progress. -/
theorem command?_ne_rxh (p : Phase) (i : Instr) (h : p.command? = some i) : i ≠ .rxh := by
  rcases command?_cases p i h with rfl | ⟨_, rfl⟩ <;> nofun

/-- The other events run other operations. -/
theorem instr_ne_rxh (e : Event) (he : e ≠ .rxh) : e.instr ≠ .rxh := by
  cases e with
  | rxh => exact absurd rfl he
  | txh | line | xmit => nofun

/-- Taking a turn out of the schedule neither enables nor disables RXH. -/
@[simp] theorem State.takeTurn_rxhEnabled (s : State) : s.takeTurn.rxhEnabled = s.rxhEnabled := by
  simp [State.rxhEnabled]

/-- A step leaves the accumulator, or it is an enabled RXH's and ORs into it. -/
theorem step_lastError (s t : State) (h : step s = .next t) :
    t.lastError = s.lastError
    ∨ s.nextTurn = .event .rxh ∧ s.rxhEnabled = true ∧ ∃ e, t.lastError = s.lastError ||| e := by
  obtain ⟨-, ⟨r, rfl⟩ | ⟨-, -, -, rfl⟩ | ⟨e, he, hx, -⟩ | ⟨i, -, hc, hx, -⟩ | ⟨w, ws, i, -, -, -, hd, hx, -⟩⟩ :=
    step_inversion s t h
  · exact .inl rfl
  · exact .inl s.takeTurn_lastError
  · by_cases hr : e = .rxh
    · subst hr
      rcases execRxh_lastError _ _ hx with keeps | grows
      · exact .inl (keeps.trans s.takeTurn_lastError)
      · exact .inr ⟨he, by simpa using grows⟩
    · exact .inl ((exec_lastError _ _ _ (instr_ne_rxh e hr) hx).trans s.takeTurn_lastError)
  · exact .inl ((exec_lastError i _ _ (command?_ne_rxh _ i hc) hx).trans s.takeTurn_lastError)
  · exact .inl ((exec_lastError i _ _ (decodeCommand_ne_rxh w i hd) hx).trans s.takeTurn_lastError)

/-- No bit set in `a` is clear in `a ||| e`. -/
theorem and_not_or_self (a e : Byte) : a &&& ~~~(a ||| e) = 0 := by
  rw [BitVec.not_or, ← BitVec.and_assoc, BitVec.and_not_self]
  exact BitVec.zero_and

/-- Settles O28: a step keeps the accumulator or ORs into it, the second only as an enabled RXH. -/
theorem accumulatorOnlyGrows : Obligations.AccumulatorOnlyGrows := by
  intro s t h
  rcases step_lastError s t h with keeps | ⟨turn, enabled, e, grows⟩
  · exact ⟨by rw [keeps]; exact BitVec.and_not_self _, fun changed => absurd keeps changed⟩
  · exact ⟨by rw [grows]; exact and_not_or_self _ _, fun _ => ⟨turn, enabled⟩⟩

/-! ### The baud outputs (R28) -/

/-- The state with the given baud outputs. -/
def State.withBaud (d : BitVec 15) (h : Bool) (s : State) : State := { s with baudDiv := d, highSpeed := h }

/-- What a turn comes to, with the state changed by `f`. -/
def Fetched.mapState (f : State → State) : Fetched → Fetched
  | .run i s => .run i (f s)
  | .illegal e => .illegal e
  | .pass s => .pass (f s)

section baud

variable (d : BitVec 15) (h : Bool) (s : State)

@[simp] theorem State.withBaud_phase : (s.withBaud d h).phase = s.phase := rfl
@[simp] theorem State.withBaud_program : (s.withBaud d h).program = s.program := rfl
@[simp] theorem State.withBaud_fault : (s.withBaud d h).fault = s.fault := rfl
@[simp] theorem State.withBaud_isEmpty (B : BufId) : (s.withBaud d h).isEmpty B = s.isEmpty B := by cases B <;> rfl
@[simp] theorem State.withBaud_isFull (B : BufId) : (s.withBaud d h).isFull B = s.isFull B := by cases B <;> rfl

theorem mapNext_withBaud_twice (o : Outcome State Fault Refusal) :
    mapNext (State.withBaud d h) (mapNext (State.withBaud d h) o) = mapNext (State.withBaud d h) o := by
  cases o <;> rfl

/-! The shared operations -/

theorem State.whenEnabled_withBaud (e : Bool) (o : Outcome State Fault Refusal) :
    (s.withBaud d h).whenEnabled e (mapNext (State.withBaud d h) o)
      = mapNext (State.withBaud d h) (s.whenEnabled e o) := by
  cases e <;> rfl

theorem State.whenIdle_withBaud (o : Outcome State Fault Refusal) :
    (s.withBaud d h).whenIdle (mapNext (State.withBaud d h) o) = mapNext (State.withBaud d h) (s.whenIdle o) := by
  rcases whenIdle_cases s o with ⟨hp, hs⟩ | ⟨hp, hs⟩ <;> rw [hs]
  · exact State.whenIdle_idle _ _ hp
  · exact State.whenIdle_busy _ _ hp

theorem State.enter_withBaud (p : Phase) :
    (s.withBaud d h).enter p = mapNext (State.withBaud d h) (s.enter p) := by
  cases hi : s.initialised with
  | true => rw [State.enter_ok s p hi]; exact State.enter_ok _ p hi
  | false => rw [State.enter_fault s p hi]; exact State.enter_fault _ p hi

/-! The operations other than INIT -/

theorem execRxh_withBaud : execRxh (s.withBaud d h) = mapNext (State.withBaud d h) (execRxh s) := by
  rcases execRxh_cases s with ⟨he, hs⟩ | ⟨b, status, he, hh, hf, hs⟩ | ⟨b, status, he, hh, hf, hs⟩ <;> rw [hs]
  · exact execRxh_disabled _ he
  · exact execRxh_full _ b status he hh hf
  · exact execRxh_room _ b status he hh hf

theorem finish_transmitByte_withBaud : (s.withBaud d h).finish (transmitByte (s.withBaud d h))
    = mapNext (State.withBaud d h) (s.finish (transmitByte s)) := by
  cases he : s.isEmpty .tx <;> simp only [transmitByte, State.withBaud_isEmpty, he, State.pop_eq] <;> rfl

theorem execTxh_withBaud : execTxh (s.withBaud d h) = mapNext (State.withBaud d h) (execTxh s) := by
  rw [execTxh, finish_transmitByte_withBaud]
  exact s.whenEnabled_withBaud d h _ _

theorem execRead_withBaud : execRead (s.withBaud d h) = mapNext (State.withBaud d h) (execRead s) := by
  cases hp : s.phase with
  | idle => simpa only [execRead, State.withBaud_phase, hp] using s.enter_withBaud d h .r1
  | r1 =>
    cases he : s.isEmpty .rx <;>
      simp only [execRead, State.withBaud_phase, hp, readCheck, State.withBaud_isEmpty, he] <;> rfl
  | r2 => simp only [execRead, State.withBaud_phase, hp, readConsume_eq]; rfl
  | r3 | w1 | w2 | w3 | w4 => simp only [execRead, State.withBaud_phase, hp]; rfl

theorem execWrite_withBaud (b : Byte) :
    execWrite b (s.withBaud d h) = mapNext (State.withBaud d h) (execWrite b s) := by
  cases hp : s.phase with
  | idle => simpa only [execWrite, State.withBaud_phase, hp] using s.enter_withBaud d h (.w1 b)
  | w1 c =>
    cases hf : s.isFull .tx <;>
      simp only [execWrite, State.withBaud_phase, hp, writeCheck, State.withBaud_isFull, hf] <;> rfl
  | w2 c n =>
    simp only [execWrite, State.withBaud_phase, hp]
    rcases Nat.lt_or_ge n s.cfg.nTx with hn | hn
    · rw [writeStore_ok c n s hn, writeStore_ok c n (s.withBaud d h) hn]; rfl
    · rw [writeStore_error c n s hn, writeStore_error c n (s.withBaud d h) hn]; rfl
  | w3 | w4 | r1 | r2 | r3 => simp only [execWrite, State.withBaud_phase, hp]; rfl

/-- An operation other than INIT carries the baud outputs along unread. -/
theorem exec_withBaud (i : Instr) (hi : ∀ sel, i ≠ .init sel) :
    exec i (s.withBaud d h) = mapNext (State.withBaud d h) (exec i s) := by
  cases i with
  | init sel => exact absurd rfl (hi sel)
  | read => exact execRead_withBaud d h s
  | write b => exact execWrite_withBaud d h s b
  | sei => exact s.whenIdle_withBaud d h (.next (s.setGie true))
  | cli => exact s.whenIdle_withBaud d h (.next (s.setGie false))
  | writes text =>
    exact s.whenIdle_withBaud d h (.next (s.setProgram ((textBytes text).map encodeWrite ++ s.program)))
  | rxh => exact execRxh_withBaud d h s
  | txh => exact execTxh_withBaud d h s
  | line b status => exact s.whenEnabled_withBaud d h _ (.next (s.setHold (some (b, status))))
  | xmit => exact s.whenEnabled_withBaud d h _ (.next s.transmitterReady)

/-- INIT overwrites the baud outputs, so it commutes with a change of them only up to that change. -/
theorem execInit_withBaud (sel : Half) : mapNext (State.withBaud d h) (execInit sel (s.withBaud d h))
    = mapNext (State.withBaud d h) (execInit sel s) := by
  rcases execInit_cases sel s with ⟨hp, hs⟩ | ⟨hp, hg, hs⟩ | ⟨hp, hg, hs⟩ <;> rw [hs]
  · rw [execInit_busy sel (s.withBaud d h) hp]; rfl
  · rw [execInit_gie sel (s.withBaud d h) hp hg]; rfl
  · rw [execInit_ok sel (s.withBaud d h) hp hg]; rfl

theorem mapNext_exec_withBaud (i : Instr) : mapNext (State.withBaud d h) (exec i (s.withBaud d h))
    = mapNext (State.withBaud d h) (exec i s) := by
  by_cases hi : ∃ sel, i = .init sel
  · obtain ⟨sel, rfl⟩ := hi
    exact execInit_withBaud d h s sel
  · rw [exec_withBaud d h s i (not_exists.mp hi), mapNext_withBaud_twice]

/-! The step -/

theorem phase_idle_of_no_command (p : Phase) (hc : p.command? = none) : p = .idle := by
  cases p with
  | idle => rfl
  | r1 | r2 | r3 | w1 | w2 | w3 | w4 => cases hc

theorem State.takeTurn_withBaud : (s.withBaud d h).takeTurn = s.takeTurn.withBaud d h := by
  cases ht : s.turns with
  | nil => rw [s.takeTurn_free ht, (s.withBaud d h).takeTurn_free ht]; rfl
  | cons t ts => rw [s.takeTurn_listed t ts ht, (s.withBaud d h).takeTurn_listed t ts ht]; rfl

theorem State.fetchCommand_withBaud :
    (s.withBaud d h).fetchCommand = s.fetchCommand.mapState (State.withBaud d h) := by
  cases hw : s.program with
  | nil => simp only [State.fetchCommand, State.withBaud_program, hw]; rfl
  | cons w ws => cases hd : decodeCommand w <;> simp only [State.fetchCommand, State.withBaud_program, hw, hd] <;> rfl

theorem State.fetch_withBaud : (s.withBaud d h).fetch = s.fetch.mapState (State.withBaud d h) := by
  cases hn : s.nextTurn with
  | event e => rw [fetch_event s e hn, fetch_event (s.withBaud d h) e hn, State.takeTurn_withBaud]; rfl
  | fg =>
    cases hc : s.phase.command? with
    | some i => rw [fetch_busy s i hn hc, fetch_busy (s.withBaud d h) i hn hc, State.takeTurn_withBaud]; rfl
    | none =>
      have hp := phase_idle_of_no_command s.phase hc
      rw [fetch_idle s hn hp, fetch_idle (s.withBaud d h) hn hp, State.takeTurn_withBaud, State.fetchCommand_withBaud]

/-- Settling keeps the agreement of two outcomes up to the baud outputs, since it reads only the fault record. -/
theorem State.settle_withBaud (v w : State) (hvw : v.withBaud d h = w.withBaud d h) :
    mapNext (State.withBaud d h) ((s.withBaud d h).settle (.next v))
      = mapNext (State.withBaud d h) (s.settle (.next w)) := by
  have hfault : v.fault = w.fault := by simpa using congrArg State.fault hvw
  cases hw : w.fault with
  | none => simp only [State.settle, hfault, hw, mapNext, hvw]
  | some r => simp only [State.settle, hfault, hw]; rfl

/-- Two states that differ only in the baud outputs take steps that differ only in them. -/
theorem step_withBaud :
    mapNext (State.withBaud d h) (step (s.withBaud d h)) = mapNext (State.withBaud d h) (step s) := by
  cases hr : s.fault with
  | some r => rw [step_faulted s r hr, step_faulted (s.withBaud d h) r hr]
  | none =>
    cases hu : s.fetch with
    | illegal e => simp only [step, State.fetch_withBaud, State.withBaud_fault, hr, hu, Fetched.mapState]; rfl
    | pass u => simp only [step, State.fetch_withBaud, State.withBaud_fault, hr, hu, Fetched.mapState]; rfl
    | run i u =>
      obtain ⟨v, hv⟩ := exec_next i (u.withBaud d h)
      obtain ⟨w, hw⟩ := exec_next i u
      have agree := mapNext_exec_withBaud d h u i
      rw [hv, hw] at agree
      simp only [step, State.fetch_withBaud, State.withBaud_fault, hr, hu, Fetched.mapState, hv, hw]
      exact s.settle_withBaud d h v w (Outcome.next.inj agree)

end baud

theorem selBaudDiv_eq_setWidth (sel : Half) : selBaudDiv sel = sel.setWidth 15 :=
  BitVec.setWidth_eq_extractLsb' (by decide) |>.symm

/-- Settles O49: INIT's body writes both outputs from the selector; every other operation carries them along unread, as
does the choice of what to run, and INIT overwrites them. -/
theorem baudOutputsAreNeverRead : Obligations.BaudOutputsAreNeverRead :=
  ⟨fun s sel hp hg => ⟨initBody sel s, execInit_ok sel s hp hg, rfl, selBaudDiv_eq_setWidth sel⟩,
    fun s d h => step_withBaud d h s⟩

end Sys2Proof.Machine

/-! MemRead and MemWrite (20_memory.md R51, R52): the fault outside the buffer, and what a read after a write gives. -/

namespace Sys2Proof.Machine

namespace State

theorem memRead_outside (s : State) (B : BufId) (i : Nat) (h : s.cfg.capacity B ≤ i) :
    s.memRead B i = .error .indexOutOfRange := if_pos h

theorem memWrite_outside (s : State) (B : BufId) (i : Nat) (v : Byte) (h : s.cfg.capacity B ≤ i) :
    s.memWrite B i v = .error .indexOutOfRange := if_pos h

theorem memRead_setRing_set (s : State) (B : BufId) (i : Nat) (v : Byte) (h : i < s.cfg.capacity B) :
    (s.setRing B { s.ring B with storage := Memory.set (s.ring B).storage i v }).memRead B i = .ok v := by
  rw [memRead_ok _ _ _ (by rwa [setRing_cfg]), slot_setRing_set, if_pos ⟨rfl, rfl⟩]

end State

/-- Settles O22: the range test decides between the fault and the one storage update, whose effect on each slot
`State.slot_setRing_set` gives. -/
theorem storageReadsAndWrites : Obligations.StorageReadsAndWrites := by
  intro s B i v
  constructor
  · exact fun outside => ⟨s.memRead_outside B i outside, s.memWrite_outside B i v outside⟩
  · intro inside
    refine ⟨s.memRead_ok B i inside, _, s.memWrite_ok B i v inside, s.memRead_setRing_set B i v inside, ?others, ?frame,
      s.ringOk_store B i v inside⟩
    case others =>
      intro C a hne
      rw [State.slot_setRing_set, if_neg hne]
    case frame => rw [State.ring_setRing]

end Sys2Proof.Machine

/-! The words of the table (30_encoding.md R71 to R75, R78, R79, R82, R83) in terms of shifts and masks: each field as
the masked shift the spec writes, and the encodings, the result word, the line status and the baud selector by their
bits. -/

namespace Sys2Proof

/-! ### Fields as masked shifts (R71) -/

/-- A field read by shift and mask is 0 exactly when the field is. -/
theorem shiftRight_and_eq_zero (w : Word) (i n : Nat) (hn : n ≤ 32) :
    (w >>> i) &&& BitVec.ofNat 32 (2 ^ n - 1) = 0 ↔ w.extractLsb' i n = 0 := by
  have mask_lt : 2 ^ n - 1 < 2 ^ 32 := Nat.sub_one_lt_of_le (Nat.two_pow_pos n) (Nat.pow_le_pow_right (by decide) hn)
  rw [← BitVec.toNat_inj, ← BitVec.toNat_inj, BitVec.toNat_and, BitVec.toNat_ofNat, Nat.mod_eq_of_lt mask_lt,
    Nat.and_two_pow_sub_one_eq_mod, BitVec.toNat_ushiftRight, BitVec.extractLsb'_toNat]
  rfl

theorem rsv_mask_eq_zero (w : Word) : (w >>> 16) &&& 0xFFF = 0 ↔ rsvField w = 0 :=
  shiftRight_and_eq_zero w 16 12 (by decide)

theorem opnd_mask_eq_zero (w : Word) : w &&& 0xFFFF = 0 ↔ opndField w = 0 :=
  shiftRight_and_eq_zero w 0 16 (by decide)

/-- A part of the operand is that part of the word. -/
theorem extractLsb'_opndField (w : Word) (i n : Nat) (h : i + n ≤ 16) :
    (opndField w).extractLsb' i n = w.extractLsb' i n := by
  ext j hj
  have inside : i + j < 16 := by omega
  simp [opndField, BitVec.getElem_extractLsb', inside]

theorem highByte_mask_eq_zero (w : Word) : (w >>> 8) &&& 0xFF = 0 ↔ highByte (opndField w) = 0 := by
  rw [highByte, extractLsb'_opndField w 8 8 (by decide)]
  exact shiftRight_and_eq_zero w 8 8 (by decide)

theorem shift_eq_op (w : Word) (k : Nat) (hk : k < 16) :
    w >>> 28 = BitVec.ofNat 32 k ↔ opField w = BitVec.ofNat 4 k := by
  have top : w.toNat >>> 28 < 16 := by have := w.isLt; omega
  rw [← BitVec.toNat_inj, ← BitVec.toNat_inj, opField, BitVec.extractLsb'_toNat, BitVec.toNat_ushiftRight,
    BitVec.toNat_ofNat, BitVec.toNat_ofNat, Nat.mod_eq_of_lt top, Nat.mod_eq_of_lt hk, Nat.mod_eq_of_lt (by omega)]

theorem setWidth_eq_opndField (w : Word) : w.setWidth 16 = opndField w :=
  BitVec.setWidth_eq_extractLsb' (by decide)

theorem setWidth_eq_lowByte (w : Word) : w.setWidth 8 = lowByte (opndField w) := by
  rw [lowByte, extractLsb'_opndField w 0 8 (by decide)]
  exact BitVec.setWidth_eq_extractLsb' (by decide)

/-! ### Commands (R72 to R75) -/

theorem toOption_ok (i : Instr) : (Except.ok i : Except Illegal Instr).toOption = some i := rfl

theorem toOption_error (e : Illegal) : (Except.error e : Except Illegal Instr).toOption = none := rfl

/-- R74's case table by the word's fields: `toOption` forgets why a word is illegal. -/
theorem toOption_decodeCommand (w : Word) : (decodeCommand w).toOption =
    if rsvField w ≠ 0 then none
    else if opField w = 1 then some (.init (opndField w))
    else if opField w = 2 then (if opndField w = 0 then some .read else none)
    else if opField w = 3 then
      (if highByte (opndField w) = 0 then some (.write (lowByte (opndField w))) else none)
    else if opField w = 4 then (if opndField w = 0 then some .sei else none)
    else if opField w = 5 then (if opndField w = 0 then some .cli else none)
    else none := by
  simp only [decodeCommand, withoutOperand, apply_ite Except.toOption, toOption_ok, toOption_error, ite_self]

theorem encodeFields_eq_or (op : BitVec 4) (opnd : Half) :
    encodeFields op opnd = (op.setWidth 32 <<< 28) ||| opnd.setWidth 32 := by
  rw [encodeFields, packWord, ← BitVec.setWidth_eq (op ++ 0 ++ opnd),
    BitVec.setWidth_append_append_eq_shiftLeft_setWidth_or, BitVec.ofNat_eq_ofNat, BitVec.setWidth_zero,
    BitVec.zero_shiftLeft, BitVec.or_zero]

theorem encodeFields_init (sel : Half) : encodeFields 0x1 sel = 0x10000000 ||| sel.setWidth 32 :=
  encodeFields_eq_or 1 sel

theorem encodeWrite_eq_or (b : Byte) : encodeWrite b = 0x30000000 ||| b.setWidth 32 := by
  have wide : (b.setWidth 16).setWidth 32 = b.setWidth 32 := BitVec.setWidth_setWidth (by decide)
  rw [← wide]
  exact encodeFields_eq_or 3 _

/-- Settles O7: the table by fields (`toOption_decodeCommand`) with each field read by shift and mask, and the encoder's
words with the shifted `op` written out. -/
theorem commandDecoderFollowsTable : Obligations.CommandDecoderFollowsTable := by
  refine ⟨fun w => ?table, fun sel => ?init, rfl, fun b => ?write, rfl, rfl, fun sel => ?decodeInit, decode_read,
    fun b => ?decodeWrite, decode_sei, decode_cli⟩
  case table =>
    simp only [toOption_decodeCommand, ne_eq, rsv_mask_eq_zero, opnd_mask_eq_zero, highByte_mask_eq_zero,
      setWidth_eq_opndField, setWidth_eq_lowByte]
    simp only [BitVec.ofNat_eq_ofNat, shift_eq_op, Nat.reduceLT]
  case init => rw [encode, encodeFields_init]
  case write => rw [encode, encodeWrite_eq_or]
  case decodeInit => rw [← encodeFields_init, decode_init]
  case decodeWrite => rw [← encodeWrite_eq_or, decode_write]

end Sys2Proof

namespace Sys2Proof.Machine

/-! ### Illegal words (R75, R217) -/

/-- The values of `op` that the table tells apart. -/
theorem op_cases (op : Word) : (op = 0 ∨ 6 ≤ op.toNat) ∨ op = 1 ∨ op = 2 ∨ op = 3 ∨ op = 4 ∨ op = 5 := by
  bv_omega

theorem step_illegal (s : State) (w : Word) (ws : List Word) (hf : s.fault = none) (hn : s.nextTurn = .fg)
    (hp : s.phase = .idle) (hw : s.program = w :: ws) (hd : (decodeCommand w).toOption = none) :
    step s = .next (s.raise .illegalCommand) := by
  cases he : decodeCommand w with
  | ok i => rw [he] at hd; cases hd
  | error e => simp [step, hf, fetch_illegal s w ws e hn hp hw he]

/-- From 6 on, `op` is in none of R74's rows. -/
theorem ne_of_six_le (op : Word) (h : 6 ≤ op.toNat) (k : Nat) (hk : k < 6) : op ≠ BitVec.ofNat 32 k := by
  rintro rfl
  rw [BitVec.toNat_ofNat] at h
  omega

/-- Settles O9: R74's table answers nothing for exactly these words, row by row of `op`; the fetch finds such a word
illegal. -/
theorem illegalWordsFault : Obligations.IllegalWordsFault := by
  refine ⟨fun w => ?grounds, step_illegal⟩
  obtain ⟨table, -⟩ := commandDecoderFollowsTable
  rw [table w]
  generalize (w >>> 16) &&& 0xFFF = rsv, w &&& 0xFFFF = opnd, (w >>> 8) &&& 0xFF = high, w >>> 28 = op
  rcases op_cases op with (rfl | reserved) | rfl | rfl | rfl | rfl | rfl
  · simp
  · have ne := ne_of_six_le op reserved
    simp [reserved, ne 1, ne 2, ne 3, ne 4, ne 5]
  · simp
  · simp [imp_iff_not_or]
  · simp [imp_iff_not_or]
  · simp [imp_iff_not_or]
  · simp [imp_iff_not_or]

/-! ### READ's result word (R78, R79) -/

theorem resultWord_eq_append (e b : Byte) : resultWord e b = e ++ b := by
  rw [← BitVec.setWidth_eq (e ++ b), BitVec.setWidth_append_eq_shiftLeft_setWidth_or]
  rfl

/-- Bit 8 is NODATA (R78): without it the word reads back as its two bytes. -/
theorem resultValue_resultWord (e b : Byte) (nodata : (resultWord e b).getLsbD 8 = false) :
    resultValue (resultWord e b) = some (b, e) := by
  rw [resultValue, if_neg (by rw [nodata]; decide), resultWord_eq_append]
  exact congrArg some (Prod.ext (lowByte_append e b) (highByte_append e b))

/-- A bit that a mask selects is 0 in a byte that is 0 under the mask. -/
theorem getLsbD_of_and_eq_zero (e m : Byte) (h : e &&& m = 0) (j : Nat) (hj : m.getLsbD j = true) :
    e.getLsbD j = false := by
  have bit : (e.getLsbD j && m.getLsbD j) = false := by rw [← BitVec.getLsbD_and, h]; exact BitVec.getLsbD_zero
  simpa [hj] using bit

/-- The accumulator's always-zero bits 7:5 are the result word's bits 15:13 (R78, R80). -/
theorem resultWord_top (e b : Byte) (zeros : e &&& 0xE1 = 0) : resultWord e b >>> 13 = 0 := by
  apply BitVec.eq_of_getLsbD_eq
  intro j hj
  rw [BitVec.getLsbD_ushiftRight, resultWord_eq_append, BitVec.getLsbD_append, if_neg (by omega),
    BitVec.ofNat_eq_ofNat, BitVec.getLsbD_zero]
  rcases Nat.lt_or_ge j 3 with top | above
  · have masked : ∀ j < 3, (0xE1 : Byte).getLsbD (13 + j - 8) = true := by decide
    exact getLsbD_of_and_eq_zero e 0xE1 zeros _ (masked j top)
  · exact BitVec.getLsbD_of_ge _ _ (by omega)

theorem execRead_sample (s : State) (b : Byte) (n : Nat) (hp : s.phase = .r3 b n) :
    execRead s = .next (s.returnResult (resultWord s.lastError b)) := by
  simp only [execRead, hp, readReturn]

theorem execRead_empty (s : State) (hp : s.phase = .r1) (he : s.isEmpty .rx = true) :
    execRead s = .next (s.returnResult noData) := by
  simp only [execRead, hp, readCheck, if_pos he]

/-- Settles O10: the result word is the accumulator above the byte, and its bit 8 is the accumulator's bit 0. -/
theorem resultWordLayout : Obligations.ResultWordLayout := by
  refine ⟨fun e b zeros => ?layout, rfl, by decide, by decide, fun s b n hp => ⟨_, execRead_sample s b n hp, rfl⟩,
    fun s hp he => ⟨_, execRead_empty s hp he, rfl⟩⟩
  have bit (j : Nat) : (resultWord e b).getLsbD (8 + j) = e.getLsbD j := by
    rw [resultWord_eq_append, BitVec.getLsbD_append, if_neg (by omega), Nat.add_sub_cancel_left]
  have nodata : (resultWord e b).getLsbD 8 = false := (bit 0).trans (getLsbD_of_and_eq_zero e 0xE1 zeros 0 (by decide))
  refine ⟨rfl, resultWord_top e b zeros, bit 4, bit 3, bit 2, bit 1, nodata, ?_, resultValue_resultWord e b nodata⟩
  rw [resultWord_eq_append, BitVec.setWidth_append_eq_right]

/-! ### Line status (R82) -/

/-- The candidate keeps no bit that the mask would clear. -/
theorem lastErrorCandidate_masked (status : Byte) :
    lastErrorCandidate (status &&& 0x1C) = lastErrorCandidate status := by
  rw [lastErrorCandidate, BitVec.and_assoc]
  rfl

theorem statusErrorMask_getLsbD (j : Nat) : statusErrorMask.getLsbD j = (j == 2 || j == 3 || j == 4) := by
  rcases Nat.lt_or_ge j 8 with hj | hj
  · revert j
    decide
  · rw [BitVec.getLsbD_of_ge _ _ hj]
    have others : j ≠ 2 ∧ j ≠ 3 ∧ j ≠ 4 := by omega
    simp [others]

/-- Settles O11: masking twice is masking once, so RXH accumulates the same candidate, dropped byte or stored. -/
theorem lineStatusExtraction : Obligations.LineStatusExtraction := by
  refine fun status => ⟨rfl, fun j => ?bits, fun s b hg hr => ?rxh⟩
  case bits => rw [lastErrorCandidate, BitVec.getLsbD_and, statusErrorMask_getLsbD]
  case rxh =>
    have enabled (st : Byte) : State.rxhEnabled { s with rxHold := some (b, st) } = true := by
      simp [State.rxhEnabled, hg, hr]
    cases full : s.isFull .rx with
    | true =>
      refine ⟨_, execRxh_full _ b status (enabled _) rfl full, ?_⟩
      rw [exec, execRxh_full _ b (status &&& 0x1C) (enabled _) rfl full, overflowCandidate, lastErrorCandidate_masked]
      rfl
    | false =>
      refine ⟨_, execRxh_room _ b status (enabled _) rfl full, ?_⟩
      rw [exec, execRxh_room _ b (status &&& 0x1C) (enabled _) rfl full, lastErrorCandidate_masked]
      rfl

/-! ### Baud selector (R83) -/

theorem toNat_selBaudDiv (sel : Half) : (selBaudDiv sel).toNat = sel.toNat % 2 ^ 15 := by
  rw [selBaudDiv_eq_setWidth, BitVec.toNat_setWidth]

theorem selHighSpeed_iff (sel : Half) : selHighSpeed sel = true ↔ 2 ^ 15 ≤ sel.toNat := by
  have top : sel.msb = selHighSpeed sel := BitVec.msb_eq_getLsbD_last sel
  rw [← top, BitVec.msb_eq_decide, decide_eq_true_eq]

/-- Settles O12: bit 15 says whether the selector reaches `2 ^ 15`, and the divisor is its remainder. -/
theorem baudSelectorSplits : Obligations.BaudSelectorSplits := by
  refine fun sel => ⟨rfl, toNat_selBaudDiv sel, ?whole, fun s hp hg => ⟨_, execInit_ok sel s hp hg, rfl, rfl⟩⟩
  have := sel.isLt
  simp only [toNat_selBaudDiv, selHighSpeed_iff]
  split <;> omega

end Sys2Proof.Machine

/-! The circular buffer (40_circular_buffer.md R100, R102): the bits of the mask, and what BufInit leaves. -/

namespace Sys2Proof

/-- The mask of a buffer of `2 ^ k` slots has its low `k` bits set and no other. -/
theorem Config.mask_testBit (c : Config) (B : BufId) (k : Nat) (hk : c.capacity B = 2 ^ k) (j : Nat) :
    (c.mask B).testBit j = decide (j < k) := by
  rw [mask, hk, Nat.testBit_two_pow_sub_one]

end Sys2Proof

namespace Sys2Proof.Machine

/-- Settles O18: R12's check makes the capacity `2 ^ k`, so the mask is `2 ^ k - 1`, and masking is the remainder. -/
theorem capacityAndMask : Obligations.CapacityAndMask := by
  intro c B
  obtain ⟨k, hk, two_le⟩ := c.capacity_pow B
  exact ⟨k, hk, two_le, rfl, c.mask_testBit B k hk, c.and_mask B⟩

/-- BufInit leaves the buffer empty, whatever its indices were (R102, R103). -/
@[simp] theorem State.isEmpty_bufInit (s : State) (B : BufId) : (s.bufInit B).isEmpty B = true := by
  rw [isEmpty_iff, bufInit, ring_setTail]

/-- Settles O21: the state is as `State.bufInit` writes it, and equal indices are an empty buffer. -/
theorem bufInitForcesEmpty : Obligations.BufInitForcesEmpty := fun s =>
  ⟨rfl, rfl, fun B => ⟨s.isEmpty_bufInit B, s.contents_bufInit B⟩⟩

end Sys2Proof.Machine

/-! The receive path (41_receive_path.md R120, R123): when LINE and RXH run, the state they leave, and their words. -/

namespace Sys2Proof.Machine

namespace State

theorem lineEnabled_iff (s : State) : s.lineEnabled = true ↔ s.rxen = true ∧ s.rxHold = none := by
  rw [lineEnabled, Bool.and_eq_true, Option.isNone_iff_eq_none]

theorem lineEnabled_eq_false_iff (s : State) : s.lineEnabled = false ↔ s.rxen = false ∨ s.rxHold ≠ none := by
  rw [← Bool.not_eq_true, lineEnabled_iff, Decidable.not_and_iff_or_not, Bool.not_eq_true]

theorem rxhEnabled_of_hold (s : State) (h : Byte × Byte) (hg : s.gie = true) (hr : s.rxie = true)
    (hh : s.rxHold = some h) : s.rxhEnabled = true := by
  rw [rxhEnabled, hg, hr, hh]
  rfl

theorem rxhEnabled_eq_false_iff (s : State) :
    s.rxhEnabled = false ↔ s.gie = false ∨ s.rxie = false ∨ s.rxHold = none := by
  rw [rxhEnabled, Bool.and_eq_false_iff, Bool.and_eq_false_iff, or_assoc, Option.isSome_eq_false_iff,
    Option.isNone_iff_eq_none]

end State

theorem execLine_enabled (b status : Byte) (s : State) (h : s.lineEnabled = true) :
    execLine b status s = .next { s with rxHold := some (b, status) } := State.whenEnabled_true _ _ _ h

theorem execLine_disabled (b status : Byte) (s : State) (h : s.lineEnabled = false) :
    execLine b status s = .next s := State.whenEnabled_false _ _ _ h

theorem encodeEvent_line_eq_or (b status : Byte) :
    encodeEvent (.line b status) = 0xA0000000 ||| (status.setWidth 32 <<< 8) ||| b.setWidth 32 := by
  rw [encodeEvent, encodeFields_eq_or, BitVec.setWidth_append_eq_shiftLeft_setWidth_or, ← BitVec.or_assoc]
  rfl

/-- Settles O24: R120's condition is `State.lineEnabled`, without it LINE leaves the state, and the word is the
encoder's. -/
theorem lineDelivers : Obligations.LineDelivers := by
  refine fun s b status => ⟨fun hx hh => ?delivered, fun off t ht => ?passed, ?word⟩
  case delivered => exact execLine_enabled b status s (s.lineEnabled_iff.mpr ⟨hx, hh⟩)
  case passed =>
    cases (execLine_disabled b status s (s.lineEnabled_eq_false_iff.mpr off)).symm.trans ht
    rfl
  case word => rw [← encodeEvent_line_eq_or, (decode_event _).1]

/-- Settles O25: the test on the next head is IS_FULL (R105), each branch of RXH leaves the state as written, and RXH
leaves the state when a condition is missing. -/
theorem receiveHandlerStoresOrDrops : Obligations.ReceiveHandlerStoresOrDrops := by
  refine fun s b status => ⟨fun hg hr hh => ⟨fun full => ?dropped, fun room => ?stored⟩, fun off t ht => ?passed,
    (decode_event .rxh).1⟩
  case dropped =>
    exact execRxh_full s b status (s.rxhEnabled_of_hold _ hg hr hh) hh ((s.isFull_iff .rx).mpr full)
  case stored =>
    exact execRxh_room s b status (s.rxhEnabled_of_hold _ hg hr hh) hh ((s.isFull_false_iff .rx).mpr room)
  case passed =>
    cases (execRxh_disabled s (s.rxhEnabled_eq_false_iff.mpr off)).symm.trans ht
    exact ⟨rfl, rfl, rfl⟩

end Sys2Proof.Machine

/-! The transmit path (42_transmit_path.md R141, R142, R146): when TXH and XMIT run, the state they leave, and their
words. -/

namespace Sys2Proof.Machine

/-! ### TXH, one equation per case of R142 -/

namespace State

theorem txhEnabled_iff (s : State) :
    s.txhEnabled = true ↔ s.gie = true ∧ s.txen = true ∧ s.txie = true ∧ s.txReady = true := by
  simp only [txhEnabled, Bool.and_eq_true, and_assoc]

theorem txhEnabled_eq_false_iff (s : State) :
    s.txhEnabled = false ↔ s.gie = false ∨ s.txen = false ∨ s.txie = false ∨ s.txReady = false := by
  simp only [txhEnabled, Bool.and_eq_false_iff, or_assoc]

end State

theorem execTxh_disabled (s : State) (h : s.txhEnabled = false) : execTxh s = .next s :=
  State.whenEnabled_false _ _ _ h

theorem execTxh_empty (s : State) (he : s.txhEnabled = true) (hm : s.isEmpty .tx = true) :
    execTxh s = .next { s with txie := false } := by
  rcases execTxh_cases s with ⟨off, -⟩ | ⟨-, -, h⟩ | ⟨-, holds, -⟩
  · cases off.symm.trans he
  · exact h
  · cases holds.symm.trans hm

theorem execTxh_nonempty (s : State) (he : s.txhEnabled = true) (hm : s.isEmpty .tx = false) :
    execTxh s = .next { s with
      tx := { s.tx with tail := s.nextTail .tx }, lineOut := s.lineOut ++ [s.slot .tx (s.nextTail .tx)],
      txReady := false } := by
  rcases execTxh_cases s with ⟨off, -⟩ | ⟨-, empty, -⟩ | ⟨-, -, h⟩
  · cases off.symm.trans he
  · cases empty.symm.trans hm
  · exact h

/-- Settles O29: R141's condition is `State.txhEnabled`, equal indices are IS_EMPTY (R103), each branch of TXH leaves
the state as written, and TXH leaves the state when a condition is missing. -/
theorem transmitHandlerSendsOrDisables : Obligations.TransmitHandlerSendsOrDisables := by
  refine fun s => ⟨fun hg hx hi hr => ?enabled, fun off t ht => ?passed, (decode_event .txh).1⟩
  case enabled =>
    have enabled := s.txhEnabled_iff.mpr ⟨hg, hx, hi, hr⟩
    exact ⟨fun empty => execTxh_empty s enabled ((s.isEmpty_iff .tx).mpr empty),
      fun holds => execTxh_nonempty s enabled ((s.isEmpty_false_iff .tx).mpr holds)⟩
  case passed =>
    cases (execTxh_disabled s (s.txhEnabled_eq_false_iff.mpr off)).symm.trans ht
    exact ⟨rfl, rfl, rfl, rfl⟩

/-! ### XMIT (R146) -/

theorem execXmit_busy (s : State) (h : s.txReady = false) : execXmit s = .next { s with txReady := true } := by
  rcases execXmit_cases s with ⟨ready, -⟩ | ⟨-, hx⟩
  · cases ready.symm.trans h
  · exact hx

theorem execXmit_ready (s : State) (h : s.txReady = true) : execXmit s = .next s := by
  rcases execXmit_cases s with ⟨-, hx⟩ | ⟨busy, -⟩
  · exact hx
  · cases busy.symm.trans h

/-- Settles O30: a busy transmitter becomes ready and nothing else changes; a ready one is left as it is. -/
theorem transmitterBecomesReady : Obligations.TransmitterBecomesReady := by
  refine ⟨execXmit_busy, fun s t ready ht => ?passed, (decode_event .xmit).1⟩
  cases (execXmit_ready s ready).symm.trans ht
  exact ⟨ready, rfl⟩

end Sys2Proof.Machine

/-! The foreground commands (43_foreground_api.md R161, R162, R170, R180, R181): which words of READ, WRITE, SEI and CLI
are malformed, and one equation per phase of each command. -/

namespace Sys2Proof

/-! ### Malformed command words (R73 to R75) -/

/-- Two neighbouring parts of a word that are both 0 are 0 as one part. -/
theorem extractLsb'_eq_zero_of_parts (w : Word) (i m n : Nat) (low : w.extractLsb' i n = 0)
    (high : w.extractLsb' (i + n) m = 0) : w.extractLsb' i (m + n) = 0 := by
  rw [← BitVec.extractLsb'_append_extractLsb'_eq_extractLsb' (x := w) rfl, low, high]
  exact BitVec.zero_append_zero

/-- Bits 27:0 are `rsv` and the operand. -/
theorem rsv_or_opnd_ne_zero (w : Word) (h : w &&& 0x0FFFFFFF ≠ 0) : rsvField w ≠ 0 ∨ opndField w ≠ 0 := by
  by_contra! zeros
  exact h ((shiftRight_and_eq_zero w 0 28 (by decide)).mpr (extractLsb'_eq_zero_of_parts w 0 12 16 zeros.2 zeros.1))

/-- Bits 27:8 are `rsv` and the operand's high byte. -/
theorem rsv_or_highByte_ne_zero (w : Word) (h : (w >>> 8) &&& 0xFFFFF ≠ 0) :
    rsvField w ≠ 0 ∨ highByte (opndField w) ≠ 0 := by
  by_contra! zeros
  obtain ⟨rsv, high⟩ := zeros
  rw [highByte, extractLsb'_opndField w 8 8 (by decide)] at high
  exact h ((shiftRight_and_eq_zero w 8 20 (by decide)).mpr (extractLsb'_eq_zero_of_parts w 8 12 8 high rsv))

/-- A word that differs from its `op` alone has a bit set in `rsv` or in its operand. -/
theorem rsv_or_opnd_ne_zero_of_ne (w : Word) (op : BitVec 4) (ho : opField w = op) (h : w ≠ encodeFields op 0) :
    rsvField w ≠ 0 ∨ opndField w ≠ 0 := by
  by_contra! zeros
  obtain ⟨rsv, opnd⟩ := zeros
  exact h (opnd ▸ eq_encodeFields w op rsv ho)

/-- READ, SEI and CLI take no operand. -/
theorem decodeCommand_operand_illegal (w : Word) (op : w >>> 28 = 2 ∨ w >>> 28 = 4 ∨ w >>> 28 = 5)
    (h : rsvField w ≠ 0 ∨ opndField w ≠ 0) : (decodeCommand w).toOption = none := by
  obtain ⟨illegal_iff, -⟩ := Machine.illegalWordsFault
  rw [illegal_iff]
  rcases h with rsv | opnd
  · exact .inr (.inl ((rsv_mask_eq_zero w).not.mpr rsv))
  · exact .inr (.inr (.inl ⟨op, (opnd_mask_eq_zero w).not.mpr opnd⟩))

/-- WRITE's operand is one byte. -/
theorem decodeCommand_write_illegal (w : Word) (op : w >>> 28 = 3)
    (h : rsvField w ≠ 0 ∨ highByte (opndField w) ≠ 0) : (decodeCommand w).toOption = none := by
  obtain ⟨illegal_iff, -⟩ := Machine.illegalWordsFault
  rw [illegal_iff]
  rcases h with rsv | high
  · exact .inr (.inl ((rsv_mask_eq_zero w).not.mpr rsv))
  · exact .inr (.inr (.inr ⟨op, (highByte_mask_eq_zero w).not.mpr high⟩))

end Sys2Proof

namespace Sys2Proof.Machine

/-! ### READ, one equation per phase (R162) -/

theorem execRead_uninitialised (s : State) (hp : s.phase = .idle) (hi : s.initialised = false) :
    execRead s = .next (s.raise .notInitialised) := by
  simp only [execRead, hp, State.enter_fault _ _ hi]

theorem execRead_issue (s : State) (hp : s.phase = .idle) (hi : s.initialised = true) :
    execRead s = .next { s with phase := .r1 } := by
  simp only [execRead, hp, State.enter_ok _ _ hi]

theorem execRead_nonempty (s : State) (hp : s.phase = .r1) (he : s.isEmpty .rx = false) :
    execRead s = .next { s with phase := .r2 } := by
  simp only [execRead, hp, readCheck, he, Bool.false_eq_true, if_false]
  rfl

theorem execRead_consume (s : State) (hp : s.phase = .r2) : execRead s = .next { s with
    rx := { s.rx with tail := s.nextTail .rx }, phase := .r3 (s.slot .rx (s.nextTail .rx)) (s.nextTail .rx) } := by
  simp only [execRead, hp, readConsume_eq, State.finish_ok]

/-- Settles O32: READ takes no operand, IS_EMPTY is equal indices (R103), and each phase leaves the state its equation
gives. -/
theorem readMicroSteps : Obligations.ReadMicroSteps := by
  refine ⟨decode_read, fun w op ne => ?malformed, fun s => ⟨execRead_uninitialised s, execRead_issue s,
    fun hp empty => ?empty, fun hp holds => ?holds, execRead_consume s, execRead_sample s⟩⟩
  case malformed =>
    have field := (shift_eq_op w 2 (by decide)).mp op
    exact decodeCommand_operand_illegal w (.inl op) (rsv_or_opnd_ne_zero_of_ne w 2 field ne)
  case empty => exact execRead_empty s hp ((s.isEmpty_iff .rx).mpr empty)
  case holds => exact execRead_nonempty s hp ((s.isEmpty_false_iff .rx).mpr holds)

/-- FG's listed turn at Idle issues READ. -/
theorem step_read_issue (s : State) (ws : List Word) (ts : List Turn) (ht : s.turns = .fg :: ts) (hf : s.fault = none)
    (hp : s.phase = .idle) (hi : s.initialised = true) (hw : s.program = 0x20000000 :: ws) :
    step s = .next { s with turns := ts, program := ws, phase := .r1 } :=
  step_issue_listed s _ _ ws .read ts (execRead_issue { s with turns := ts, program := ws } hp hi) ht hf hp hw
    decode_read hf

/-- FG's listed turn at R1 on an empty buffer returns NoData (R161). -/
theorem step_read_empty (s : State) (ts : List Turn) (ht : s.turns = .fg :: ts) (hf : s.fault = none)
    (hp : s.phase = .r1) (he : s.isEmpty .rx = true) :
    step s = .next { s with turns := ts, results := s.results ++ [noData], phase := .idle } :=
  step_busy_listed s _ .read ts (execRead_empty { s with turns := ts } hp he) ht hf (by rw [hp]; rfl) hf

/-- Settles O34: the first turn issues READ, the second finds the buffer empty in R1 and returns NoData. -/
theorem readOfEmptyReturnsNoData : Obligations.ReadOfEmptyReturnsNoData := by
  intro s ws ts hf hp hi empty hw ht
  have issued := step_read_issue s ws (.fg :: ts) ht hf hp hi hw
  have returned := step_read_empty { s with turns := .fg :: ts, program := ws, phase := .r1 } ts rfl hf rfl
    ((s.isEmpty_iff .rx).mpr empty)
  rw [run_succ 1 _ _ issued, run_succ 0 _ _ returned, run_zero, ← hp]
  rfl

/-! ### WRITE, one equation per phase (R170) -/

section phases

variable (b c : Byte) (s : State) (n : Nat)

theorem execWrite_uninitialised (hp : s.phase = .idle) (hi : s.initialised = false) :
    execWrite b s = .next (s.raise .notInitialised) := by
  simp only [execWrite, hp, State.enter_fault _ _ hi]

theorem execWrite_issue (hp : s.phase = .idle) (hi : s.initialised = true) :
    execWrite b s = .next { s with phase := .w1 b } := by
  simp only [execWrite, hp, State.enter_ok _ _ hi]

/-- WRITE on a full buffer spins (R173). -/
theorem execWrite_full (hp : s.phase = .w1 c) (full : s.isFull .tx = true) : execWrite b s = .next s := by
  simp only [execWrite, hp, writeCheck, if_pos full, State.setPhase_self s _ hp]

theorem execWrite_room (hp : s.phase = .w1 c) (room : s.isFull .tx = false) :
    execWrite b s = .next { s with phase := .w2 c (s.nextHead .tx) } := by
  simp only [execWrite, hp, writeCheck, room, Bool.false_eq_true, if_false]
  rfl

theorem execWrite_store (hp : s.phase = .w2 c n) (inside : n < s.cfg.nTx) : execWrite b s = .next { s with
    tx := { s.tx with storage := Memory.set s.tx.storage n c }, phase := .w3 c n } := by
  simp only [execWrite, hp, writeStore_ok c n s inside, State.finish_ok]

theorem execWrite_store_outside (hp : s.phase = .w2 c n) (outside : s.cfg.nTx ≤ n) :
    execWrite b s = .next (s.raise .indexOutOfRange) := by
  simp only [execWrite, hp, writeStore_error c n s outside, State.finish_error]

theorem execWrite_publish (hp : s.phase = .w3 c n) : execWrite b s = .next { s with
    tx := { s.tx with head := n }, phase := .w4 c n } := by
  simp only [execWrite, hp]
  rfl

theorem execWrite_return (hp : s.phase = .w4 c n) : execWrite b s = .next { s with txie := true, phase := .idle } := by
  simp only [execWrite, hp]
  rfl

end phases

/-- Settles O36: WRITE's operand is one byte, IS_FULL compares the slot after the head with the tail (R105), and each
phase leaves the state its equation gives. -/
theorem writeMicroSteps : Obligations.WriteMicroSteps := by
  refine ⟨fun w op h => decodeCommand_write_illegal w op (rsv_or_highByte_ne_zero w h), fun s b => ⟨?word,
    execWrite_uninitialised b s, execWrite_issue b s, fun hp full => ?full, fun hp room => ?room, execWrite_store b b s,
    execWrite_store_outside b b s, execWrite_publish b b s, execWrite_return b b s⟩⟩
  case word => rw [← encodeWrite_eq_or, decode_write]
  case full => exact execWrite_full b b s hp ((s.isFull_iff .tx).mpr full)
  case room => exact execWrite_room b b s hp ((s.isFull_false_iff .tx).mpr room)

/-! ### SEI and CLI (R180, R181) -/

theorem execSei_idle (s : State) (hp : s.phase = .idle) : execSei s = .next (s.setGie true) :=
  State.whenIdle_idle s _ hp

theorem execCli_idle (s : State) (hp : s.phase = .idle) : execCli s = .next (s.setGie false) :=
  State.whenIdle_idle s _ hp

/-- `gie` written back over itself. -/
theorem State.setGie_self (s : State) (v : Bool) (h : s.gie = v) : s.setGie v = s := by
  subst h; rfl

/-- Settles O44: SEI and CLI take no operand, and at Idle each is one write of `gie`. -/
theorem seiAndCliSetGie : Obligations.SeiAndCliSetGie := by
  refine ⟨decode_sei, decode_cli, fun w op h => decodeCommand_operand_illegal w (.inr op) (rsv_or_opnd_ne_zero w h),
    fun s hp => ⟨execSei_idle s hp, execCli_idle s hp, fun on => ?sei, fun off => ?cli⟩⟩
  case sei => rw [exec, execSei_idle s hp, s.setGie_self true on]
  case cli => rw [exec, execCli_idle s hp, s.setGie_self false off]

end Sys2Proof.Machine

/-! INIT (44_initialisation.md R190, R195). -/

namespace Sys2Proof.Machine

/-- Settles O46: a set `rsv` bit is a ground of R75; at Idle INIT faults with interrupts on, and with interrupts off
leaves what `initBody_eq` gives, its divisor the selector cut to 15 bits. -/
theorem initEmptiesAndEnables : Obligations.InitEmptiesAndEnables := by
  refine ⟨fun w _ rsv => ?malformed, fun s sel => ⟨?word, execInit_gie sel s, fun hp hg => ?body⟩⟩
  case malformed =>
    obtain ⟨illegal_iff, -⟩ := illegalWordsFault
    exact (illegal_iff w).mpr (.inr (.inl rsv))
  case word => rw [← encodeFields_init, decode_init]
  case body =>
    rw [exec, execInit_ok sel s hp hg, initBody_eq, selBaudDiv_eq_setWidth]
    rfl

/-- Settles O47: INIT passes, records a fault or runs its body, and none of the three writes one of these fields. -/
theorem initLeavesAlone : Obligations.InitLeavesAlone := by
  intro s t sel hx
  rcases execInit_cases sel s with ⟨_, h⟩ | ⟨_, _, h⟩ | ⟨_, _, h⟩ <;> cases h.symm.trans hx <;>
    exact ⟨rfl, rfl, rfl, rfl, rfl, rfl⟩

end Sys2Proof.Machine

/-! Recording steps (60_exceptions.md R215, R216). -/

namespace Sys2Proof.Machine

/-- Issuing a command that records a fault keeps the state before the step, its turn and its word included (R215). -/
theorem step_issue_fault (s v : State) (w : Word) (ws : List Word) (i : Instr) (r : Fault)
    (hx : exec i (s.takeTurn.setProgram ws) = .next v) (hv : v.fault = some r) (hf : s.fault = none)
    (hn : s.nextTurn = .fg) (hp : s.phase = .idle) (hw : s.program = w :: ws) (hd : decodeCommand w = .ok i) :
    step s = .next (s.raise r) :=
  step_run_fault s _ v i r hf (fetch_issue s w ws i hn hp hw hd) hx hv

/-- Settles O50: the word decodes to READ or WRITE, and each records NotInitialised at Idle before INIT. -/
theorem readOrWriteBeforeInitFaults : Obligations.ReadOrWriteBeforeInitFaults := by
  intro s w ws hf hn hp hw word hi
  have phase : (s.takeTurn.setProgram ws).phase = .idle := by simp [hp]
  have uninitialised : (s.takeTurn.setProgram ws).initialised = false := by simp [hi]
  rcases word with rfl | ⟨b, rfl⟩
  case inl =>
    exact step_issue_fault s _ _ ws .read _ (execRead_uninitialised _ phase uninitialised) rfl hf hn hp hw decode_read
  case inr =>
    have decoded : decodeCommand (0x30000000 ||| b.setWidth 32) = .ok (.write b) := by
      rw [← encodeWrite_eq_or, decode_write]
    exact step_issue_fault s _ _ ws (.write b) _ (execWrite_uninitialised b _ phase uninitialised) rfl hf hn hp hw
      decoded

end Sys2Proof.Machine

/-! Frames (20_memory.md section 2, 10_state.md section 1): what a step of each operation may change, and from it what
no operation changes. -/

namespace Sys2Proof.Machine

open Host

/-- A command of one micro-step keeps what its effect keeps. -/
theorem whenIdle_keeps (P : State → Prop) (s t u : State) (hs : P s) (hu : P u)
    (hx : s.whenIdle (.next u) = .next t) : P t := by
  rcases whenIdle_cases s (.next u) with ⟨_, h⟩ | ⟨_, h⟩ <;> cases h.symm.trans hx
  · exact hu
  · exact hs

/-- Settles O58: each case of each operation writes only fields of its frame. -/
theorem registerFrames : Obligations.RegisterFrames := by
  intro i s t hx
  cases i with
  | init sel => rcases execInit_cases sel s with ⟨_, h⟩ | ⟨_, _, h⟩ | ⟨_, _, h⟩ <;> cases h.symm.trans hx <;> rfl
  | read =>
    rcases execRead_cases s with ⟨_, _, h⟩ | ⟨_, _, h⟩ | ⟨_, _, h⟩ | ⟨_, _, h⟩ | ⟨_, h⟩ | ⟨_, _, _, h⟩ | ⟨_, h⟩ <;>
      cases h.symm.trans hx <;> rfl
  | write b =>
    rcases execWrite_cases b s with ⟨_, _, h⟩ | ⟨_, _, h⟩ | ⟨_, _, _, h⟩ | ⟨_, _, _, h⟩ | ⟨_, _, _, _, h⟩
      | ⟨_, _, _, _, h⟩ | ⟨_, _, _, h⟩ | ⟨_, _, _, h⟩ | ⟨_, h⟩ <;> cases h.symm.trans hx <;> rfl
  | sei => exact whenIdle_keeps (fun u => u = { s with gie := u.gie }) s t _ rfl rfl hx
  | cli => exact whenIdle_keeps (fun u => u = { s with gie := u.gie }) s t _ rfl rfl hx
  | writes text => exact whenIdle_keeps (fun u => u = { s with program := u.program }) s t _ rfl rfl hx
  | rxh =>
    rcases execRxh_cases s with ⟨_, h⟩ | ⟨_, _, _, _, _, h⟩ | ⟨_, _, _, _, _, h⟩ <;> cases h.symm.trans hx <;> rfl
  | txh => rcases execTxh_cases s with ⟨_, h⟩ | ⟨_, _, h⟩ | ⟨_, _, h⟩ <;> cases h.symm.trans hx <;> rfl
  | line b status => rcases execLine_cases b status s with ⟨_, h⟩ | ⟨_, h⟩ <;> cases h.symm.trans hx <;> rfl
  | xmit => rcases execXmit_cases s with ⟨_, h⟩ | ⟨_, h⟩ <;> cases h.symm.trans hx <;> rfl

/-- No operation changes the configuration. -/
theorem exec_cfg (i : Instr) (s t : State) (hx : exec i s = .next t) : t.cfg = s.cfg := by
  cases i <;> exact (congrArg State.cfg (registerFrames _ s t hx) :)

/-- Only RXH, READ and INIT change the receive buffer. -/
theorem exec_rx (i : Instr) (s t : State) (hrxh : i ≠ .rxh) (hread : i ≠ .read) (hinit : ∀ sel, i ≠ .init sel)
    (hx : exec i s = .next t) : t.rx = s.rx := by
  cases i with
  | init sel => exact absurd rfl (hinit sel)
  | read => exact absurd rfl hread
  | rxh => exact absurd rfl hrxh
  | write | sei | cli | writes | txh | line | xmit => exact (congrArg State.rx (registerFrames _ s t hx) :)

/-- Only TXH, WRITE and INIT change the transmit buffer. -/
theorem exec_tx (i : Instr) (s t : State) (htxh : i ≠ .txh) (hwrite : ∀ b, i ≠ .write b) (hinit : ∀ sel, i ≠ .init sel)
    (hx : exec i s = .next t) : t.tx = s.tx := by
  cases i with
  | init sel => exact absurd rfl (hinit sel)
  | write b => exact absurd rfl (hwrite b)
  | txh => exact absurd rfl htxh
  | read | sei | cli | writes | rxh | line | xmit => exact (congrArg State.tx (registerFrames _ s t hx) :)

end Sys2Proof.Machine

/-! The invariant of the reachable states (10_state.md section 9): each clause as an `↔`, what Push leaves, one lemma
per operation that keeps the invariant, and the invariant along runs from power-on. -/

namespace Sys2Proof.Machine

open Host

namespace State

/-! ### The clauses of the invariant -/

variable (s : State)

theorem phaseOk_of_idle (hp : s.phase = .idle) : s.phaseOk = true := by rw [phaseOk, hp]

/-- What the phase says of the rest, one implication for each phase that says more than that INIT has run. -/
theorem phaseOk_iff : s.phaseOk = true ↔
    (s.phase ≠ .idle → s.initialised = true)
    ∧ (s.phase = .r2 → s.isEmpty .rx = false)
    ∧ (∀ b n, s.phase = .r3 b n → n = s.rx.tail ∧ Memory.get? s.rx.storage n = some b)
    ∧ (∀ b n, s.phase = .w2 b n → n = s.nextHead .tx ∧ s.isFull .tx = false)
    ∧ (∀ b n, s.phase = .w3 b n → n = s.nextHead .tx ∧ s.isFull .tx = false
        ∧ Memory.get? s.tx.storage n = some b)
    ∧ (∀ b n, s.phase = .w4 b n → n = s.tx.head) := by
  cases hp : s.phase <;> simp [phaseOk, hp, and_assoc]

theorem txieOk_iff :
    s.txieOk = true ↔ s.isEmpty .tx = true ∨ s.txie = true ∨ s.phase.publishing = true := by
  simp [txieOk, or_assoc]

theorem enablesOk_iff :
    s.enablesOk = true ↔ s.rxen = s.initialised ∧ s.txen = s.initialised ∧ s.rxie = s.initialised
      ∧ (s.txie = true → s.initialised = true) := by
  simp [enablesOk, and_assoc, imp_iff_not_or]

/-- An OR of the accumulator with bits that may be set keeps the other bits 0 (R24, R80). -/
theorem lastErrorOk_or (e : Byte) (h : s.lastErrorOk = true) (he : e &&& lastErrorZeroMask = 0) :
    (s.lastError ||| e) &&& lastErrorZeroMask == 0 := by
  have zeros : s.lastError &&& lastErrorZeroMask = 0 := beq_iff_eq.mp h
  rw [beq_iff_eq, BitVec.and_comm, BitVec.and_or_distrib_left]
  rw [BitVec.and_comm _ s.lastError, BitVec.and_comm _ e, zeros, he, BitVec.or_self]

end State

/-- The candidates set none of the always-zero bits (R80, R82). -/
theorem lastErrorCandidate_zeros (status : Byte) : lastErrorCandidate status &&& lastErrorZeroMask = 0 := by
  rw [lastErrorCandidate, BitVec.and_assoc]
  exact BitVec.and_zero

theorem overflowCandidate_zeros (status : Byte) : overflowCandidate status &&& lastErrorZeroMask = 0 := by
  rw [overflowCandidate, BitVec.and_comm, BitVec.and_or_distrib_left, BitVec.and_comm, lastErrorCandidate_zeros]
  rfl

namespace State

variable (s : State)

/-! ### What Push and the consumer's read leave -/

/-- The state Push leaves: storing, then publishing (R107). -/
def pushed (B : BufId) (v : Byte) : State :=
  s.setRing B { s.ring B with head := s.nextHead B, storage := Memory.set (s.ring B).storage (s.nextHead B) v }

theorem push_eq_pushed (B : BufId) (v : Byte) : s.push B v = .ok (s.pushed B v) := s.push_eq B v

theorem pushed_eq_publish (B : BufId) (v : Byte) : s.pushed B v =
    (s.setRing B { s.ring B with storage := Memory.set (s.ring B).storage (s.nextHead B) v }).setHead B
      (s.nextHead B) := by
  cases B <;> rfl

/-- Push on a buffer with room appends its byte and keeps the indices and the storage in range. -/
theorem pushed_contents (B : BufId) (v : Byte) (hok : s.ringOk B = true) (hf : s.isFull B = false) :
    (s.pushed B v).contents B = s.contents B ++ [v] ∧ (s.pushed B v).ringOk B = true := by
  obtain ⟨t, ht, contents, ringOk, -⟩ := s.push_contents B v hok hf
  cases (s.push_eq_pushed B v).symm.trans ht
  exact ⟨contents, ringOk⟩

theorem liveWritten_pushed (B : BufId) (v : Byte) (hok : s.ringOk B = true) (hl : s.liveWritten B = true)
    (hf : s.isFull B = false) : (s.pushed B v).liveWritten B = true := by
  rw [pushed_eq_publish]
  set u := s.setRing B { s.ring B with storage := Memory.set (s.ring B).storage (s.nextHead B) v } with hu
  have head : u.nextHead B = s.nextHead B := by cases B <;> rfl
  have full : u.isFull B = s.isFull B := by cases B <;> rfl
  have written : Memory.get? (u.ring B).storage (s.nextHead B) = some v := by simp [hu]
  rw [← head] at written ⊢
  exact u.liveWritten_setHead B (by rw [hu]; exact s.ringOk_store B _ v (s.nextHead_lt B) hok)
    (by rw [hu]; exact s.liveWritten_store B _ v hl) (full.trans hf) (by rw [written]; rfl)

/-- The byte a consumer reads next has been written (R22). -/
theorem get?_nextTail (B : BufId) (hok : s.ringOk B = true) (hl : s.liveWritten B = true)
    (he : s.isEmpty B = false) :
    Memory.get? (s.ring B).storage (s.nextTail B) = some (s.slot B (s.nextTail B)) := by
  obtain ⟨hh, ht, -⟩ := (s.ringOk_iff B).mp hok
  have holds : 0 < s.count B := by
    rw [Nat.pos_iff_ne_zero, Ne, s.count_eq_zero_iff B hh ht, he]
    decide
  obtain ⟨b, hb⟩ := Option.isSome_iff_exists.mp ((s.liveWritten_iff B).mp hl 0 holds)
  rw [Nat.add_zero] at hb
  rw [slot, nextTail, hb]
  rfl

end State

/-! ### The operations keep the invariant -/

/-- The invariant does not read the schedule. -/
theorem inv_takeTurn (s : State) (h : s.Inv) : s.takeTurn.Inv := by
  cases ht : s.turns with
  | nil => rw [s.takeTurn_free ht]; exact h
  | cons t ts => rw [s.takeTurn_listed t ts ht]; exact h

/-- Recording a fault other than IndexOutOfRange keeps the invariant. -/
theorem inv_raise (s : State) (r : Fault) (h : s.Inv) (hr : r ≠ .indexOutOfRange) : (s.raise r).Inv := by
  obtain ⟨rx, tx, rxLive, txLive, error, phase, txie, enables, hold, sent, -⟩ := h
  exact ⟨rx, tx, rxLive, txLive, error, phase, txie, enables, hold, sent, by simpa [State.faultOk] using hr⟩

/-- Storing a received byte after the head does not meet the byte READ carries, and leaves it one to consume. -/
theorem phaseOk_storedRx (s : State) (b e : Byte) (h : s.phaseOk = true) (hf : s.isFull .rx = false) :
    State.phaseOk { s with rxHold := none, rx := storedRx s b, lastError := e } = true := by
  have apart : s.nextHead .rx ≠ s.rx.tail := (s.isFull_false_iff .rx).mp hf
  obtain ⟨initialised, -, r3, w2, w3, w4⟩ := s.phaseOk_iff.mp h
  refine (State.phaseOk_iff _).mpr
    ⟨initialised, fun _ => (State.isEmpty_false_iff _ .rx).mpr apart, ?carried, w2, w3, w4⟩
  intro c n hp
  obtain ⟨rfl, stored⟩ := r3 c n hp
  exact ⟨rfl, (Memory.get?_set_other _ _ _ _ apart.symm).trans stored⟩

/-- Consuming a byte to send leaves the slot after the head free. -/
theorem phaseOk_consumedTx (s : State) (out : List Byte) (h : s.phaseOk = true) (hok : s.ringOk .tx = true)
    (he : s.isEmpty .tx = false) :
    State.phaseOk { s with tx := { s.tx with tail := s.nextTail .tx }, lineOut := out, txReady := false } = true := by
  have free := (State.isFull_false_iff { s with tx := { s.tx with tail := s.nextTail .tx } } .tx).mpr
    (s.nextHead_ne_nextTail .tx hok he)
  obtain ⟨initialised, r2, r3, w2, w3, w4⟩ := s.phaseOk_iff.mp h
  refine (State.phaseOk_iff _).mpr ⟨initialised, r2, r3, fun b n hp => ?w2, fun b n hp => ?w3, w4⟩
  case w2 =>
    obtain ⟨next, -⟩ := w2 b n hp
    exact ⟨next, free⟩
  case w3 =>
    obtain ⟨next, -, stored⟩ := w3 b n hp
    exact ⟨next, free, stored⟩

theorem execRxh_keeps_inv (s t : State) (h : s.Inv) (hx : execRxh s = .next t) : t.Inv := by
  obtain ⟨rx, tx, rxLive, txLive, error, phase, txie, enables, hold, sent, fault⟩ := id h
  rcases execRxh_cases s with ⟨_, hs⟩ | ⟨b, status, _, _, _, hs⟩ | ⟨b, status, _, _, room, hs⟩ <;>
    cases hs.symm.trans hx
  · exact h
  · exact ⟨rx, tx, rxLive, txLive, s.lastErrorOk_or _ error (overflowCandidate_zeros status), phase, txie, enables, rfl,
      sent, fault⟩
  · exact ⟨(s.pushed_contents .rx b rx room).2, tx, s.liveWritten_pushed .rx b rx rxLive room, txLive,
      s.lastErrorOk_or _ error (lastErrorCandidate_zeros status), phaseOk_storedRx s b _ phase room, txie, enables, rfl,
      sent, fault⟩

theorem execTxh_keeps_inv (s t : State) (h : s.Inv) (hx : execTxh s = .next t) : t.Inv := by
  obtain ⟨rx, tx, rxLive, txLive, error, phase, txie, enables, hold, sent, fault⟩ := id h
  rcases execTxh_cases s with ⟨_, hs⟩ | ⟨_, empty, hs⟩ | ⟨on, holds, hs⟩ <;> cases hs.symm.trans hx
  · exact h
  · obtain ⟨rxen, txen, rxie, -⟩ := s.enablesOk_iff.mp enables
    exact ⟨rx, tx, rxLive, txLive, error, phase, (State.txieOk_iff _).mpr (.inl empty),
      (State.enablesOk_iff _).mpr ⟨rxen, txen, rxie, nofun⟩, hold, sent, fault⟩
  · obtain ⟨-, -, txieOn, -⟩ := s.txhEnabled_iff.mp on
    exact ⟨rx, s.ringOk_setTail .tx tx _ (s.nextTail_lt .tx), rxLive, s.liveWritten_setTail .tx tx txLive holds, error,
      phaseOk_consumedTx s _ phase tx holds, (State.txieOk_iff _).mpr (.inr (.inl txieOn)), enables, hold,
      by simp [State.sentOk], fault⟩

theorem execLine_keeps_inv (b status : Byte) (s t : State) (h : s.Inv) (hx : execLine b status s = .next t) :
    t.Inv := by
  obtain ⟨rx, tx, rxLive, txLive, error, phase, txie, enables, -, sent, fault⟩ := id h
  rcases execLine_cases b status s with ⟨_, hs⟩ | ⟨on, hs⟩ <;> cases hs.symm.trans hx
  · exact h
  · obtain ⟨rxen, -⟩ := s.lineEnabled_iff.mp on
    exact ⟨rx, tx, rxLive, txLive, error, phase, txie, enables, rxen, sent, fault⟩

theorem execXmit_keeps_inv (s t : State) (h : s.Inv) (hx : execXmit s = .next t) : t.Inv := by
  obtain ⟨rx, tx, rxLive, txLive, error, phase, txie, enables, hold, -, fault⟩ := id h
  rcases execXmit_cases s with ⟨_, hs⟩ | ⟨_, hs⟩ <;> cases hs.symm.trans hx
  · exact h
  · exact ⟨rx, tx, rxLive, txLive, error, phase, txie, enables, hold, rfl, fault⟩

theorem execInit_keeps_inv (sel : Half) (s t : State) (h : s.Inv) (hx : execInit sel s = .next t) : t.Inv := by
  rcases execInit_cases sel s with ⟨_, hs⟩ | ⟨_, _, hs⟩ | ⟨hp, _, hs⟩ <;> cases hs.symm.trans hx
  · exact h
  · exact inv_raise s _ h (by decide)
  · obtain ⟨rx, tx, -, -, error, -, -, -, -, sent, fault⟩ := h
    have rxOk := s.ringOk_setTail .rx rx _ ((s.ringOk_iff .rx).mp rx).1
    have txOk := s.ringOk_setTail .tx tx _ ((s.ringOk_iff .tx).mp tx).1
    exact ⟨rxOk, txOk, State.liveWritten_of_empty _ .rx rxOk (s.isEmpty_bufInit .rx),
      State.liveWritten_of_empty _ .tx txOk (s.isEmpty_bufInit .tx), error, State.phaseOk_of_idle _ hp,
      (State.txieOk_iff _).mpr (.inl (s.isEmpty_bufInit .tx)), rfl, Bool.or_true _, sent, fault⟩

/-- FG's phase moves on and the transmit side stays: with no byte just published, `txie` is on for a byte waiting. -/
theorem txieOk_of_not_publishing (s t : State) (h : s.txieOk = true) (hp : s.phase.publishing = false)
    (hempty : t.isEmpty .tx = s.isEmpty .tx) (htxie : t.txie = s.txie) : t.txieOk = true := by
  rw [State.txieOk_iff, hp] at h
  rw [State.txieOk_iff, hempty, htxie]
  rcases h with empty | on | publishing
  · exact .inl empty
  · exact .inr (.inl on)
  · cases publishing

/-- FG's phase moves on from one that has published nothing, to one that says what holds. -/
theorem inv_phase (s : State) (p : Phase) (rs : List Half) (h : s.Inv) (hpub : s.phase.publishing = false)
    (hp : State.phaseOk { s with phase := p } = true) : State.Inv { s with results := rs, phase := p } := by
  obtain ⟨rx, tx, rxLive, txLive, error, -, txie, enables, hold, sent, fault⟩ := h
  exact ⟨rx, tx, rxLive, txLive, error, hp, txieOk_of_not_publishing s _ txie hpub rfl rfl, enables, hold, sent, fault⟩

theorem execRead_keeps_inv (s t : State) (h : s.Inv) (hx : execRead s = .next t) : t.Inv := by
  obtain ⟨rx, tx, rxLive, txLive, error, phase, txie, enables, hold, sent, fault⟩ := id h
  obtain ⟨initialised, r2, -, -, -, -⟩ := s.phaseOk_iff.mp phase
  rcases execRead_cases s with ⟨_, _, hs⟩ | ⟨hp, init, hs⟩ | ⟨hp, _, hs⟩ | ⟨hp, holds, hs⟩ | ⟨hp, hs⟩ | ⟨b, n, hp, hs⟩
    | ⟨_, hs⟩ <;> cases hs.symm.trans hx
  · exact inv_raise s _ h (by decide)
  · exact inv_phase s .r1 _ h (by rw [hp]; rfl) init
  · exact inv_phase s .idle _ h (by rw [hp]; rfl) rfl
  · have init := initialised (by rw [hp]; nofun)
    exact inv_phase s .r2 _ h (by rw [hp]; rfl)
      ((State.phaseOk_iff _).mpr ⟨fun _ => init, fun _ => holds, nofun, nofun, nofun, nofun⟩)
  · have init := initialised (by rw [hp]; nofun)
    have carried := s.get?_nextTail .rx rx rxLive (r2 hp)
    refine ⟨s.ringOk_setTail .rx rx _ (s.nextTail_lt .rx), tx, s.liveWritten_setTail .rx rx rxLive (r2 hp), txLive,
      error, (State.phaseOk_iff _).mpr ⟨fun _ => init, nofun, ?_, nofun, nofun, nofun⟩,
      txieOk_of_not_publishing s _ txie (by rw [hp]; rfl) rfl rfl, enables, hold, sent, fault⟩
    intro b n hbn
    cases hbn
    exact ⟨rfl, carried⟩
  · exact inv_phase s .idle _ h (by rw [hp]; rfl) rfl
  · exact h

theorem execWrite_keeps_inv (b : Byte) (s t : State) (h : s.Inv) (hx : execWrite b s = .next t) : t.Inv := by
  obtain ⟨rx, tx, rxLive, txLive, error, phase, txie, enables, hold, sent, fault⟩ := id h
  obtain ⟨initialised, -, -, w2, w3, -⟩ := s.phaseOk_iff.mp phase
  rcases execWrite_cases b s with ⟨_, _, hs⟩ | ⟨hp, init, hs⟩ | ⟨_, _, _, hs⟩ | ⟨c, hp, room, hs⟩
    | ⟨c, n, hp, inside, hs⟩ | ⟨c, n, hp, outside, hs⟩ | ⟨c, n, hp, hs⟩ | ⟨c, n, hp, hs⟩ | ⟨_, hs⟩ <;>
    cases hs.symm.trans hx
  · exact inv_raise s _ h (by decide)
  · exact inv_phase s (.w1 b) _ h (by rw [hp]; rfl) init
  · exact h
  · have init := initialised (by rw [hp]; nofun)
    refine inv_phase s _ _ h (by rw [hp]; rfl)
      ((State.phaseOk_iff _).mpr ⟨fun _ => init, nofun, nofun, ?_, nofun, nofun⟩)
    rintro _ _ ⟨⟩
    exact ⟨rfl, room⟩
  · have init := initialised (by rw [hp]; nofun)
    obtain ⟨next, room⟩ := w2 c n hp
    refine ⟨rx, s.ringOk_store .tx n c inside tx, rxLive, s.liveWritten_store .tx n c txLive, error,
      (State.phaseOk_iff _).mpr ⟨fun _ => init, nofun, nofun, nofun, ?_, nofun⟩,
      txieOk_of_not_publishing s _ txie (by rw [hp]; rfl) rfl rfl, enables, hold, sent, fault⟩
    rintro _ _ ⟨⟩
    exact ⟨next, room, Memory.get?_set_same _ _ _⟩
  · obtain ⟨rfl, -⟩ := w2 c n hp
    exact absurd (s.nextHead_lt .tx) (Nat.not_lt.mpr outside)
  · have init := initialised (by rw [hp]; nofun)
    obtain ⟨rfl, room, stored⟩ := w3 c n hp
    refine ⟨rx, s.ringOk_setHead .tx tx _ (s.nextHead_lt .tx), rxLive,
      s.liveWritten_setHead .tx tx txLive room (Option.isSome_iff_exists.mpr ⟨c, stored⟩), error,
      (State.phaseOk_iff _).mpr ⟨fun _ => init, nofun, nofun, nofun, nofun, ?_⟩,
      (State.txieOk_iff _).mpr (.inr (.inr rfl)), enables, hold, sent, fault⟩
    rintro _ _ ⟨⟩
    rfl
  · have init := initialised (by rw [hp]; nofun)
    obtain ⟨rxen, txen, rxie, -⟩ := s.enablesOk_iff.mp enables
    exact ⟨rx, tx, rxLive, txLive, error, rfl, (State.txieOk_iff _).mpr (.inr (.inl rfl)),
      (State.enablesOk_iff _).mpr ⟨rxen, txen, rxie, fun _ => init⟩, hold, sent, fault⟩
  · exact h

/-- Every operation keeps the invariant, in every phase. -/
theorem exec_keeps_inv (i : Instr) (s t : State) (h : s.Inv) (hx : exec i s = .next t) : t.Inv := by
  cases i with
  | init sel => exact execInit_keeps_inv sel s t h hx
  | read => exact execRead_keeps_inv s t h hx
  | write b => exact execWrite_keeps_inv b s t h hx
  | sei | cli | writes => exact whenIdle_keeps State.Inv s t _ h (by exact h) hx
  | rxh => exact execRxh_keeps_inv s t h hx
  | txh => exact execTxh_keeps_inv s t h hx
  | line b status => exact execLine_keeps_inv b status s t h hx
  | xmit => exact execXmit_keeps_inv s t h hx

/-- The state a step runs an operation in meets the invariant. -/
theorem fetch_run_keeps_inv (s u : State) (i : Instr) (h : s.Inv) (hu : s.fetch = .run i u) : u.Inv := by
  rcases fetch_run s u i hu with ⟨_, _, _, rfl⟩ | ⟨_, _, rfl⟩ | ⟨_, _, _, _, _, _, rfl⟩
  · exact inv_takeTurn s h
  · exact inv_takeTurn s h
  · exact inv_takeTurn s h

/-- Settles O4: the operation run keeps the invariant, so a fault it records is not IndexOutOfRange, and recording
another fault in the state before the step keeps it too. -/
theorem stepKeepsInvariant : Obligations.StepKeepsInvariant := by
  intro s t h hstep
  obtain ⟨-, ⟨e, _, rfl⟩ | ⟨_, rfl⟩ | ⟨i, u, hu, hx, _⟩ | ⟨i, u, v, r, hu, hx, hv, rfl⟩⟩ := step_cases s t hstep
  · exact inv_raise s _ h (by decide)
  · exact inv_takeTurn s h
  · exact exec_keeps_inv i u t (fetch_run_keeps_inv s u i h hu) hx
  · obtain ⟨-, -, -, -, -, -, -, -, -, -, fault⟩ := exec_keeps_inv i u v (fetch_run_keeps_inv s u i h hu) hx
    refine inv_raise s r h ?_
    rintro rfl
    simp [State.faultOk, hv] at fault

/-! ### Runs from power-on -/

/-- Power-on meets the invariant, whatever is loaded: both buffers are empty and nothing is enabled. -/
theorem inv_powerOn_load (c : Config) (program : List Word) (turns : List Turn) :
    ((State.powerOn c).load program turns).Inv := by
  have ok (B : BufId) : (State.powerOn c).ringOk B = true := by
    cases B <;> exact ((State.powerOn c).ringOk_iff _).mpr ⟨c.capacity_pos _, c.capacity_pos _, rfl⟩
  have live (B : BufId) : (State.powerOn c).liveWritten B = true :=
    State.liveWritten_of_empty _ B (ok B) (by cases B <;> rfl)
  exact ⟨ok .rx, ok .tx, live .rx, live .tx, beq_iff_eq.mpr BitVec.zero_and, rfl, rfl, rfl, rfl, rfl, rfl⟩

/-- Settles O3: reset is power-on with nothing loaded. -/
theorem powerOnMeetsInvariant : Obligations.PowerOnMeetsInvariant :=
  ⟨inv_powerOn_load Config.default [] [], inv_powerOn_load⟩

/-- No step changes the configuration. -/
theorem step_cfg (s t : State) (h : step s = .next t) : t.cfg = s.cfg := by
  obtain ⟨-, ⟨r, rfl⟩ | ⟨-, -, -, rfl⟩ | ⟨e, -, hx, -⟩ | ⟨i, -, -, hx, -⟩ | ⟨w, ws, i, -, -, -, -, hx, -⟩⟩ :=
    step_inversion s t h
  · rfl
  · exact s.takeTurn_cfg
  · exact (exec_cfg _ _ t hx).trans s.takeTurn_cfg
  · exact (exec_cfg i _ t hx).trans s.takeTurn_cfg
  · exact (exec_cfg i _ t hx).trans s.takeTurn_cfg

/-- A reachable state meets the invariant and has the configuration the core was built with. -/
theorem reachable_inv (c : Config) (t : State) (h : State.Reachable c t) : t.cfg = c ∧ t.Inv := by
  obtain ⟨program, turns, n, hrun⟩ := h
  exact run_keeps (fun u => u.cfg = c ∧ u.Inv)
    (fun u v hu huv => ⟨(step_cfg u v huv).trans hu.1, stepKeepsInvariant u v hu.2 huv⟩) n _ t
    ⟨rfl, inv_powerOn_load c program turns⟩ hrun

/-- With FG anywhere but between publishing and enabling, a byte waiting to be sent has `txie` on (R44). -/
theorem txie_of_inv (s : State) (h : s.Inv) (he : s.isEmpty .tx = false) (hp : s.phase.publishing = false) :
    s.txie = true := by
  obtain ⟨-, -, -, -, -, -, txie, -⟩ := h
  simpa [State.txieOk, he, hp] using txie

/-- Settles O5: the ranges are the invariant's, the count is a remainder modulo N, and a full buffer is not empty. -/
theorem reachableStatesAreInRange : Obligations.ReachableStatesAreInRange := by
  intro c t ht
  obtain ⟨rfl, inv⟩ := reachable_inv c t ht
  obtain ⟨rx, tx, -⟩ := id inv
  refine ⟨fun B => ?range, fun b hp full => ?spinning⟩
  case range =>
    have ok : t.ringOk B = true := by cases B <;> assumption
    obtain ⟨head, tail, -⟩ := (t.ringOk_iff B).mp ok
    exact ⟨head, tail, Nat.le_sub_one_of_lt (t.count_lt B)⟩
  case spinning => exact txie_of_inv t inv (t.not_empty_of_full .tx tx full) (by rw [hp]; rfl)

/-- A step that answers a fault answers the one recorded. -/
theorem fault_of_step (s : State) (r : Fault) (h : step s = .fault r) : s.fault = some r := by
  cases hf : s.fault with
  | none =>
    obtain ⟨t, ht⟩ := step_total s hf
    cases ht.symm.trans h
  | some q =>
    cases (step_faulted s q hf).symm.trans h
    rfl

/-- A run that stops with a fault has reached a state that records it. -/
theorem fault_of_run (n : Nat) (s : State) (r : Fault) (h : Core.run Sys2Proof.core n s = .fault r) :
    ∃ m t, Core.run Sys2Proof.core m s = .next t ∧ t.fault = some r := by
  induction n generalizing s with
  | zero => cases h
  | succ n ih =>
    cases hs : step s with
    | next u =>
      rw [run_succ n s u hs] at h
      obtain ⟨m, t, hrun, ht⟩ := ih u h
      exact ⟨m + 1, t, (run_succ m s u hs).trans hrun, ht⟩
    | fault q =>
      rw [run_succ_fault n s q hs] at h
      cases h
      exact ⟨0, s, rfl, fault_of_step s r hs⟩
    | refused q =>
      rw [run_succ_refused n s q hs] at h
      cases h

/-- Settles O53: the invariant rules the record out in every reachable state, and a run stops only with a record. -/
theorem indexOutOfRangeIsUnreachable : Obligations.IndexOutOfRangeIsUnreachable := by
  intro c
  have unrecorded : ∀ t, State.Reachable c t → t.fault ≠ some .indexOutOfRange := by
    intro t ht
    obtain ⟨-, -, -, -, -, -, -, -, -, -, -, fault⟩ := reachable_inv c t ht
    exact bne_iff_ne.mp fault
  refine ⟨unrecorded, fun program turns n hrun => ?_⟩
  obtain ⟨m, t, hm, ht⟩ := fault_of_run n _ _ hrun
  exact unrecorded t ⟨program, turns, m, hm⟩ ht

end Sys2Proof.Machine

/-! Words and text (30_encoding.md sections 2, 3 and 8): decode and encode agree (R74, R77, R86), sample words, and what
the assembler makes of a character literal and a quoted text (R76, R86). -/

namespace Sys2Proof

/-- The words of an operation decode to what it stands for, one lemma per constructor. -/
theorem encode_decodes : ∀ i : Instr, i.wf = true → (encode i).map decodeWord = (expand i).map .ok
  | .init sel => Laws.EncodedWords.init sel
  | .read => Laws.EncodedWords.read
  | .write b => Laws.EncodedWords.write b
  | .sei => Laws.EncodedWords.sei
  | .cli => Laws.EncodedWords.cli
  | .writes text => Laws.EncodedWords.writes text
  | .rxh => Laws.EncodedWords.rxh
  | .txh => Laws.EncodedWords.txh
  | .line b status => Laws.EncodedWords.line b status
  | .xmit => Laws.EncodedWords.xmit

theorem encode_of_decodeCommand (w : Word) (i : Instr) (h : decodeCommand w = .ok i) : encode i = [w] := by
  rcases decodeCommand_ok w i h with ⟨_, rfl, rfl⟩ | ⟨rfl, rfl⟩ | ⟨_, rfl, rfl⟩ | ⟨rfl, rfl⟩ | ⟨rfl, rfl⟩ <;> rfl

theorem encode_event (e : Event) : encode e.instr = [encodeEvent e] := by cases e <;> rfl

/-- A word that decodes spells a command, or is an event's word. -/
theorem decodeWord_ok (w : Word) (i : Instr) (h : decodeWord w = .ok i) :
    decodeCommand w = .ok i ∨ ∃ e, w = encodeEvent e ∧ i = e.instr := by
  unfold decodeWord at h
  split at h
  · cases he : decodeEvent w with
    | error x => rw [he] at h; cases h
    | ok e => rw [he] at h; cases h; exact .inr ⟨e, decodeEvent_ok w e he, rfl⟩
  · exact .inl h

/-- Settles O6: by constructor one way; the other way each decoder answers only for the encoder's words. -/
theorem decodeEncodeAgree : Obligations.DecodeEncodeAgree := by
  refine ⟨encode_decodes, fun w i h => ?_⟩
  rcases decodeWord_ok w i h with command | ⟨e, rfl, rfl⟩
  · exact encode_of_decodeCommand w i command
  · exact encode_event e

/-- Settles O8: each word decodes by computation. -/
theorem sampleWordsDecode : Obligations.SampleWordsDecode := by
  unfold Obligations.SampleWordsDecode
  decide

/-! ### The assembler -/

/-- The bytes sent of a text without 0x00 that its terminator ends are the text. -/
theorem textBytes_terminated (bs : List Byte) (h : ∀ b ∈ bs, b ≠ 0) : textBytes (bs ++ [0]) = bs := by
  have nonzero : ∀ b ∈ bs, decide (b ≠ 0) = true := fun b hb => decide_eq_true (h b hb)
  rw [textBytes, List.takeWhile_append_of_pos nonzero]
  simp

end Sys2Proof

namespace Sys2Proof.Machine

/-- The code of a character as a byte. -/
def charByte (c : Char) : Byte := BitVec.ofNat 8 c.toNat

theorem asciiByte_of_lt (c : Char) (h : c.toNat < 128) : asciiByte c = some (charByte c) := if_pos h

/-- The WRITE word of a 7-bit character is its code below WRITE's `op`. -/
theorem encodeWrite_charByte (c : Char) (h : c.toNat < 128) :
    encodeWrite (charByte c) = 0x30000000 ||| BitVec.ofNat 32 c.toNat := by
  have wide : (charByte c).setWidth 32 = BitVec.ofNat 32 c.toNat := by
    apply BitVec.eq_of_toNat_eq
    rw [BitVec.toNat_setWidth, charByte, BitVec.toNat_ofNat, BitVec.toNat_ofNat]
    omega
  rw [encodeWrite_eq_or, wide]

theorem charByte_ne_zero (c : Char) (hpos : 0 < c.toNat) (h : c.toNat < 128) : charByte c ≠ 0 := by
  intro zero
  have value : c.toNat % 2 ^ 8 = 0 := congrArg BitVec.toNat zero
  omega

/-- A quoted text is read up to its closing quote. -/
theorem parseQuoted_closed (cs : List Char) (h : ∀ c ∈ cs, c.toNat < 128 ∧ c ≠ '"') :
    parseQuoted (cs ++ ['"']) = some (cs.map charByte) := by
  induction cs with
  | nil => rfl
  | cons c cs ih =>
    obtain ⟨⟨ascii, noQuote⟩, rest⟩ := List.forall_mem_cons.mp h
    rw [List.cons_append, parseQuoted, asciiByte_of_lt c ascii, ih rest, List.map_cons]
    exact fun quote => noQuote quote

theorem assemble_char (c : Char) :
    assemble ['W', 'R', 'I', 'T', 'E', ' ', '\'', c, '\''] = (asciiByte c).map .write := rfl

theorem assemble_quoted (cs : List Char) :
    assemble (['W', 'R', 'I', 'T', 'E', 'S', ' ', '"'] ++ cs ++ ['"'])
      = ((parseQuoted (cs ++ ['"'])).map (· ++ [0])).map .writes := rfl

/-- Settles O13: the character's code is WRITE's operand, and the codes of a quoted text, none of them 0x00, are the
bytes WRITES stands for. -/
theorem assemblerSpellsText : Obligations.AssemblerSpellsText := by
  refine ⟨fun c ascii => ?char, fun cs h => ?text⟩
  case char =>
    rw [assembleWords, assemble_char, asciiByte_of_lt c ascii, ← encodeWrite_charByte c ascii]
    rfl
  case text =>
    have nonzero : ∀ b ∈ cs.map charByte, b ≠ 0 :=
      List.forall_mem_map.mpr fun c hc => charByte_ne_zero c (h c hc).1 (h c hc).2.1
    rw [assembleWords, assemble_quoted, parseQuoted_closed cs fun c hc => (h c hc).2, Option.map_some, Option.map_some,
      Option.map_some, encode, textBytes_terminated _ nonzero, List.map_map]
    exact congrArg some (List.map_congr_left fun c hc => encodeWrite_charByte c (h c hc).2.1)

end Sys2Proof.Machine

/-! The byte streams (20_memory.md section 4): what one operation does to the bytes waiting in each buffer, whose turn
that operation can run in, and so what one step does to the streams. -/

namespace Sys2Proof.Machine

open Host

/-! ### Whose turn an operation runs in -/

/-- The state an operation is run in differs from the one before the step in program and schedule only. -/
theorem fetch_run_state (s u : State) (i : Instr) (h : s.fetch = .run i u) :
    ∃ ws ts k, u = { s with program := ws, turns := ts, tick := k } := by
  have taken : ∃ ts k, s.takeTurn = { s with turns := ts, tick := k } := by
    cases ht : s.turns with
    | nil => exact ⟨[], s.tick + 1, by rw [s.takeTurn_free ht, ← ht]⟩
    | cons t ts => exact ⟨ts, s.tick, s.takeTurn_listed t ts ht⟩
  obtain ⟨ts, k, hts⟩ := taken
  rcases fetch_run s u i h with ⟨_, _, _, rfl⟩ | ⟨_, _, rfl⟩ | ⟨_, ws, _, _, _, _, rfl⟩
  · exact ⟨s.program, ts, k, hts⟩
  · exact ⟨s.program, ts, k, hts⟩
  · exact ⟨ws, ts, k, by rw [hts]; rfl⟩

theorem instr_injective (e f : Event) (h : e.instr = f.instr) : e = f := by
  cases e <;> cases f <;> cases h <;> rfl

/-- No command word spells an event. -/
theorem decodeCommand_ne_event (w : Word) (e : Event) : decodeCommand w ≠ .ok e.instr := by
  intro h
  rcases decodeCommand_ok w _ h with ⟨_, _, he⟩ | ⟨_, he⟩ | ⟨_, _, he⟩ | ⟨_, he⟩ | ⟨_, he⟩ <;> cases e <;> cases he

/-- No command in progress is an event. -/
theorem command?_ne_event (p : Phase) (e : Event) : p.command? ≠ some e.instr := by
  intro h
  rcases command?_cases p _ h with he | ⟨_, he⟩ <;> cases e <;> cases he

/-- An event's operation runs in its own turn. -/
theorem nextTurn_of_run_event (s u : State) (e : Event) (h : s.fetch = .run e.instr u) : s.nextTurn = .event e := by
  rcases fetch_run s u _ h with ⟨f, turn, hf, _⟩ | ⟨_, hc, _⟩ | ⟨w, _, _, _, _, hd, _⟩
  · rw [turn, instr_injective e f hf]
  · exact absurd hc (command?_ne_event _ e)
  · exact absurd hd (decodeCommand_ne_event w e)

/-- Any other operation runs in FG's turn, in progress or issued at Idle. -/
theorem fg_of_run_command (s u : State) (i : Instr) (hi : ∀ e : Event, i ≠ e.instr) (h : s.fetch = .run i u) :
    s.nextTurn = .fg ∧ (s.phase.command? = some i
      ∨ s.phase = .idle ∧ ∃ w ws, s.program = w :: ws ∧ decodeCommand w = .ok i) := by
  rcases fetch_run s u i h with ⟨e, _, he, _⟩ | ⟨turn, hc, _⟩ | ⟨w, ws, turn, hp, hw, hd, _⟩
  · exact absurd he (hi e)
  · exact ⟨turn, .inl hc⟩
  · exact ⟨turn, .inr ⟨hp, w, ws, hw, hd⟩⟩

/-- INIT is never in progress: it runs when FG issues its word at Idle. -/
theorem issue_of_run_init (s u : State) (sel : Half) (h : s.fetch = .run (.init sel) u) :
    s.nextTurn = .fg ∧ s.phase = .idle ∧ ∃ w ws, s.program = w :: ws ∧ decodeCommand w = .ok (.init sel) := by
  obtain ⟨turn, hc | issue⟩ := fg_of_run_command s u _ (by intro e; cases e <;> nofun) h
  · rcases command?_cases _ _ hc with he | ⟨_, he⟩ <;> cases he
  · exact ⟨turn, issue⟩

theorem fg_of_run_read (s u : State) (h : s.fetch = .run .read u) : s.nextTurn = .fg :=
  (fg_of_run_command s u .read (by intro e; cases e <;> nofun) h).1

theorem fg_of_run_write (s u : State) (b : Byte) (h : s.fetch = .run (.write b) u) : s.nextTurn = .fg :=
  (fg_of_run_command s u (.write b) (by intro e; cases e <;> nofun) h).1

/-- A step leaves all but the fault record or the schedule, or it runs an operation. -/
theorem step_effect (s t : State) (h : step s = .next t) :
    (∃ r, t = s.raise r) ∨ t = s.takeTurn ∨ ∃ i u, s.fetch = .run i u ∧ exec i u = .next t := by
  obtain ⟨-, ⟨_, _, rfl⟩ | ⟨_, rfl⟩ | ⟨i, u, hu, hx, _⟩ | ⟨_, _, _, r, _, _, _, rfl⟩⟩ := step_cases s t h
  · exact .inl ⟨_, rfl⟩
  · exact .inr (.inl rfl)
  · exact .inr (.inr ⟨i, u, hu, hx⟩)
  · exact .inl ⟨r, rfl⟩

/-! ### What READ, WRITE and INIT do to the buffers -/

/-- READ consumes a byte in R2 and leaves the receive buffer in every other phase. -/
theorem execRead_rx (s t : State) (hx : execRead s = .next t) :
    t.rx = s.rx ∨ s.phase = .r2 ∧ t.rx = { s.rx with tail := s.nextTail .rx }
      ∧ t.phase = .r3 (s.slot .rx (s.nextTail .rx)) (s.nextTail .rx) := by
  rcases execRead_cases s with ⟨_, _, hs⟩ | ⟨_, _, hs⟩ | ⟨_, _, hs⟩ | ⟨_, _, hs⟩ | ⟨hp, hs⟩ | ⟨_, _, _, hs⟩
    | ⟨_, hs⟩ <;> cases hs.symm.trans hx
  · exact .inl rfl
  · exact .inl rfl
  · exact .inl rfl
  · exact .inl rfl
  · exact .inr ⟨hp, rfl, rfl⟩
  · exact .inl rfl
  · exact .inl rfl

/-- WRITE stores in W2, publishes in W3 and leaves the transmit buffer in every other phase. -/
theorem execWrite_tx (b : Byte) (s t : State) (hx : execWrite b s = .next t) :
    t.tx = s.tx
    ∨ (∃ c n, s.phase = .w2 c n ∧ n < s.cfg.nTx ∧ t.tx = { s.tx with storage := Memory.set s.tx.storage n c })
    ∨ ∃ c n, s.phase = .w3 c n ∧ t.tx = { s.tx with head := n } := by
  rcases execWrite_cases b s with ⟨_, _, hs⟩ | ⟨_, _, hs⟩ | ⟨_, _, _, hs⟩ | ⟨_, _, _, hs⟩ | ⟨c, n, hp, inside, hs⟩
    | ⟨_, _, _, _, hs⟩ | ⟨c, n, hp, hs⟩ | ⟨_, _, _, hs⟩ | ⟨_, hs⟩ <;> cases hs.symm.trans hx
  · exact .inl rfl
  · exact .inl rfl
  · exact .inl rfl
  · exact .inl rfl
  · exact .inr (.inl ⟨c, n, hp, inside, rfl⟩)
  · exact .inl rfl
  · exact .inr (.inr ⟨c, n, hp, rfl⟩)
  · exact .inl rfl
  · exact .inl rfl

/-- INIT leaves both buffers, or with interrupts off empties both. -/
theorem execInit_rings (sel : Half) (s t : State) (hx : execInit sel s = .next t) :
    (t.rx = s.rx ∧ t.tx = s.tx)
    ∨ s.gie = false ∧ t.rx = { s.rx with tail := s.rx.head } ∧ t.tx = { s.tx with tail := s.tx.head } := by
  rcases execInit_cases sel s with ⟨_, hs⟩ | ⟨_, _, hs⟩ | ⟨_, off, hs⟩ <;> cases hs.symm.trans hx
  · exact .inl ⟨rfl, rfl⟩
  · exact .inl ⟨rfl, rfl⟩
  · exact .inr ⟨off, rfl, rfl⟩

/-! ### The receive stream -/

theorem execRxh_contents (s t : State) (hx : execRxh s = .next t) (hok : s.ringOk .rx = true) :
    t.contents .rx = s.contents .rx
    ∨ ∃ b status, s.rxHold = some (b, status) ∧ s.isFull .rx = false
        ∧ t.contents .rx = s.contents .rx ++ [b] ∧ t.rxHold = none := by
  rcases execRxh_cases s with ⟨_, hs⟩ | ⟨_, _, _, _, _, hs⟩ | ⟨b, status, _, hold, room, hs⟩ <;> cases hs.symm.trans hx
  · exact .inl rfl
  · exact .inl rfl
  · exact .inr ⟨b, status, hold, room, (s.pushed_contents .rx b hok room).1, rfl⟩

theorem execRead_contents (s t : State) (hx : execRead s = .next t) (hok : s.ringOk .rx = true)
    (hr2 : s.phase = .r2 → s.isEmpty .rx = false) :
    t.contents .rx = s.contents .rx
    ∨ ∃ b n, s.phase = .r2 ∧ s.contents .rx = b :: t.contents .rx ∧ t.phase = .r3 b n := by
  have cfg := exec_cfg .read s t hx
  rcases execRead_rx s t hx with same | ⟨hp, rx, phase⟩
  · exact .inl (s.contents_congr t .rx cfg same)
  · obtain ⟨hh, ht, -⟩ := (s.ringOk_iff .rx).mp hok
    have dropped := (s.setTail .rx (s.nextTail .rx)).contents_congr t .rx cfg rx
    exact .inr ⟨_, _, hp, by rw [dropped]; exact s.contents_setTail .rx hh ht (hr2 hp), phase⟩

theorem execInit_contents (sel : Half) (s t : State) (hx : execInit sel s = .next t) (hrx : s.ringOk .rx = true)
    (htx : s.ringOk .tx = true) :
    (t.contents .rx = s.contents .rx ∧ t.contents .tx = s.contents .tx)
    ∨ s.gie = false ∧ t.contents .rx = [] ∧ t.contents .tx = [] := by
  have cfg := exec_cfg (.init sel) s t hx
  rcases execInit_rings sel s t hx with ⟨rx, tx⟩ | ⟨off, rx, tx⟩
  · exact .inl ⟨s.contents_congr t .rx cfg rx, s.contents_congr t .tx cfg tx⟩
  · refine .inr ⟨off, ?_, ?_⟩
    · rw [(s.bufInit .rx).contents_congr t .rx cfg rx]
      exact s.contents_bufInit .rx ((s.ringOk_iff .rx).mp hrx).1
    · rw [(s.bufInit .tx).contents_congr t .tx cfg tx]
      exact s.contents_bufInit .tx ((s.ringOk_iff .tx).mp htx).1

/-- Settles O27: only RXH, READ and INIT change the receive buffer, each as its own lemma says and in its own turn. -/
theorem receiveStreamIsFifo : Obligations.ReceiveStreamIsFifo := by
  intro s t inv h
  obtain ⟨rx, tx, -, -, -, phase, -⟩ := inv
  obtain ⟨-, r2, -⟩ := s.phaseOk_iff.mp phase
  rcases step_effect s t h with ⟨r, rfl⟩ | rfl | ⟨i, u, hu, hx⟩
  · exact .inl rfl
  · exact .inl (s.contents_congr _ .rx s.takeTurn_cfg s.takeTurn_rx)
  obtain ⟨ws, ts, k, rfl⟩ := fetch_run_state s u i hu
  by_cases owner : i = .rxh ∨ i = .read ∨ ∃ sel, i = .init sel
  case neg =>
    simp only [not_or, not_exists] at owner
    obtain ⟨hrxh, hread, hinit⟩ := owner
    exact .inl (s.contents_congr t .rx (exec_cfg i _ t hx :) (exec_rx i _ t hrxh hread hinit hx :))
  rcases owner with rfl | rfl | ⟨sel, rfl⟩
  · rcases execRxh_contents _ t hx rx with same | ⟨b, status, stored⟩
    · exact .inl same
    · exact .inr (.inl ⟨b, status, nextTurn_of_run_event s _ .rxh hu, stored⟩)
  · rcases execRead_contents _ t hx rx r2 with same | ⟨b, n, consumed⟩
    · exact .inl same
    · exact .inr (.inr (.inl ⟨b, n, fg_of_run_read s _ hu, consumed⟩))
  · obtain ⟨turn, idle, w, ws', program, word⟩ := issue_of_run_init s _ sel hu
    obtain ⟨same, -⟩ | ⟨off, empty, -⟩ := execInit_contents sel _ t hx rx tx
    · exact .inl same
    · exact .inr (.inr (.inr ⟨w, ws', sel, turn, idle, program, word, off, empty⟩))

/-! ### The transmit stream -/

/-- Only TXH hands bytes to the transmitter. -/
theorem exec_lineOut (i : Instr) (s t : State) (htxh : i ≠ .txh) (hx : exec i s = .next t) : t.lineOut = s.lineOut := by
  cases i with
  | txh => exact absurd rfl htxh
  | init | read | write | sei | cli | writes | rxh | line | xmit =>
    exact (congrArg State.lineOut (registerFrames _ s t hx) :)

/-- TXH moves a byte from the front of those waiting to the end of those sent. -/
theorem execTxh_stream (s t : State) (hx : execTxh s = .next t) (hok : s.ringOk .tx = true) :
    s.lineOut <+: t.lineOut ∧ t.lineOut ++ t.contents .tx = s.lineOut ++ s.contents .tx := by
  obtain ⟨hh, ht, -⟩ := (s.ringOk_iff .tx).mp hok
  rcases execTxh_cases s with ⟨_, hs⟩ | ⟨_, _, hs⟩ | ⟨_, holds, hs⟩ <;> cases hs.symm.trans hx
  · exact ⟨List.prefix_rfl, rfl⟩
  · exact ⟨List.prefix_rfl, rfl⟩
  · refine ⟨List.prefix_append _ _, ?_⟩
    rw [s.contents_setTail .tx hh ht holds]
    exact (List.append_cons _ _ _).symm

/-- WRITE's data store meets no byte waiting (R62, R173), and its publishing appends the byte stored. -/
theorem execWrite_contents (b : Byte) (s t : State) (hx : execWrite b s = .next t) (hok : s.ringOk .tx = true)
    (hph : s.phaseOk = true) :
    t.contents .tx = s.contents .tx ∨ ∃ c n, s.phase = .w3 c n ∧ t.contents .tx = s.contents .tx ++ [c] := by
  obtain ⟨hh, ht, -⟩ := (s.ringOk_iff .tx).mp hok
  obtain ⟨-, -, -, w2, w3, -⟩ := s.phaseOk_iff.mp hph
  have cfg := exec_cfg (.write b) s t hx
  rcases execWrite_tx b s t hx with same | ⟨c, n, hp, -, tx⟩ | ⟨c, n, hp, tx⟩
  · exact .inl (s.contents_congr t .tx cfg same)
  · obtain ⟨rfl, -⟩ := w2 c n hp
    set stored := s.setRing .tx { s.tx with storage := Memory.set s.tx.storage (s.nextHead .tx) c }
    rw [stored.contents_congr t .tx cfg tx]
    exact .inl (s.contents_store .tx _ c fun k hk => s.live_ne_nextHead .tx hh ht k hk)
  · obtain ⟨rfl, room, stored⟩ := w3 c n hp
    have byte : s.slot .tx (s.nextHead .tx) = c := by rw [State.slot, State.ring_tx, stored]; rfl
    refine .inr ⟨c, _, hp, ?_⟩
    rw [(s.setHead .tx (s.nextHead .tx)).contents_congr t .tx cfg tx, s.contents_setHead .tx hh ht room, byte]

/-- Settles O31: only TXH, WRITE and INIT change the transmit buffer, and only TXH what was sent; each as its own lemma
says and in its own turn. -/
theorem transmitStreamIsFifo : Obligations.TransmitStreamIsFifo := by
  intro s t inv h
  obtain ⟨rx, tx, -, -, -, phase, -⟩ := inv
  rcases step_effect s t h with ⟨r, rfl⟩ | rfl | ⟨i, u, hu, hx⟩
  · exact ⟨List.prefix_rfl, .inl rfl⟩
  · rw [s.takeTurn_lineOut, s.contents_congr _ .tx s.takeTurn_cfg s.takeTurn_tx]
    exact ⟨List.prefix_rfl, .inl rfl⟩
  obtain ⟨ws, ts, k, rfl⟩ := fetch_run_state s u i hu
  by_cases sends : i = .txh
  · subst sends
    obtain ⟨sent, stream⟩ := execTxh_stream _ t hx tx
    exact ⟨sent, .inl stream⟩
  have out : t.lineOut = s.lineOut := (exec_lineOut i _ t sends hx :)
  refine ⟨by rw [out], ?_⟩
  by_cases owner : (∃ b, i = .write b) ∨ ∃ sel, i = .init sel
  case neg =>
    simp only [not_or, not_exists] at owner
    obtain ⟨hwrite, hinit⟩ := owner
    rw [out, s.contents_congr t .tx (exec_cfg i _ t hx :) (exec_tx i _ t sends hwrite hinit hx :)]
    exact .inl rfl
  rcases owner with ⟨b, rfl⟩ | ⟨sel, rfl⟩
  · rcases execWrite_contents b _ t hx tx phase with same | ⟨c, n, hp, published⟩
    · exact .inl (by rw [out, same]; rfl)
    · exact .inr (.inl ⟨c, n, fg_of_run_write s _ b hu, hp, out, published⟩)
  · obtain ⟨turn, idle, w, ws', program, word⟩ := issue_of_run_init s _ sel hu
    obtain ⟨-, same⟩ | ⟨off, -, empty⟩ := execInit_contents sel _ t hx rx tx
    · exact .inl (by rw [out, same]; rfl)
    · exact .inr (.inr ⟨w, ws', sel, turn, idle, program, word, off, out, empty⟩)

end Sys2Proof.Machine

/-! The circular buffer as a queue (40_circular_buffer.md R100 to R108): the increment, empty and full by the count, and
the refinement of a bounded first-in first-out queue. -/

namespace Sys2Proof.Machine

/-- A capacity divides `2 ^ IDX_W`: both are powers of two, and R12 checks their order. -/
theorem capacity_dvd_idx (c : Config) (B : BufId) : c.capacity B ∣ 2 ^ c.idxW := by
  obtain ⟨k, hk, -⟩ := c.capacity_pow B
  have fits := c.capacity_le_idx B
  rw [hk] at fits ⊢
  exact Nat.pow_dvd_pow 2 ((Nat.pow_le_pow_iff_right (by decide)).mp fits)

/-- Settles O19: masking is the remainder modulo N, which the cut to IDX_W bits keeps. -/
theorem ringIncrementWraps : Obligations.RingIncrementWraps := by
  intro s B i _
  refine ⟨rfl, s.nextIdx_lt B i, s.nextIdx_eq_mod B i, ?width, ?wrap⟩
  case width =>
    rw [s.nextIdx_eq_mod B i, ← Nat.mod_mod_of_dvd (i + 1) (capacity_dvd_idx s.cfg B)]
    exact (s.cfg.and_mask B _).symm
  case wrap =>
    rw [s.nextIdx_eq_mod B, Nat.sub_add_cancel (s.cfg.capacity_pos B), Nat.mod_self]

/-- The count is the difference of the indices, up to one capacity. -/
theorem count_modEq (s : State) (B : BufId) (hh : (s.ring B).head < s.cfg.capacity B)
    (ht : (s.ring B).tail < s.cfg.capacity B) :
    (s.count B : Int) % s.cfg.capacity B = ((s.ring B).head - (s.ring B).tail : Int) % s.cfg.capacity B := by
  rw [s.count_cases B hh ht]
  split
  case isTrue le => rw [Int.natCast_sub le]
  case isFalse lt =>
    have wrapped : ((s.ring B).head + s.cfg.capacity B - (s.ring B).tail : Nat)
        = ((s.ring B).head - (s.ring B).tail : Int) + s.cfg.capacity B := by omega
    rw [wrapped, Int.add_emod_right]

/-- Settles O20: the count in range is the difference of the indices or that plus N. -/
theorem emptyAndFullByCount : Obligations.EmptyAndFullByCount := fun s B hh ht =>
  ⟨(s.count_eq_zero_iff B hh ht).symm, s.isFull_iff_count B hh ht, Nat.le_sub_one_of_lt (s.count_lt B),
    count_modEq s B hh ht⟩

/-! ### Refinement of a queue (R107, R108) -/

/-- A buffer that holds fewer than N - 1 bytes has room. -/
theorem not_full_of_count_lt (s : State) (B : BufId) (hok : s.ringOk B = true)
    (h : s.count B < s.cfg.capacity B - 1) : s.isFull B = false := by
  obtain ⟨hh, ht, -⟩ := (s.ringOk_iff B).mp hok
  rw [Bool.eq_false_iff, Ne, s.isFull_iff_count B hh ht]
  omega

/-- A buffer that holds a byte is not empty. -/
theorem not_empty_of_contents (s : State) (B : BufId) (hok : s.ringOk B = true) (b : Byte) (q : List Byte)
    (h : s.contents B = b :: q) : s.isEmpty B = false := by
  obtain ⟨hh, ht, -⟩ := (s.ringOk_iff B).mp hok
  rw [Bool.eq_false_iff, Ne, ← s.count_eq_zero_iff B hh ht, ← s.contents_eq_nil_iff, h]
  nofun

/-- Settles O23: by induction on the operations, each a Push or a Pop that the queue's preconditions allow. -/
theorem ringRefinesQueue : Obligations.RingRefinesQueue := by
  intro B ops
  induction ops with
  | nil =>
    intro s out left hok h
    cases h
    exact ⟨s, rfl, rfl, hok⟩
  | cons op ops ih =>
    intro s out left hok h
    cases op with
    | push v =>
      rw [runQueue] at h
      split at h
      case isFalse => cases h
      case isTrue room =>
        rw [s.contents_length] at room
        obtain ⟨t, ht, contents, tok, cfg⟩ := s.push_contents B v hok (not_full_of_count_lt s B hok room)
        rw [← contents, ← cfg] at h
        obtain ⟨u, hu⟩ := ih t out left tok h
        exact ⟨u, by rwa [runRing, ht]⟩
    | pop =>
      cases hq : s.contents B with
      | nil => rw [hq] at h; cases h
      | cons b q =>
        obtain ⟨c, t, ht, contents, tok, cfg⟩ := s.pop_contents B hok (not_empty_of_contents s B hok b q hq)
        obtain ⟨rfl, rfl⟩ := List.cons.inj (hq.symm.trans contents)
        rw [hq, runQueue, ← cfg] at h
        cases hr : runQueue (t.cfg.capacity B - 1) ops (t.contents B) with
        | none => rw [hr] at h; cases h
        | some r =>
          obtain ⟨bs, q'⟩ := r
          rw [hr] at h
          cases h
          obtain ⟨u, hu, rest⟩ := ih t bs _ tok hr
          exact ⟨u, by simp only [runRing, ht, hu], rest⟩

end Sys2Proof.Machine

/-! Steps of the machine by whose turn it is (60_exceptions.md section 1), what records a fault (section 5), and what
changes `gie` (10_state.md section 4). -/

namespace Sys2Proof.Machine

open Host

/-! ### One step, by turn -/

/-- Settles O14: `State.fetch` finds the operation in each of the three ways, and `State.settle` keeps the state before
where a fault is recorded. -/
theorem stepRunsTheDecodedInstruction : Obligations.StepRunsTheDecodedInstruction := by
  intro s hf
  refine ⟨fun t ts ht => ⟨s.nextTurn_listed t ts ht, s.takeTurn_listed t ts ht⟩,
    fun ht => ⟨by rw [State.nextTurn, ht], s.takeTurn_free ht⟩, fun i u v hrun hx => ?run, fun hn hp hw => ?pass⟩
  case run =>
    have fetched : s.fetch = .run i u := by
      rcases hrun with ⟨e, hn, rfl, rfl⟩ | ⟨hn, hc, rfl⟩ | ⟨w, ws, hn, hp, hw, hd, rfl⟩
      · exact fetch_event s e hn
      · exact fetch_busy s i hn hc
      · exact fetch_issue s w ws i hn hp hw hd
    exact ⟨step_run s u v i hf fetched hx, fun r => step_run_fault s u v i r hf fetched hx⟩
  case pass => simp only [step, hf, fetch_done s hn hp hw]

/-- Settles O15: the word's turn is listed first, and so is the word in the program. -/
theorem placedWordRunsNext : Obligations.PlacedWordRunsNext := by
  intro s v nbits w hf
  refine ⟨fun e he hx hv => ?event, fun i hi hx hv => ?command⟩
  case event =>
    rw [State.withFetchWord, State.placeWord, he]
    exact step_event_listed _ v e s.turns hx rfl hf hv
  case command =>
    rw [State.withFetchWord, State.placeWord]
    cases he : decodeEvent (tableWord nbits w) with
    | error _ => exact step_issue_listed _ v _ s.program i s.turns hx rfl hf rfl rfl hi hv
    | ok e =>
      rw [decodeEvent_ok _ e he] at hi
      exact absurd ((decode_event e).2.symm.trans hi) nofun

/-- Settles O16: each condition is the negation of the agent's enable condition. -/
theorem turnsNotEnabledPass : Obligations.TurnsNotEnabledPass := by
  intro s
  refine ⟨fun off => ?rxh, fun off => ?txh, fun b status off => ?line, execXmit_ready s⟩
  case rxh =>
    refine execRxh_disabled s (s.rxhEnabled_eq_false_iff.mpr ?_)
    by_contra! on
    simp only [ne_eq, Bool.not_eq_false] at on
    exact off on
  case txh => exact execTxh_disabled s (Bool.eq_false_iff.mpr fun on => off (s.txhEnabled_iff.mp on))
  case line => exact execLine_disabled b status s (Bool.eq_false_iff.mpr fun on => off (s.lineEnabled_iff.mp on))

/-- An event's operation leaves what FG owns and records no fault (R205 to R207). -/
theorem exec_event_frame (e : Event) (s t : State) (hx : exec e.instr s = .next t) :
    t.phase = s.phase ∧ t.program = s.program ∧ t.gie = s.gie ∧ t.results = s.results
      ∧ t.initialised = s.initialised ∧ t.fault = s.fault := by
  have frame := registerFrames _ s t hx
  cases e <;> (rw [frame]; exact ⟨rfl, rfl, rfl, rfl, rfl, rfl⟩)

/-- In an event's turn the step is the event's operation, since it records no fault. -/
theorem step_event (s t : State) (e : Event) (hf : s.fault = none) (hn : s.nextTurn = .event e)
    (hx : exec e.instr s.takeTurn = .next t) : step s = .next t := by
  obtain ⟨-, -, -, -, -, fault⟩ := exec_event_frame e _ t hx
  exact step_run s _ t _ hf (fetch_event s e hn) hx (by rw [fault, s.takeTurn_fault, hf])

/-- The operation that a step in an event's turn has run. -/
theorem exec_of_step_event (s t : State) (e : Event) (hn : s.nextTurn = .event e) (h : step s = .next t) :
    s.fault = none ∧ exec e.instr s.takeTurn = .next t := by
  obtain ⟨hf, -⟩ := step_cases s t h
  obtain ⟨u, hu⟩ := exec_next e.instr s.takeTurn
  cases (step_event s u e hf hn hu).symm.trans h
  exact ⟨hf, hu⟩

/-! ### Faults -/

/-- Settles O52: of the cases of a step only those that record a fault leave one recorded. -/
theorem faultsAreRecordedAndFinal : Obligations.FaultsAreRecordedAndFinal := by
  refine ⟨fun r => by cases r <;> decide, fun s t r h hr => ?recorded, fun s r n hr => ?final⟩
  case recorded =>
    obtain ⟨hf, ⟨_, _, rfl⟩ | ⟨_, rfl⟩ | ⟨_, _, _, _, unrecorded⟩ | ⟨_, _, _, _, _, _, _, rfl⟩⟩ := step_cases s t h
    · cases hr; rfl
    · rw [s.takeTurn_fault, hf] at hr; cases hr
    · rw [unrecorded] at hr; cases hr
    · cases hr; rfl
  case final => exact run_succ_fault n s r (step_faulted s r hr)

/-- Settles O51: INIT's word decodes to INIT, which records the fault at Idle with interrupts on. -/
theorem initWithInterruptsEnabledFaults : Obligations.InitWithInterruptsEnabledFaults := by
  intro s sel ws hf hn hp hw hg
  have decoded : decodeCommand (0x10000000 ||| sel.setWidth 32) = .ok (.init sel) := by
    rw [← encodeFields_init, decode_init]
  have recorded := execInit_gie sel (s.takeTurn.setProgram ws) (by simp [hp]) (by simp [hg])
  exact step_issue_fault s _ _ ws (.init sel) _ recorded rfl hf hn hp hw decoded

/-! ### Who writes what -/

/-- Only SEI and CLI change `gie`. -/
theorem exec_gie (i : Instr) (s t : State) (hsei : i ≠ .sei) (hcli : i ≠ .cli) (hx : exec i s = .next t) :
    t.gie = s.gie := by
  cases i with
  | sei => exact absurd rfl hsei
  | cli => exact absurd rfl hcli
  | init | read | write | writes | rxh | txh | line | xmit => exact (congrArg State.gie (registerFrames _ s t hx) :)

/-- SEI and CLI are never in progress: they run when FG issues their word at Idle. -/
theorem issue_of_run_gie (s u : State) (i : Instr) (hi : i = .sei ∨ i = .cli) (h : s.fetch = .run i u) :
    s.nextTurn = .fg ∧ s.phase = .idle ∧ ∃ w ws, s.program = w :: ws ∧ decodeCommand w = .ok i := by
  obtain ⟨turn, hc | issue⟩ := fg_of_run_command s u i (by rintro e rfl; cases e <;> simp [Event.instr] at hi) h
  · rcases command?_cases _ _ hc with rfl | ⟨_, rfl⟩ <;> simp at hi
  · exact ⟨turn, issue⟩

theorem gie_of_execSei (s t : State) (hx : execSei s = .next t) (hp : s.phase = .idle) : t.gie = true := by
  cases (execSei_idle s hp).symm.trans hx
  rfl

theorem gie_of_execCli (s t : State) (hx : execCli s = .next t) (hp : s.phase = .idle) : t.gie = false := by
  cases (execCli_idle s hp).symm.trans hx
  rfl

/-- Settles O45: only SEI and CLI change `gie`, and each runs when its one word is issued. -/
theorem gieChangesOnlyBySeiAndCli : Obligations.GieChangesOnlyBySeiAndCli := by
  intro s t h changed
  rcases step_effect s t h with ⟨r, rfl⟩ | rfl | ⟨i, u, hu, hx⟩
  · exact absurd rfl changed
  · exact absurd s.takeTurn_gie changed
  obtain ⟨_, _, _, rfl⟩ := fetch_run_state s u i hu
  by_cases hi : i = .sei ∨ i = .cli
  case neg =>
    rw [not_or] at hi
    exact absurd (exec_gie i _ t hi.1 hi.2 hx :) changed
  obtain ⟨turn, idle, w, ws, program, word⟩ := issue_of_run_gie s _ i hi hu
  refine ⟨turn, idle, ws, ?_⟩
  rw [program]
  rcases hi with rfl | rfl
  · rw [gie_of_execSei _ t hx idle]
    cases encode_of_decodeCommand w _ word
    rfl
  · rw [gie_of_execCli _ t hx idle]
    cases encode_of_decodeCommand w _ word
    rfl

end Sys2Proof.Machine

/-! Whole-machine rules: ownership of the buffer fields (10_state.md section 1), handlers (60_exceptions.md sections 2
and 3), independence of the two paths (00_scope.md section 1), the frame of the storage (20_memory.md section 1) and
ended runs (60_exceptions.md section 7). -/

namespace Sys2Proof.Machine

open Host

/-! ### Ownership of the buffer fields -/

/-- Only an enabled RXH writes the receive head or the receive storage. -/
theorem exec_rx_produced (i : Instr) (s t : State) (hx : exec i s = .next t) :
    (t.rx.head = s.rx.head ∧ t.rx.storage = s.rx.storage) ∨ (i = .rxh ∧ s.rxhEnabled = true) := by
  cases i with
  | rxh =>
    rcases execRxh_cases s with ⟨_, hs⟩ | ⟨_, _, on, _, _, _⟩ | ⟨_, _, on, _, _, _⟩
    · cases hs.symm.trans hx
      exact .inl ⟨rfl, rfl⟩
    · exact .inr ⟨rfl, on⟩
    · exact .inr ⟨rfl, on⟩
  | init | read | write | sei | cli | writes | txh | line | xmit =>
    have frame := registerFrames _ s t hx
    exact .inl ⟨(congrArg (fun u => u.rx.head) frame :), (congrArg (fun u => u.rx.storage) frame :)⟩

/-- Only WRITE writes the transmit head, in W3, and the transmit storage, in W2. -/
theorem exec_tx_produced (i : Instr) (s t : State) (hx : exec i s = .next t) :
    (t.tx.head = s.tx.head ∨ ∃ b c n, i = .write b ∧ s.phase = .w3 c n)
    ∧ (t.tx.storage = s.tx.storage ∨ ∃ b c n, i = .write b ∧ s.phase = .w2 c n) := by
  cases i with
  | write b =>
    rcases execWrite_tx b s t hx with same | ⟨c, n, hp, -, tx⟩ | ⟨c, n, hp, tx⟩
    · exact ⟨.inl (by rw [same]), .inl (by rw [same])⟩
    · exact ⟨.inl (by rw [tx]), .inr ⟨b, c, n, rfl, hp⟩⟩
    · exact ⟨.inr ⟨b, c, n, rfl, hp⟩, .inl (by rw [tx])⟩
  | init | read | sei | cli | writes | rxh | txh | line | xmit =>
    have frame := registerFrames _ s t hx
    exact ⟨.inl (congrArg (fun u => u.tx.head) frame :), .inl (congrArg (fun u => u.tx.storage) frame :)⟩

/-- Only READ, in R2, and INIT write the receive tail. -/
theorem exec_rx_consumed (i : Instr) (s t : State) (hx : exec i s = .next t) :
    t.rx.tail = s.rx.tail ∨ (i = .read ∧ s.phase = .r2) ∨ ∃ sel, i = .init sel ∧ s.gie = false := by
  cases i with
  | init sel =>
    rcases execInit_rings sel s t hx with ⟨same, -⟩ | ⟨off, -, -⟩
    · exact .inl (by rw [same])
    · exact .inr (.inr ⟨sel, rfl, off⟩)
  | read =>
    rcases execRead_rx s t hx with same | ⟨hp, -, -⟩
    · exact .inl (by rw [same])
    · exact .inr (.inl ⟨rfl, hp⟩)
  | write | sei | cli | writes | rxh | txh | line | xmit =>
    exact .inl (congrArg (fun u => u.rx.tail) (registerFrames _ s t hx) :)

/-- Only an enabled TXH and INIT write the transmit tail. -/
theorem exec_tx_consumed (i : Instr) (s t : State) (hx : exec i s = .next t) :
    t.tx.tail = s.tx.tail ∨ (i = .txh ∧ s.txhEnabled = true) ∨ ∃ sel, i = .init sel ∧ s.gie = false := by
  cases i with
  | init sel =>
    rcases execInit_rings sel s t hx with ⟨-, same⟩ | ⟨off, -, -⟩
    · exact .inl (by rw [same])
    · exact .inr (.inr ⟨sel, rfl, off⟩)
  | txh =>
    rcases execTxh_cases s with ⟨_, hs⟩ | ⟨on, _, _⟩ | ⟨on, _, _⟩
    · cases hs.symm.trans hx; exact .inl rfl
    · exact .inr (.inl ⟨rfl, on⟩)
    · exact .inr (.inl ⟨rfl, on⟩)
  | read | write | sei | cli | writes | rxh | line | xmit =>
    exact .inl (congrArg (fun u => u.tx.tail) (registerFrames _ s t hx) :)

/-- INIT's word is the encoder's. -/
theorem issue_word_of_run_init (s u : State) (sel : Half) (h : s.fetch = .run (.init sel) u) :
    s.nextTurn = .fg ∧ s.phase = .idle ∧ ∃ ws, s.program = encodeFields 0x1 sel :: ws := by
  obtain ⟨turn, idle, w, ws, program, word⟩ := issue_of_run_init s u sel h
  cases encode_of_decodeCommand w _ word
  exact ⟨turn, idle, ws, program⟩

/-- Settles O54: a field that a step changed was written by the operation it ran, which is its owner's. -/
theorem onlyOwnersWriteTheBuffers : Obligations.OnlyOwnersWriteTheBuffers := by
  intro s t h
  rcases step_effect s t h with ⟨r, rfl⟩ | rfl | ⟨i, u, hu, hx⟩
  · simp
  · simp
  obtain ⟨_, _, _, rfl⟩ := fetch_run_state s u i hu
  refine ⟨fun changed => ?rxProduced, fun changed => ?txHead, fun changed => ?txStorage, fun changed => ?rxTail,
    fun changed => ?txTail⟩
  case rxProduced =>
    obtain ⟨rfl, on⟩ := (exec_rx_produced i _ t hx).resolve_left fun same =>
      changed.elim (absurd same.1) (absurd same.2)
    exact ⟨nextTurn_of_run_event s _ .rxh hu, on⟩
  case txHead =>
    obtain ⟨b, c, n, rfl, hp⟩ := (exec_tx_produced i _ t hx).1.resolve_left changed
    exact ⟨fg_of_run_write s _ b hu, c, n, hp⟩
  case txStorage =>
    obtain ⟨b, c, n, rfl, hp⟩ := (exec_tx_produced i _ t hx).2.resolve_left changed
    exact ⟨fg_of_run_write s _ b hu, c, n, hp⟩
  case rxTail =>
    rcases (exec_rx_consumed i _ t hx).resolve_left changed with ⟨rfl, hp⟩ | ⟨sel, rfl, off⟩
    · exact ⟨fg_of_run_read s _ hu, .inl hp⟩
    · obtain ⟨turn, idle, ws, program⟩ := issue_word_of_run_init s _ sel hu
      exact ⟨turn, .inr ⟨idle, off, sel, ws, program⟩⟩
  case txTail =>
    rcases (exec_tx_consumed i _ t hx).resolve_left changed with ⟨rfl, on⟩ | ⟨sel, rfl, off⟩
    · exact .inl ⟨nextTurn_of_run_event s _ .txh hu, on⟩
    · obtain ⟨turn, idle, ws, program⟩ := issue_word_of_run_init s _ sel hu
      exact .inr ⟨turn, idle, off, sel, ws, program⟩

/-! ### Handlers and the two paths -/

/-- Settles O55: the handler's operation leaves what FG owns, and so does taking its turn. -/
theorem handlersLeaveTheForeground : Obligations.HandlersLeaveTheForeground := by
  intro s t turn h
  obtain ⟨e, hn⟩ : ∃ e, s.nextTurn = .event e := turn.elim (⟨_, ·⟩) (⟨_, ·⟩)
  obtain ⟨hf, hx⟩ := exec_of_step_event s t e hn h
  obtain ⟨phase, program, gie, results, initialised, fault⟩ := exec_event_frame e _ t hx
  rw [s.takeTurn_phase] at phase
  exact ⟨phase, by rw [phase], program.trans s.takeTurn_program, gie.trans s.takeTurn_gie,
    results.trans s.takeTurn_results, initialised.trans s.takeTurn_initialised,
    (fault.trans s.takeTurn_fault).trans hf⟩

/-- The state with the receive side's fields replaced. -/
def State.withReceive (r : Ring) (e : Byte) (h : Option (Byte × Byte)) (en ie : Bool) (s : State) : State :=
  { s with rx := r, lastError := e, rxHold := h, rxen := en, rxie := ie }

/-- The state with the transmit side's fields replaced. -/
def State.withTransmit (r : Ring) (en ie rd : Bool) (out : List Byte) (s : State) : State :=
  { s with tx := r, txen := en, txie := ie, txReady := rd, lineOut := out }

theorem execTxh_withReceive (r : Ring) (e : Byte) (h : Option (Byte × Byte)) (en ie : Bool) (s : State) :
    execTxh (s.withReceive r e h en ie) = mapNext (State.withReceive r e h en ie) (execTxh s) := by
  rcases execTxh_cases s with ⟨he, hs⟩ | ⟨he, hm, hs⟩ | ⟨he, hm, hs⟩ <;> rw [hs]
  · exact execTxh_disabled _ he
  · exact execTxh_empty _ he hm
  · exact execTxh_nonempty _ he hm

theorem execXmit_withReceive (r : Ring) (e : Byte) (h : Option (Byte × Byte)) (en ie : Bool) (s : State) :
    execXmit (s.withReceive r e h en ie) = mapNext (State.withReceive r e h en ie) (execXmit s) := by
  rcases execXmit_cases s with ⟨ready, hs⟩ | ⟨busy, hs⟩ <;> rw [hs]
  · exact execXmit_ready _ ready
  · exact execXmit_busy _ busy

theorem execRxh_withTransmit (r : Ring) (en ie rd : Bool) (out : List Byte) (s : State) :
    execRxh (s.withTransmit r en ie rd out) = mapNext (State.withTransmit r en ie rd out) (execRxh s) := by
  rcases execRxh_cases s with ⟨he, hs⟩ | ⟨b, status, he, hh, hf, hs⟩ | ⟨b, status, he, hh, hf, hs⟩ <;> rw [hs]
  · exact execRxh_disabled _ he
  · exact execRxh_full _ b status he hh hf
  · exact execRxh_room _ b status he hh hf

theorem execLine_withTransmit (b status : Byte) (r : Ring) (en ie rd : Bool) (out : List Byte) (s : State) :
    execLine b status (s.withTransmit r en ie rd out)
      = mapNext (State.withTransmit r en ie rd out) (execLine b status s) := by
  rcases execLine_cases b status s with ⟨he, hs⟩ | ⟨he, hs⟩ <;> rw [hs]
  · exact execLine_disabled b status _ he
  · exact execLine_enabled b status _ he

/-- Settles O57: each operation of one path carries the other side's fields along unread. -/
theorem pathsAreIndependent : Obligations.PathsAreIndependent := by
  refine ⟨fun s i r e h en ie hi => ?transmit, fun s i r en ie rd out hi => ?receive⟩
  case transmit =>
    rcases hi with rfl | rfl
    · exact execTxh_withReceive r e h en ie s
    · exact execXmit_withReceive r e h en ie s
  case receive =>
    rcases hi with rfl | ⟨b, status, rfl⟩
    · exact execRxh_withTransmit r en ie rd out s
    · exact execLine_withTransmit b status r en ie rd out s

/-- Settles O56: RXH replaces fields of the receive side, TXH fields of the transmit side, and each carries the other's
along. -/
theorem handlersCommute : Obligations.HandlersCommute := by
  intro s
  obtain ⟨a, ha⟩ := exec_next .rxh s
  obtain ⟨c, hc⟩ := exec_next .txh s
  obtain ⟨r, e, h, rfl⟩ : ∃ r e h, a = s.withReceive r e h s.rxen s.rxie := ⟨_, _, _, registerFrames .rxh s a ha⟩
  obtain ⟨r', ie, rd, out, rfl⟩ : ∃ r' ie rd out, c = s.withTransmit r' s.txen ie rd out :=
    ⟨_, _, _, _, registerFrames .txh s c hc⟩
  refine ⟨_, _, _, ha, (execTxh_withReceive ..).trans (congrArg (mapNext _) hc), hc, ?_⟩
  exact (execRxh_withTransmit ..).trans (congrArg (mapNext _) ha)

/-! ### The frame of the storage -/

theorem slot_congr (s t : State) (B : BufId) (a : Nat) (hrx : t.rx.storage = s.rx.storage)
    (htx : t.tx.storage = s.tx.storage) : t.slot B a = s.slot B a := by
  cases B <;> simp only [State.slot, State.ring_rx, State.ring_tx, hrx, htx]

/-- RXH stores the held byte after the receive head, when it runs and finds room. -/
theorem execRxh_slot (s t : State) (b status : Byte) (B : BufId) (a : Nat) (hold : s.rxHold = some (b, status))
    (hx : execRxh s = .next t) : t.slot B a =
      if s.rxhEnabled = true ∧ s.isFull .rx = false ∧ B = .rx ∧ a = s.nextHead .rx then b else s.slot B a := by
  rcases execRxh_cases s with ⟨off, hs⟩ | ⟨_, _, _, _, full, hs⟩ | ⟨b', status', on, hold', room, hs⟩ <;>
    cases hs.symm.trans hx
  · exact (if_neg (by simp [off])).symm
  · exact (if_neg (by simp [full])).symm
  · cases hold.symm.trans hold'
    simp only [on, room, true_and]
    rw [← s.slot_setRing_set .rx B (s.nextHead .rx) a b]
    exact slot_congr _ _ B a rfl rfl

/-- WRITE stores the byte its phase W2 carries, at the index that it carries. -/
theorem execWrite_slot_w2 (c b : Byte) (n : Nat) (s t : State) (B : BufId) (a : Nat) (hp : s.phase = .w2 b n)
    (hx : execWrite c s = .next t) :
    t.slot B a = if n < s.cfg.nTx ∧ B = .tx ∧ a = n then b else s.slot B a := by
  rcases Nat.lt_or_ge n s.cfg.nTx with inside | outside
  · cases (execWrite_store c b s n hp inside).symm.trans hx
    simp only [inside, true_and]
    rw [← s.slot_setRing_set .tx B n a b]
    exact slot_congr _ _ B a rfl rfl
  · cases (execWrite_store_outside c b s n hp outside).symm.trans hx
    exact (if_neg (by omega)).symm

/-- In its other phases WRITE stores nothing. -/
theorem execWrite_slot_other (c : Byte) (s t : State) (B : BufId) (a : Nat) (hp : ∀ b n, s.phase ≠ .w2 b n)
    (hx : execWrite c s = .next t) : t.slot B a = s.slot B a := by
  refine slot_congr s t B a (by rw [exec_rx (.write c) s t nofun nofun nofun hx]) ?_
  refine (exec_tx_produced (.write c) s t hx).2.resolve_right ?_
  rintro ⟨_, b, n, _, hw⟩
  exact hp b n hw

/-- Settles O59: the stores of RXH and of WRITE's W2, and no other operation writes a storage. -/
theorem storageFrames : Obligations.StorageFrames := by
  intro i s t hx B a
  cases i with
  | rxh =>
    cases hold : s.rxHold with
    | none =>
      cases (execRxh_none s hold).symm.trans hx
      rfl
    | some h => exact execRxh_slot s t h.1 h.2 B a hold hx
  | write c =>
    cases hp : s.phase with
    | w2 b n => exact execWrite_slot_w2 c b n s t B a hp hx
    | idle | r1 | r2 | r3 | w1 | w3 | w4 => exact execWrite_slot_other c s t B a (by rw [hp]; nofun) hx
  | init | read | sei | cli | writes | txh | line | xmit =>
    have frame := registerFrames _ s t hx
    exact slot_congr s t B a (congrArg (fun u => u.rx.storage) frame :) (congrArg (fun u => u.tx.storage) frame :)

/-! ### Ended runs -/

/-- The conditions of R226. -/
theorem State.ended_iff (s : State) : s.ended = true ↔ s.fault = none ∧ s.phase = .idle ∧ s.program = []
    ∧ s.rxhEnabled = false ∧ s.txhEnabled = false ∧ s.txReady = true := by
  simp [ended, fgEnabled, xmitEnabled, and_assoc]

/-- Settles O60: FG passes with nothing to issue, and an event that is not enabled leaves the state. -/
theorem endedRunsStandStill : Obligations.EndedRunsStandStill := by
  intro s t ended noLine h
  obtain ⟨hf, idle, program, rxhOff, txhOff, ready⟩ := s.ended_iff.mp ended
  cases hn : s.nextTurn with
  | fg =>
    have passes : step s = .next s.takeTurn := by simp only [step, hf, fetch_done s hn idle program]
    exact Outcome.next.inj (h.symm.trans passes)
  | event e =>
    obtain ⟨-, hx⟩ := exec_of_step_event s t e hn h
    refine Outcome.next.inj (hx.symm.trans ?_)
    cases e with
    | rxh => exact execRxh_disabled _ (s.takeTurn_rxhEnabled.trans rxhOff)
    | txh => exact execTxh_disabled _ (by simpa [State.txhEnabled] using txhOff)
    | line b status => exact absurd hn (noLine b status)
    | xmit => exact execXmit_ready _ (s.takeTurn_txReady.trans ready)

end Sys2Proof.Machine

/-! Commands run to their end (43_foreground_api.md sections 1 to 3, 44_initialisation.md, 41_receive_path.md
section 2): READ, WRITE, WRITES and INIT that are not preempted, and deliveries handled at once. -/

namespace Sys2Proof.Machine

open Host

/-- A run is its first step, then the rest. -/
theorem run_of_step {n : Nat} {s t : State} {o : Outcome State Fault Refusal} (h : step s = .next t)
    (rest : Core.run Sys2Proof.core n t = o) : Core.run Sys2Proof.core (n + 1) s = o :=
  (run_succ n s t h).trans rest

/-! ### READ and WRITE, a step for each of FG's listed turns -/

section steps

variable (s : State) (ts : List Turn) (ht : s.turns = .fg :: ts) (hf : s.fault = none)
include ht hf

theorem step_read_nonempty (hp : s.phase = .r1) (he : s.isEmpty .rx = false) :
    step s = .next { s with turns := ts, phase := .r2 } :=
  step_busy_listed s _ .read ts (execRead_nonempty { s with turns := ts } hp he) ht hf (by rw [hp]; rfl) hf

theorem step_read_consume (hp : s.phase = .r2) : step s = .next { s with
    turns := ts, rx := { s.rx with tail := s.nextTail .rx },
    phase := .r3 (s.slot .rx (s.nextTail .rx)) (s.nextTail .rx) } :=
  step_busy_listed s _ .read ts (execRead_consume { s with turns := ts } hp) ht hf (by rw [hp]; rfl) hf

theorem step_read_sample (b : Byte) (n : Nat) (hp : s.phase = .r3 b n) : step s = .next { s with
    turns := ts, results := s.results ++ [resultWord s.lastError b], phase := .idle } :=
  step_busy_listed s _ .read ts (execRead_sample { s with turns := ts } b n hp) ht hf (by rw [hp]; rfl) hf

theorem step_write_issue (b : Byte) (ws : List Word) (hp : s.phase = .idle) (hi : s.initialised = true)
    (hw : s.program = encodeWrite b :: ws) : step s = .next { s with turns := ts, program := ws, phase := .w1 b } :=
  step_issue_listed s _ _ ws (.write b) ts (execWrite_issue b { s with turns := ts, program := ws } hp hi) ht hf hp hw
    (decode_write b) hf

variable (b : Byte) (n : Nat)

theorem step_write_room (hp : s.phase = .w1 b) (room : s.isFull .tx = false) :
    step s = .next { s with turns := ts, phase := .w2 b (s.nextHead .tx) } :=
  step_busy_listed s _ (.write b) ts (execWrite_room b b { s with turns := ts } hp room) ht hf (by rw [hp]; rfl) hf

theorem step_write_store (hp : s.phase = .w2 b n) (inside : n < s.cfg.nTx) : step s = .next { s with
    turns := ts, tx := { s.tx with storage := Memory.set s.tx.storage n b }, phase := .w3 b n } :=
  step_busy_listed s _ (.write b) ts (execWrite_store b b { s with turns := ts } n hp inside) ht hf (by rw [hp]; rfl) hf

theorem step_write_publish (hp : s.phase = .w3 b n) : step s = .next { s with
    turns := ts, tx := { s.tx with head := n }, phase := .w4 b n } :=
  step_busy_listed s _ (.write b) ts (execWrite_publish b b { s with turns := ts } n hp) ht hf (by rw [hp]; rfl) hf

theorem step_write_return (hp : s.phase = .w4 b n) :
    step s = .next { s with turns := ts, txie := true, phase := .idle } :=
  step_busy_listed s _ (.write b) ts (execWrite_return b b { s with turns := ts } n hp) ht hf (by rw [hp]; rfl) hf

end steps

/-! In the runs below each state is known only from the step before it, so facts about the first state are handed on by
`by exact`, which waits until that state is known. -/

/-- Settles O33: issue, R1, R2 and R3, one turn each. -/
theorem readReturnsTheOldestByte : Obligations.ReadReturnsTheOldestByte := by
  intro s ws ts hf hp hi holds hw ht
  have holds := (s.isEmpty_false_iff .rx).mpr holds
  refine run_of_step (step_read_issue s ws _ ht hf hp hi hw) ?_
  refine run_of_step (step_read_nonempty _ _ rfl (by exact hf) rfl (by exact holds)) ?_
  refine run_of_step (step_read_consume _ _ rfl (by exact hf) rfl) ?_
  refine run_of_step (step_read_sample _ _ rfl (by exact hf) _ _ rfl) ?_
  rw [← hp]
  rfl

/-- An unpreempted WRITE with room is one Push, with `txie` enabled after it. -/
theorem run_write (s : State) (b : Byte) (ws : List Word) (ts : List Turn) (hf : s.fault = none) (hp : s.phase = .idle)
    (hi : s.initialised = true) (room : s.isFull .tx = false) (hw : s.program = encodeWrite b :: ws)
    (ht : s.turns = fgTurns 5 ++ ts) : Core.run Sys2Proof.core 5 s = .next { s with
      tx := (s.pushed .tx b).tx, txie := true, program := ws, turns := ts } := by
  refine run_of_step (step_write_issue s _ ht hf b ws hp hi hw) ?_
  refine run_of_step (step_write_room _ _ rfl (by exact hf) b rfl (by exact room)) ?_
  refine run_of_step (step_write_store _ _ rfl (by exact hf) b _ rfl (s.nextHead_lt .tx)) ?_
  refine run_of_step (step_write_publish _ _ rfl (by exact hf) b _ rfl) ?_
  refine run_of_step (step_write_return _ _ rfl (by exact hf) b _ rfl) ?_
  rw [← hp]
  rfl

/-- Settles O37: IS_FULL compares the slot after the head with the tail (R105). -/
theorem writeStoresPublishesEnables : Obligations.WriteStoresPublishesEnables := by
  intro s b ws ts hf hp hi room hw ht
  rw [← encodeWrite_eq_or] at hw
  exact run_write s b ws ts hf hp hi ((s.isFull_false_iff .tx).mpr room) hw ht

/-! ### WRITES (R86, R175) -/

/-- Settles O38: at Idle WRITES puts the encoder's WRITE words before the program. -/
theorem writesExpandsToWrites : Obligations.WritesExpandsToWrites := by
  intro s text hp
  have words : (fun b : Byte => (0x30000000 ||| b.setWidth 32 : Word)) = encodeWrite :=
    funext fun b => (encodeWrite_eq_or b).symm
  rw [words]
  exact State.whenIdle_idle s _ hp

/-- FG's turns for one more WRITE. -/
theorem fgTurns_mul_succ (n : Nat) (ts : List Turn) :
    fgTurns (5 * (n + 1)) ++ ts = fgTurns 5 ++ (fgTurns (5 * n) ++ ts) := by
  rw [← List.append_assoc, fgTurns, fgTurns, fgTurns, List.replicate_append_replicate, Nat.mul_succ, Nat.add_comm]

/-- WRITEs with room for all their bytes leave them after those already waiting. -/
theorem run_writes (bs : List Byte) (s : State) (ws : List Word) (ts : List Turn) (hf : s.fault = none)
    (hp : s.phase = .idle) (hi : s.initialised = true) (hok : s.ringOk .tx = true)
    (room : s.count .tx + bs.length ≤ s.cfg.nTx - 1) (hw : s.program = bs.map encodeWrite ++ ws)
    (ht : s.turns = fgTurns (5 * bs.length) ++ ts) : ∃ t, Core.run Sys2Proof.core (5 * bs.length) s = .next t
      ∧ t.contents .tx = s.contents .tx ++ bs
      ∧ t = { s with tx := { t.tx with tail := s.tx.tail }, txie := s.txie || !bs.isEmpty, program := ws,
                     turns := ts } := by
  induction bs generalizing s with
  | nil =>
    refine ⟨s, rfl, (List.append_nil _).symm, ?_⟩
    rw [List.map_nil, List.nil_append] at hw
    rw [List.isEmpty_nil, Bool.not_true, Bool.or_false, ← hw, show ts = s.turns from ht.symm]
  | cons b bs ih =>
    rw [List.length_cons] at room ht
    have free := not_full_of_count_lt s .tx hok (Nat.lt_of_lt_of_le (Nat.lt_add_of_pos_right (Nat.succ_pos _)) room)
    obtain ⟨contents, ok⟩ := s.pushed_contents .tx b hok free
    have written := run_write s b (bs.map encodeWrite ++ ws) _ hf hp hi free hw
      (ht.trans (fgTurns_mul_succ bs.length ts))
    set u : State := { s with
      tx := (s.pushed .tx b).tx, txie := true, program := bs.map encodeWrite ++ ws,
      turns := fgTurns (5 * bs.length) ++ ts }
    have contents_u : u.contents .tx = s.contents .tx ++ [b] := contents
    have count_u : u.count .tx = s.count .tx + 1 := by
      rw [← u.contents_length, contents_u, List.length_append, s.contents_length, List.length_singleton]
    obtain ⟨t, hrun, stream, frame⟩ := ih u hf hp hi ok (by rw [count_u, Nat.add_right_comm]; exact room) rfl rfl
    refine ⟨t, ?_, ?_, ?_⟩
    · rw [List.length_cons, Nat.mul_succ, Nat.add_comm, run_add 5 _ s u written, hrun]
    · rw [stream, contents_u, List.append_assoc, List.singleton_append]
    · have enabled : (s.txie || !(b :: bs).isEmpty) = true := Bool.or_true s.txie
      rw [enabled]
      exact frame

/-- Settles O39: WRITES puts the WRITE words first, and they run with nothing of the program used up after them. -/
theorem writesQueuesTheText : Obligations.WritesQueuesTheText := by
  intro s text ts hf hp hi hok room ht
  have issued : exec (.writes text) s = .next (s.setProgram ((textBytes text).map encodeWrite ++ s.program)) :=
    State.whenIdle_idle s _ hp
  obtain ⟨t, hrun, stream, frame⟩ := run_writes (textBytes text)
    (s.setProgram ((textBytes text).map encodeWrite ++ s.program)) s.program ts hf hp hi hok room rfl ht
  exact ⟨_, t, issued, hrun, stream, frame⟩

/-! ### INIT twice (source example E8) -/

/-- FG's listed turn at Idle issues INIT. -/
theorem step_init (s : State) (sel : Half) (ws : List Word) (ts : List Turn) (ht : s.turns = .fg :: ts)
    (hf : s.fault = none) (hp : s.phase = .idle) (hg : s.gie = false)
    (hw : s.program = (0x10000000 ||| sel.setWidth 32) :: ws) :
    step s = .next (initBody sel { s with turns := ts, program := ws }) := by
  rw [← encodeFields_init] at hw
  exact step_issue_listed s _ _ ws (.init sel) ts (execInit_ok sel { s with turns := ts, program := ws } hp hg) ht hf hp
    hw (decode_init sel) hf

/-- INIT leaves nothing in either buffer. -/
theorem contents_initBody (s : State) (sel : Half) (hrx : s.ringOk .rx = true) (htx : s.ringOk .tx = true) :
    (initBody sel s).contents .rx = [] ∧ (initBody sel s).contents .tx = [] :=
  ⟨s.contents_bufInit .rx ((s.ringOk_iff .rx).mp hrx).1, s.contents_bufInit .tx ((s.ringOk_iff .tx).mp htx).1⟩

/-- INIT keeps the indices and the storage of both buffers in range. -/
theorem ringOk_initBody (s : State) (sel : Half) (hrx : s.ringOk .rx = true) (htx : s.ringOk .tx = true) :
    (initBody sel s).ringOk .rx = true ∧ (initBody sel s).ringOk .tx = true :=
  ⟨s.ringOk_setTail .rx hrx _ ((s.ringOk_iff .rx).mp hrx).1, s.ringOk_setTail .tx htx _ ((s.ringOk_iff .tx).mp htx).1⟩

/-- Settles O48: the second INIT moves each tail to the head it is at already. -/
theorem initTwiceIsIdempotent : Obligations.InitTwiceIsIdempotent := by
  intro s sel₁ sel₂ ws ts hf hp hg hrx htx hw ht
  have init₁ := step_init s sel₁ _ _ ht hf hp hg hw
  set t := initBody sel₁ { s with turns := .fg :: ts, program := (0x10000000 ||| sel₂.setWidth 32) :: ws }
  have init₂ := step_init t sel₂ ws ts rfl hf hp hg rfl
  obtain ⟨rxOk, txOk⟩ := ringOk_initBody { s with turns := .fg :: ts, program := _ } sel₁ hrx htx
  obtain ⟨rx₁, tx₁⟩ := contents_initBody { s with turns := .fg :: ts, program := _ } sel₁ hrx htx
  obtain ⟨rx₂, tx₂⟩ := contents_initBody { t with turns := ts, program := ws } sel₂ rxOk txOk
  refine ⟨t, _, run_of_step init₁ rfl, run_of_step init₁ (run_of_step init₂ rfl), rx₁, tx₁, rx₂, tx₂, ?_⟩
  rw [initBody_eq, selBaudDiv_eq_setWidth]
  rfl

/-! ### Deliveries handled at once (R129) -/

/-- Nothing keeps a delivered byte from RXH: the receive path is on, and no byte is held. -/
def State.receiving (s : State) : Prop :=
  s.fault = none ∧ s.rxen = true ∧ s.rxie = true ∧ s.gie = true ∧ s.rxHold = none

/-- LINE puts the byte into the holding slot, and RXH takes it from there. -/
theorem run_delivery (s t : State) (b status : Byte) (ts : List Turn) (h : s.receiving)
    (ht : s.turns = .event (.line b status) :: .event .rxh :: ts)
    (hx : execRxh { s with turns := ts, rxHold := some (b, status) } = .next t) :
    Core.run Sys2Proof.core 2 s = .next t := by
  obtain ⟨hf, hen, -, -, hh⟩ := h
  obtain ⟨-, -, -, -, -, fault⟩ := exec_event_frame .rxh { s with turns := ts, rxHold := some (b, status) } t hx
  have line := step_event_listed s _ (.line b status) _
    (execLine_enabled b status { s with turns := .event .rxh :: ts } (s.lineEnabled_iff.mpr ⟨hen, hh⟩)) ht hf hf
  exact run_of_step line (run_of_step (step_event_listed _ t .rxh ts hx rfl hf (fault.trans hf)) rfl)

/-- With room the byte is pushed and its error bits are accumulated. -/
theorem run_delivery_room (s : State) (b status : Byte) (ts : List Turn) (h : s.receiving)
    (room : s.isFull .rx = false) (ht : s.turns = .event (.line b status) :: .event .rxh :: ts) :
    Core.run Sys2Proof.core 2 s = .next { s with
      rx := storedRx s b, lastError := s.lastError ||| lastErrorCandidate status, turns := ts } := by
  refine run_delivery s _ b status ts h ht ?_
  obtain ⟨-, -, hie, hg, hh⟩ := h
  rw [execRxh_room { s with turns := ts, rxHold := some (b, status) } b status
    (State.rxhEnabled_of_hold _ _ hg hie rfl) rfl room, ← hh]
  rfl

/-- Without room the byte is dropped, and the overflow bit is accumulated too. -/
theorem run_delivery_full (s : State) (b status : Byte) (ts : List Turn) (h : s.receiving)
    (full : s.isFull .rx = true) (ht : s.turns = .event (.line b status) :: .event .rxh :: ts) :
    Core.run Sys2Proof.core 2 s = .next { s with
      lastError := s.lastError ||| overflowCandidate status, turns := ts } := by
  refine run_delivery s _ b status ts h ht ?_
  obtain ⟨-, -, hie, hg, hh⟩ := h
  rw [execRxh_full { s with turns := ts, rxHold := some (b, status) } b status
    (State.rxhEnabled_of_hold _ _ hg hie rfl) rfl full, ← hh]

/-- The accumulator after deliveries `ds` with room for the first `room` of them. -/
def accumulated (room : Nat) (ds : List (Byte × Byte)) (e : Byte) : Byte :=
  ((ds.drop room).map fun d => (d.2 &&& 0x1C) ||| 0x02).foldl (· ||| ·)
    (((ds.take room).map fun d => d.2 &&& 0x1C).foldl (· ||| ·) e)

/-- Deliveries fill the room that is left, in order, and drop the rest. -/
theorem run_deliveries (ds : List (Byte × Byte)) (s : State) (ts : List Turn) (h : s.receiving)
    (hok : s.ringOk .rx = true) (ht : s.turns = deliveries ds ++ ts) :
    ∃ t, Core.run Sys2Proof.core (2 * ds.length) s = .next t
      ∧ t.contents .rx = s.contents .rx ++ (ds.map Prod.fst).take (s.cfg.nRx - 1 - s.count .rx)
      ∧ t.lastError = accumulated (s.cfg.nRx - 1 - s.count .rx) ds s.lastError
      ∧ t = { s with rx := { t.rx with tail := s.rx.tail }, lastError := t.lastError, turns := ts } := by
  induction ds generalizing s with
  | nil => exact ⟨s, rfl, by simp, by simp [accumulated], by rw [show ts = s.turns from ht.symm]⟩
  | cons d ds ih =>
    obtain ⟨b, status⟩ := d
    obtain ⟨hh, htl, -⟩ := (s.ringOk_iff .rx).mp hok
    cases hroom : s.cfg.nRx - 1 - s.count .rx with
    | zero =>
      have bound := s.count_lt .rx
      have full : s.isFull .rx = true := by
        rw [s.isFull_iff_count .rx hh htl]
        exact Nat.le_antisymm (Nat.le_sub_one_of_lt bound) (Nat.sub_eq_zero_iff_le.mp hroom)
      have dropped := run_delivery_full s b status _ h full ht
      set u : State := { s with lastError := s.lastError ||| overflowCandidate status, turns := deliveries ds ++ ts }
      obtain ⟨t, hrun, contents, error, frame⟩ := ih u h hok rfl
      have room_u : u.cfg.nRx - 1 - u.count .rx = 0 := hroom
      rw [room_u] at contents error
      refine ⟨t, ?_, contents, error, frame⟩
      rw [List.length_cons, Nat.mul_succ, Nat.add_comm, run_add 2 _ s u dropped, hrun]
    | succ r =>
      have room : s.isFull .rx = false := not_full_of_count_lt s .rx hok (Nat.lt_of_sub_eq_succ hroom)
      have stored := run_delivery_room s b status _ h room ht
      obtain ⟨contents_pushed, ok⟩ := s.pushed_contents .rx b hok room
      set u : State := { s with
        rx := storedRx s b, lastError := s.lastError ||| lastErrorCandidate status, turns := deliveries ds ++ ts }
      have contents_u : u.contents .rx = s.contents .rx ++ [b] := contents_pushed
      have count_u : u.count .rx = s.count .rx + 1 := by
        rw [← u.contents_length, contents_u, List.length_append, s.contents_length, List.length_singleton]
      have room_u : u.cfg.nRx - 1 - u.count .rx = r := by
        rw [count_u, Nat.sub_add_eq]
        exact congrArg Nat.pred hroom
      obtain ⟨t, hrun, contents, error, frame⟩ := ih u h ok rfl
      rw [room_u] at contents error
      refine ⟨t, ?_, ?_, error, frame⟩
      · rw [List.length_cons, Nat.mul_succ, Nat.add_comm, run_add 2 _ s u stored, hrun]
      · rw [contents, contents_u, List.append_assoc]
        rfl

/-- Settles O26: an empty buffer has room for N - 1 bytes. -/
theorem overflowKeepsTheFirstBytes : Obligations.OverflowKeepsTheFirstBytes := by
  intro s ds ts hf hok empty hen hie hg hh ht
  obtain ⟨head, tail, -⟩ := (s.ringOk_iff .rx).mp hok
  have noBytes : s.count .rx = 0 := (s.count_eq_zero_iff .rx head tail).mpr empty
  obtain ⟨t, hrun, contents, error, frame⟩ := run_deliveries ds s ts ⟨hf, hen, hie, hg, hh⟩ hok ht
  rw [noBytes, Nat.sub_zero] at contents error
  rw [(s.contents_eq_nil_iff .rx).mpr noBytes, List.nil_append] at contents
  exact ⟨t, hrun, contents, error, frame⟩

/-! ### The only blocking point (R173) -/

/-- Settles O43: each phase's equation names another phase or a record, but for W1 on a full buffer. -/
theorem onlyFullWriteBlocks : Obligations.OnlyFullWriteBlocks := by
  intro s i _ hc unblocked
  cases hp : s.phase <;> rw [hp] at hc <;> cases hc
  case r1 =>
    cases he : s.isEmpty .rx with
    | true => exact ⟨_, execRead_empty s hp he, .inl nofun⟩
    | false => exact ⟨_, execRead_nonempty s hp he, .inl nofun⟩
  case r2 => exact ⟨_, execRead_consume s hp, .inl nofun⟩
  case r3 b n => exact ⟨_, execRead_sample s b n hp, .inl nofun⟩
  case w1 b =>
    cases hfull : s.isFull .tx with
    | true => exact absurd ⟨b, hp, hfull⟩ unblocked
    | false => exact ⟨_, execWrite_room b b s hp hfull, .inl nofun⟩
  case w2 b n =>
    rcases Nat.lt_or_ge n s.cfg.nTx with inside | outside
    · exact ⟨_, execWrite_store b b s n hp inside, .inl nofun⟩
    · exact ⟨_, execWrite_store_outside b b s n hp outside, .inr nofun⟩
  case w3 b n => exact ⟨_, execWrite_publish b b s n hp, .inl nofun⟩
  case w4 b n => exact ⟨_, execWrite_return b b s n hp, .inl nofun⟩

end Sys2Proof.Machine

/-! Runs with interrupts off: polling an empty buffer (43_foreground_api.md section 1), and WRITE's hang on a full one
(section 2, program P4b). -/

namespace Sys2Proof.Machine

open Host

/-- With interrupts off an event's turn changes only the holding slot, the transmitter and the schedule: the handlers
are masked. -/
theorem step_event_masked (s : State) (e : Event) (hf : s.fault = none) (hg : s.gie = false)
    (hn : s.nextTurn = .event e) :
    ∃ h r, step s = .next { s.takeTurn with rxHold := h, txReady := r } := by
  have off : s.takeTurn.gie = false := s.takeTurn_gie.trans hg
  cases e with
  | rxh =>
    have masked := (State.rxhEnabled_eq_false_iff _).mpr (.inl off)
    exact ⟨_, _, step_event s _ .rxh hf hn (execRxh_disabled _ masked)⟩
  | txh =>
    have masked := (State.txhEnabled_eq_false_iff _).mpr (.inl off)
    exact ⟨_, _, step_event s _ .txh hf hn (execTxh_disabled _ masked)⟩
  | line b status =>
    rcases execLine_cases b status s.takeTurn with ⟨_, hx⟩ | ⟨_, hx⟩
    · exact ⟨_, _, step_event s _ (.line b status) hf hn hx⟩
    · exact ⟨_, _, step_event s _ (.line b status) hf hn hx⟩
  | xmit =>
    rcases execXmit_cases s.takeTurn with ⟨_, hx⟩ | ⟨_, hx⟩
    · exact ⟨_, _, step_event s _ .xmit hf hn hx⟩
    · exact ⟨_, _, step_event s _ .xmit hf hn hx⟩

/-! ### The hang (P4b) -/

/-- Whether a buffer is full depends on its ring and the configuration only. -/
theorem isFull_congr (s t : State) (B : BufId) (hc : t.cfg = s.cfg) (hr : t.ring B = s.ring B) :
    t.isFull B = s.isFull B := by
  simp only [State.isFull, State.nextHead, State.nextIdx, hc, hr]

/-- FG's turn of a WRITE that spins takes the turn and nothing else. -/
theorem step_write_spins (s : State) (b : Byte) (hf : s.fault = none) (hp : s.phase = .w1 b)
    (full : s.isFull .tx = true) (hn : s.nextTurn = .fg) : step s = .next s.takeTurn := by
  have full' := (isFull_congr s _ .tx s.takeTurn_cfg s.takeTurn_tx).trans full
  exact step_run s _ _ (.write b) hf (fetch_busy s _ hn (by rw [hp]; rfl))
    (execWrite_full b b s.takeTurn (s.takeTurn_phase.trans hp) full') (s.takeTurn_fault.trans hf)

/-- A WRITE that spins with interrupts off goes on spinning, whoever's turn it is. -/
theorem step_hung (s : State) (b : Byte) (hf : s.fault = none) (hp : s.phase = .w1 b) (full : s.isFull .tx = true)
    (hg : s.gie = false) : ∃ h r, step s = .next { s.takeTurn with rxHold := h, txReady := r } := by
  cases hn : s.nextTurn with
  | fg => exact ⟨_, _, step_write_spins s b hf hp full hn⟩
  | event e => exact step_event_masked s e hf hg hn

/-- Settles O40: by induction on the number of steps, each of which keeps the premises and every field named. -/
theorem fullWriteWithInterruptsOffHangs : Obligations.FullWriteWithInterruptsOffHangs := by
  intro n
  induction n with
  | zero => exact fun s b hf hp _ hg => ⟨s, rfl, hp, rfl, rfl, rfl, hg, rfl, rfl, rfl, hf⟩
  | succ n ih =>
    intro s b hf hp full hg
    obtain ⟨h, r, hstep⟩ := step_hung s b hf hp full hg
    set u : State := { s.takeTurn with rxHold := h, txReady := r }
    have full' := (isFull_congr s u .tx s.takeTurn_cfg s.takeTurn_tx).trans full
    obtain ⟨t, hrun, phase, tx, txie, lineOut, gie, rx, results, program, fault⟩ := ih u b (s.takeTurn_fault.trans hf)
      (s.takeTurn_phase.trans hp) full' (s.takeTurn_gie.trans hg)
    exact ⟨t, run_of_step hstep hrun, phase, tx.trans s.takeTurn_tx, txie.trans s.takeTurn_txie,
      lineOut.trans s.takeTurn_lineOut, gie, rx.trans s.takeTurn_rx, results.trans s.takeTurn_results,
      program.trans s.takeTurn_program, fault⟩

/-! ### Polling -/

/-- FG has `k` READs to end before the words `ws`, and turns listed for just their two steps each: at Idle none of them
is issued, at R1 the first is. -/
def State.polling (s : State) (k : Nat) (ws : List Word) : Prop :=
  (s.phase = .idle ∧ s.program = List.replicate k 0x20000000 ++ ws ∧ s.turns.count .fg = 2 * k)
  ∨ s.phase = .r1 ∧ ∃ j, k = j + 1 ∧ s.program = List.replicate j 0x20000000 ++ ws ∧ s.turns.count .fg = 2 * j + 1

/-- Polling runs to its end over the turns listed, each READ giving NoData. -/
theorem run_polling (ts : List Turn) (s : State) (k : Nat) (ws : List Word) (ht : s.turns = ts) (hf : s.fault = none)
    (hi : s.initialised = true) (empty : s.isEmpty .rx = true) (hg : s.gie = false) (hk : s.polling k ws) :
    ∃ t, Core.run Sys2Proof.core ts.length s = .next t ∧ t.results = s.results ++ List.replicate k 0x0100
      ∧ t.rx = s.rx ∧ t.program = ws ∧ t.phase = .idle ∧ t.lastError = s.lastError ∧ t.fault = none := by
  induction ts generalizing s k with
  | nil =>
    rw [State.polling, ht] at hk
    rcases hk with ⟨hp, hw, hcount⟩ | ⟨_, j, _, _, hcount⟩
    · obtain rfl : k = 0 := by simpa using hcount
      exact ⟨s, rfl, (List.append_nil _).symm, rfl, hw, hp, rfl, hf⟩
    · simp at hcount
  | cons turn ts ih =>
    rw [State.polling, ht] at hk
    cases turn with
    | event e =>
      obtain ⟨h, r, hstep⟩ := step_event_masked s e hf hg (s.nextTurn_listed _ _ ht)
      rw [s.takeTurn_listed _ _ ht] at hstep
      have other : Turn.event e ≠ .fg := nofun
      rw [List.count_cons_of_ne other] at hk
      obtain ⟨t, hrun, rest⟩ := ih { s with turns := ts, rxHold := h, txReady := r } k rfl hf hi empty hg hk
      exact ⟨t, run_of_step hstep hrun, rest⟩
    | fg =>
      rw [List.count_cons_self] at hk
      rcases hk with ⟨hp, hw, hcount⟩ | ⟨hp, j, rfl, hw, hcount⟩
      · obtain ⟨j, rfl⟩ : ∃ j, k = j + 1 := ⟨k - 1, by omega⟩
        have issued := step_read_issue s _ ts ht hf hp hi hw
        set u : State := { s with turns := ts, program := List.replicate j 0x20000000 ++ ws, phase := .r1 }
        have left : u.polling (j + 1) ws := .inr ⟨rfl, j, rfl, rfl, Nat.succ.inj hcount⟩
        obtain ⟨t, hrun, rest⟩ := ih u (j + 1) rfl hf hi empty hg left
        exact ⟨t, run_of_step issued hrun, rest⟩
      · have returned := step_read_empty s ts ht hf hp empty
        set u : State := { s with turns := ts, results := s.results ++ [noData], phase := .idle }
        have left : u.polling j ws := .inl ⟨rfl, hw, Nat.succ.inj hcount⟩
        obtain ⟨t, hrun, results, rest⟩ := ih u j rfl hf hi empty hg left
        exact ⟨t, run_of_step returned hrun, results.trans (List.append_cons _ _ _).symm, rest⟩

/-- Settles O35: at Idle the listed turns are two for each READ. -/
theorem pollingAnEmptyBuffer : Obligations.PollingAnEmptyBuffer := by
  intro n s ws hf hp hi empty hg hw hcount
  exact run_polling s.turns s n ws rfl hf hi ((s.isEmpty_iff .rx).mpr empty) hg (.inl ⟨hp, hw, hcount⟩)

end Sys2Proof.Machine

/-! Liveness of a WRITE that waits on a full transmit buffer with interrupts on (43_foreground_api.md section 2,
60_exceptions.md R209): XMIT makes the transmitter ready, TXH then makes room, and FG's turn then goes on to W2. -/

namespace Sys2Proof.Machine

open Host

/-! ### One step of a WRITE that waits -/

/-- FG is at W1 with interrupts on, in a state that the invariant covers. -/
def State.waiting (s : State) (b : Byte) : Prop :=
  s.Inv ∧ s.fault = none ∧ s.phase = .w1 b ∧ s.gie = true

/-- The transmit buffer has room, or the transmitter can take a byte. -/
def State.roomOrReady (s : State) : Prop := s.isFull .tx = false ∨ s.txReady = true

/-- With the transmitter ready, TXH is enabled while a WRITE waits on a full buffer (R44). -/
theorem txhEnabled_of_waiting (s : State) (b : Byte) (hw : s.waiting b) (full : s.isFull .tx = true)
    (ready : s.txReady = true) : s.txhEnabled = true := by
  obtain ⟨inv, -, hp, hg⟩ := hw
  obtain ⟨-, tx, -, -, -, phase, -, enables, -⟩ := id inv
  obtain ⟨initialised, -⟩ := s.phaseOk_iff.mp phase
  obtain ⟨-, txen, -⟩ := s.enablesOk_iff.mp enables
  have txie := txie_of_inv s inv (s.not_empty_of_full .tx tx full) (by rw [hp]; rfl)
  exact s.txhEnabled_iff.mpr ⟨hg, txen.trans (initialised (by rw [hp]; nofun)), txie, ready⟩

/-- TXH makes room if there is none, and keeps what room there is. -/
theorem execTxh_makes_room (s t : State) (b : Byte) (hw : s.waiting b) (h : s.roomOrReady)
    (hx : execTxh s = .next t) : t.isFull .tx = false := by
  obtain ⟨⟨-, tx, -⟩, -⟩ := id hw
  rcases execTxh_cases s with ⟨off, hs⟩ | ⟨_, empty, hs⟩ | ⟨_, holds, hs⟩ <;> cases hs.symm.trans hx
  · refine h.elim id fun ready => Bool.eq_false_iff.mpr fun full => ?_
    cases off.symm.trans (txhEnabled_of_waiting s b hw full ready)
  · exact s.not_full_of_empty .tx tx empty
  · exact (State.isFull_false_iff _ .tx).mpr (s.nextHead_ne_nextTail .tx tx holds)

/-- No operation changes the schedule. -/
theorem exec_turns (i : Instr) (s t : State) (hx : exec i s = .next t) : t.turns = s.turns := by
  cases i <;> exact (congrArg State.turns (registerFrames _ s t hx) :)

/-- Only TXH makes the transmitter busy. -/
theorem txReady_of_event (e : Event) (s t : State) (htxh : e ≠ .txh) (hx : exec e.instr s = .next t)
    (ready : s.txReady = true) : t.txReady = true := by
  cases e with
  | txh => exact absurd rfl htxh
  | xmit =>
    cases (execXmit_ready s ready).symm.trans hx
    exact ready
  | rxh | line => exact (congrArg State.txReady (registerFrames _ s t hx) :).trans ready

theorem txReady_of_execXmit (s t : State) (hx : execXmit s = .next t) : t.txReady = true := by
  rcases execXmit_cases s with ⟨ready, hs⟩ | ⟨_, hs⟩ <;> cases hs.symm.trans hx
  · exact ready
  · rfl

/-- Only TXH, of the events, changes the transmit buffer. -/
theorem isFull_of_event (e : Event) (s t : State) (htxh : e ≠ .txh) (hx : exec e.instr s = .next t) :
    t.isFull .tx = s.isFull .tx := by
  refine isFull_congr s t .tx (exec_cfg _ s t hx) (exec_tx _ s t ?_ ?_ ?_ hx)
  · exact fun he => htxh (instr_injective e .txh he)
  · intro b; cases e <;> nofun
  · intro sel; cases e <;> nofun

@[simp] theorem takeTurn_isFull (s : State) (B : BufId) : s.takeTurn.isFull B = s.isFull B :=
  isFull_congr s _ B s.takeTurn_cfg (by cases B <;> simp)

theorem waiting_takeTurn (s : State) (b : Byte) (hw : s.waiting b) : s.takeTurn.waiting b := by
  obtain ⟨inv, hf, hp, hg⟩ := hw
  exact ⟨inv_takeTurn s inv, s.takeTurn_fault.trans hf, s.takeTurn_phase.trans hp, s.takeTurn_gie.trans hg⟩

theorem roomOrReady_takeTurn (s : State) : s.takeTurn.roomOrReady ↔ s.roomOrReady := by
  simp [State.roomOrReady]

/-- What one step from `s` to `t` does for a WRITE of `b` that goes on waiting, by whose turn it was. -/
structure Waits (b : Byte) (s t : State) : Prop where
  waiting : t.waiting b
  turns : t.turns = s.takeTurn.turns
  room : s.isFull .tx = false → t.isFull .tx = false
  roomOrReady : s.roomOrReady → t.roomOrReady
  fg : s.nextTurn = .fg → s.isFull .tx = true
  txh : s.nextTurn = .event .txh → s.roomOrReady → t.isFull .tx = false
  xmit : s.nextTurn = .event .xmit → t.roomOrReady

/-- An event's turn leaves the WRITE waiting. -/
theorem waits_of_event (s t : State) (b : Byte) (e : Event) (hw : s.waiting b) (hn : s.nextTurn = .event e)
    (h : step s = .next t) : Waits b s t := by
  obtain ⟨hf, hx⟩ := exec_of_step_event s t e hn h
  obtain ⟨phase, -, gie, -, -, fault⟩ := exec_event_frame e _ t hx
  have hw' := waiting_takeTurn s b hw
  obtain ⟨inv, hf', hp', hg'⟩ := id hw'
  have waiting : t.waiting b := ⟨exec_keeps_inv _ _ t inv hx, fault.trans hf', phase.trans hp', gie.trans hg'⟩
  have turns := exec_turns _ _ t hx
  by_cases he : e = .txh
  case pos =>
    subst he
    have makes (some : s.roomOrReady) : t.isFull .tx = false :=
      execTxh_makes_room _ t b hw' ((roomOrReady_takeTurn s).mpr some) hx
    exact ⟨waiting, turns, fun room => makes (.inl room), fun some => .inl (makes some), fun fg => by simp [hn] at fg,
      fun _ => makes, fun xmit => by simp [hn] at xmit⟩
  case neg =>
    have full : t.isFull .tx = s.isFull .tx := (isFull_of_event e _ t he hx).trans (takeTurn_isFull s .tx)
    have ready (h : s.txReady = true) : t.txReady = true :=
      txReady_of_event e _ t he hx (s.takeTurn_txReady.trans h)
    refine ⟨waiting, turns, full.trans, Or.imp full.trans ready, fun fg => by simp [hn] at fg, fun txh => ?_,
      fun xmit => ?_⟩
    · rw [hn] at txh
      exact absurd (Turn.event.inj txh) he
    · rw [hn] at xmit
      cases xmit
      exact .inr (txReady_of_execXmit _ t hx)

/-- A WRITE that waits goes on when FG's turn finds room, and waits on otherwise. -/
theorem step_waiting (s t : State) (b : Byte) (hw : s.waiting b) (h : step s = .next t) :
    (∃ next, t.phase = .w2 b next) ∨ Waits b s t := by
  obtain ⟨inv, hf, hp, hg⟩ := id hw
  cases hn : s.nextTurn with
  | event e => exact .inr (waits_of_event s t b e hw hn h)
  | fg =>
    cases hfull : s.isFull .tx with
    | true =>
      cases (step_write_spins s b hf hp hfull hn).symm.trans h
      exact .inr ⟨waiting_takeTurn s b hw, rfl, (takeTurn_isFull s .tx).trans, (roomOrReady_takeTurn s).mpr,
        fun _ => hfull, fun txh => by simp [hn] at txh, fun xmit => by simp [hn] at xmit⟩
    | false =>
      have goes := execWrite_room b b s.takeTurn (s.takeTurn_phase.trans hp) ((takeTurn_isFull s .tx).trans hfull)
      have stepped :=
        step_run s _ _ (.write b) hf (fetch_busy s _ hn (by rw [hp]; rfl)) goes (s.takeTurn_fault.trans hf)
      cases stepped.symm.trans h
      exact .inl ⟨_, rfl⟩

/-! ### A schedule that drains -/

/-- The turns listed still offer what the WRITE lacks: an XMIT unless there is room or the transmitter is ready, a TXH
unless there is room, and a turn of FG. -/
def State.drains (s : State) (ts : List Turn) : Prop :=
  [Turn.event .xmit, Turn.event .txh, Turn.fg].Sublist ts
  ∨ (s.roomOrReady ∧ [Turn.event .txh, Turn.fg].Sublist ts)
  ∨ s.isFull .tx = false ∧ [Turn.fg].Sublist ts

/-- A turn taken either gives what it was listed for or is not needed. -/
theorem drains_of_waits (s t : State) (b : Byte) (turn : Turn) (ts : List Turn) (hw : Waits b s t)
    (hn : s.nextTurn = turn) (h : s.drains (turn :: ts)) : t.drains ts := by
  rcases h with all | ⟨some, two⟩ | ⟨room, one⟩
  · cases all with
    | cons _ later => exact .inl later
    | cons_cons _ rest => exact .inr (.inl ⟨hw.xmit hn, rest⟩)
  · cases two with
    | cons _ later => exact .inr (.inl ⟨hw.roomOrReady some, later⟩)
    | cons_cons _ rest => exact .inr (.inr ⟨hw.txh hn some, rest⟩)
  · cases one with
    | cons _ later => exact .inr (.inr ⟨hw.room room, later⟩)
    | cons_cons _ _ => cases room.symm.trans (hw.fg hn)

/-- Over turns that drain the buffer the WRITE goes on. -/
theorem goes_on_of_drains (ts : List Turn) (s : State) (b : Byte) (hw : s.waiting b) (ht : s.turns = ts)
    (h : s.drains ts) :
    ∃ n t next, n ≤ ts.length ∧ Core.run Sys2Proof.core n s = .next t ∧ t.phase = .w2 b next := by
  induction ts generalizing s with
  | nil => rcases h with all | ⟨_, two⟩ | ⟨_, one⟩ <;> contradiction
  | cons turn ts ih =>
    obtain ⟨-, hf, -⟩ := id hw
    obtain ⟨t, hstep⟩ := step_total s hf
    rcases step_waiting s t b hw hstep with ⟨next, goes⟩ | waits
    · exact ⟨1, t, next, by simp, run_of_step hstep rfl, goes⟩
    · have turns : t.turns = ts := by rw [waits.turns, s.takeTurn_listed turn ts ht]
      have drains := drains_of_waits s t b turn ts waits (s.nextTurn_listed turn ts ht) h
      obtain ⟨n, u, next, bound, hrun, goes⟩ := ih t waits.waiting turns drains
      exact ⟨n + 1, u, next, Nat.succ_le_succ bound, run_of_step hstep hrun, goes⟩

/-- Settles O41: the schedule drains the buffer from any state in which the WRITE waits. -/
theorem fullWriteGoesOnOnceDrained : Obligations.FullWriteGoesOnOnceDrained := fun s b inv hf hp hg offered =>
  goes_on_of_drains s.turns s b ⟨inv, hf, hp, hg⟩ rfl (.inl offered)

/-! ### Fair runs (R209) -/

/-- Every agent but LINE, whose turns carry draws, has one turn. -/
theorem turn_eq_of_agent (t u : Turn) (h : Turn.agent t = Turn.agent u) (hl : Turn.agent u ≠ .line) : t = u := by
  rcases u with _ | (_ | _ | _ | _)
  case event.line => exact absurd rfl hl
  all_goals
    rcases t with _ | (_ | _ | _ | _) <;> cases h
    rfl

section fair

variable (σ : Nat → State) (b : Byte) (hfair : WeaklyFair σ) (hwait : ∀ n, (σ n).waiting b)
  (hwaits : ∀ n, Waits b (σ n) (σ (n + 1)))
include hfair hwait hwaits

/-- Room would last until FG's turn, which goes on with it. -/
theorem full_of_fair (n : Nat) : (σ n).isFull .tx = true := by
  by_contra! hroom
  have room : ∀ m, n ≤ m → (σ m).isFull .tx = false := fun m hm => by
    induction m, hm using Nat.le_induction with
    | base => exact Bool.eq_false_iff.mpr hroom
    | succ m _ ih => exact (hwaits m).room ih
  have enabled : ∀ m, n ≤ m → (σ m).enabled .fg = true := fun m _ => by
    obtain ⟨-, hf, hp, -⟩ := hwait m
    simp [State.enabled, State.fgEnabled, hf, hp]
  obtain ⟨m, hm, agent⟩ := hfair .fg nofun n enabled
  cases (room m hm).symm.trans ((hwaits m).fg (turn_eq_of_agent _ .fg agent nofun))

/-- A ready transmitter would stay ready until TXH's turn, which makes room. -/
theorem busy_of_fair (n : Nat) : ¬(σ n).roomOrReady := by
  intro some
  have full := full_of_fair σ b hfair hwait hwaits
  have lasts : ∀ m, n ≤ m → (σ m).roomOrReady := fun m hm => by
    induction m, hm using Nat.le_induction with
    | base => exact some
    | succ m _ ih => exact (hwaits m).roomOrReady ih
  have enabled : ∀ m, n ≤ m → (σ m).enabled .txh = true := fun m hm => by
    have ready := (lasts m hm).resolve_left (by rw [full m]; nofun)
    obtain ⟨-, hf, -⟩ := id (hwait m)
    simp [State.enabled, hf, txhEnabled_of_waiting (σ m) b (hwait m) (full m) ready]
  obtain ⟨m, hm, agent⟩ := hfair .txh nofun n enabled
  cases (full (m + 1)).symm.trans ((hwaits m).txh (turn_eq_of_agent _ (.event .txh) agent nofun) (lasts m hm))

/-- A busy transmitter becomes ready in XMIT's turn, so no weakly fair run waits for ever. -/
theorem not_waiting_forever : False := by
  have busy := busy_of_fair σ b hfair hwait hwaits
  have enabled : ∀ m, 0 ≤ m → (σ m).enabled .xmit = true := fun m _ => by
    obtain ⟨-, hf, -⟩ := id (hwait m)
    have notReady : (σ m).txReady = false := Bool.eq_false_iff.mpr fun ready => busy m (.inr ready)
    simp [State.enabled, State.xmitEnabled, hf, notReady]
  obtain ⟨m, -, agent⟩ := hfair .xmit nofun 0 enabled
  exact busy (m + 1) ((hwaits m).xmit (turn_eq_of_agent _ (.event .xmit) agent nofun))

end fair

/-- Settles O42: a WRITE that never goes on waits in every state of the run, which weak fairness rules out. -/
theorem fairRunsLetFullWriteGoOn : Obligations.FairRunsLetFullWriteGoOn := by
  intro σ b hrun inv hp hg
  by_contra! stuck
  obtain ⟨never, fair⟩ := stuck
  have steps (n : Nat) (hw : (σ n).waiting b) : Waits b (σ n) (σ (n + 1)) :=
    (step_waiting _ _ b hw (hrun n)).resolve_left fun ⟨next, goes⟩ => never (n + 1) next goes
  obtain ⟨hf, -⟩ := step_cases _ _ (hrun 0)
  have waiting (n : Nat) : (σ n).waiting b := by
    induction n with
    | zero => exact ⟨inv, hf, hp, hg⟩
    | succ n ih => exact (steps n ih).waiting
  exact not_waiting_forever σ b fair waiting fun n => steps n (waiting n)

end Sys2Proof.Machine
